-- ==== Sys2Proof/Word.lean ====
section
/-! DEFINITION. The word and byte types of OQPSK-PS and the plainest arithmetic on them (00_scope.md R10, R11). -/

namespace Sys2Proof

/-- The unit of transfer of the input ports and of RSP_OUT: 32 bits (20_memory.md R73). -/
abbrev Word := BitVec 32

/-- One byte of an input stream, a PDU, a tag name or BYTE_OUT. -/
abbrev Byte := BitVec 8

/-- One SAMPLE_OUT item: I in bits [31:0], Q in bits [63:32] (20_memory.md R74, R76). -/
abbrev Sample := BitVec 64

/-- `ceil(n / 4)`: how many words carry `n` packed bytes (20_memory.md R75). -/
def wordsFor (n : Nat) : Nat := (n + 3) / 4

end Sys2Proof
end

