-- ==== Sys2Proof/Config.lean ====
section
/-! DEFINITION. What an implementation of OQPSK-PS fixes (00_scope.md R7, R8), the constants several files use
(R14), and the FREE VALUES: opaque constants with no body, for what the spec leaves open. -/

namespace Sys2Proof

/-- The two input ports, and so the two agents (10_state.md R31, R32). -/
inductive Port where
  | cmd
  | msg
deriving DecidableEq, Repr

namespace Config

/-! ## Free values -/

/-- DESIGN CHOICE (log 2). How far TIME advances before draw number `n`, once the environment's list of advances is
used up. Only the monotone law is assumed (10_state.md R48). -/
opaque timeAdvance : Nat → Nat

/-- DESIGN CHOICE (log 3). Which agent the arbiter picks at contest number `n`, both ports holding a complete command,
once the environment's list of grants is used up: true for the MSG agent. Any pick is allowed (20_memory.md R79). -/
opaque arbiterPicksMsg : (n : Nat) → Bool

/-- DESIGN CHOICE (log 3). How many further contests the loser of contest number `n` may lose while it waits, before the
arbiter must let it move: any number, but a finite one, which is the weak fairness of 20_memory.md R79. -/
opaque arbiterPatience : (n : Nat) → Nat

/-- DESIGN CHOICE (log 6). What TAP[i] holds after the RESET command number `epoch` (43_control.md R202: "TAP becomes
unspecified"). -/
opaque unspecifiedTap : (epoch i : Nat) → Word

/-- DESIGN CHOICE (log 1). Whether the word nearest to an exact tap of 0 is stored as -0.0: 00_scope.md R12 makes
both zeros nearest. -/
opaque zeroTapIsNegative : Bool

/-- PRESUMED (log 12). The payload of a NaN product of the default multiplication; 43_control.md R209 says none
arises. -/
opaque nanPayload : Word → Word → Word

/-- The P_TAP_ROUND number `n` other than the default: a total function of the exact tap, a real that no evaluation
looks into (00_scope.md R7; log 9). -/
opaque otherTapRound : (n : Nat) → Erased ℝ → Word

/-- The P_FMUL number `n` other than the default (00_scope.md R7: any total function; log 9). -/
opaque otherFmul : (n : Nat) → Word → Word → Word

end Config

/-! ## Implementation parameters -/

/-- P_PACE_ROUND (42_converter.md R179). -/
inductive PaceRound where
  | nearest
  | floor
deriving DecidableEq, Repr

/-- P_TAP_ROUND: the default RNE32, or another total function, of which `Config.otherTapRound` holds an unlimited
supply (40_configuration.md R127). -/
inductive TapRound where
  | rne32
  | other (n : Nat)
deriving DecidableEq, Repr

/-- P_FMUL: the default IEEE 754 binary32 product, or another total function, of which `Config.otherFmul` holds an
unlimited supply (41_modulator.md R147). -/
inductive FmulRound where
  | rne32
  | other (n : Nat)
deriving DecidableEq, Repr

/-- The implementation parameters of 00_scope.md R7. -/
structure Params where
  /-- P_SPS_MAX -/
  spsMax : Nat
  /-- P_IN_DEPTH -/
  inDepth : Nat
  /-- P_Q_DEPTH -/
  qDepth : Nat
  /-- P_PDU_MAX -/
  pduMax : Nat
  /-- P_TAGNAME_MAX -/
  tagNameMax : Nat
  /-- P_F_TICK -/
  fTick : Nat
  /-- P_PACE_ROUND -/
  paceRound : PaceRound
  /-- P_TAP_ROUND -/
  tapRound : TapRound
  /-- P_FMUL -/
  fmul : FmulRound
  /-- P_ID -/
  id : Word
deriving DecidableEq, Repr

/-- N_MAX, the size of the tap memory (00_scope.md R7). -/
def Params.nMax (p : Params) : Nat := 8 * p.spsMax + 1

/-- The legal ranges of 00_scope.md R7 and the constraints of R8: any other set is not an OQPSK-PS configuration. -/
abbrev Params.legal (p : Params) : Prop :=
  (1 ≤ p.spsMax ∧ p.spsMax ≤ 8191) ∧
  (1 ≤ p.inDepth ∧ p.inDepth ≤ 2 ^ 32 - 1) ∧
  (1 ≤ p.qDepth ∧ p.qDepth ≤ 2 ^ 32 - 1) ∧
  p.pduMax ≤ 2 ^ 20 - 1 ∧
  p.tagNameMax ≤ 255 ∧
  (1 ≤ p.fTick ∧ p.fTick ≤ 2 ^ 64 - 1)

/-- The default parameter set of 00_scope.md R7. -/
def Params.default : Params where
  spsMax := 64
  inDepth := 256
  qDepth := 16
  pduMax := 4096
  tagNameMax := 64
  fTick := 1000000000
  paceRound := .nearest
  tapRound := .rne32
  fmul := .rne32
  id := 0x4F510007#32

/-! ## Constants (00_scope.md R14) -/

/-- The amplitude word A = RNE32(1/√2). -/
def ampPos : Word := 0x3F3504F3#32

/-- The negated amplitude word A_NEG. -/
def ampNeg : Word := 0xBF3504F3#32

/-- The padding byte PAD (42_converter.md R187). -/
def padByte : Byte := 0x01#8

end Sys2Proof
end

