-- ==== Sys2Proof/Syntax.lean ====
section
/-! DEFINITION. The commands of OQPSK-PS: one constructor per row of spec/opcode_table.json (30_encoding.md R91, R92).
Reserved header bits are fields, because the command itself raises RESERVED_NONZERO on them (R98); payload words are
kept whole, because the unused bytes of a last word are ignored by the command, not by the encoding (R75). -/

namespace Sys2Proof

/-- A command: a header word and its payload words (30_encoding.md R90). Fields stand in the order of the header's
bits, high to low, and then the payload. -/
inductive Instr where
  /-- NOP, F-HINT: all 24 bits are ignored (43_control.md R200). -/
  | nop (ignored : BitVec 24)
  /-- RESET, F-ZERO (43_control.md R202). -/
  | reset (reserved : BitVec 24)
  /-- CSR.READ, F-CSR (43_control.md R204). -/
  | csrRead (reserved : BitVec 16) (idx : BitVec 8)
  /-- ERR.CLEAR, F-ZERO (43_control.md R206). -/
  | errClear (reserved : BitVec 24)
  /-- MOD.CONFIG, F-MCFG, with payload word ALPHA (40_configuration.md R121). -/
  | modConfig (dbg : Bool) (reserved : BitVec 7) (sps : BitVec 16) (alpha : Word)
  /-- MOD.FEED, F-BYTE (41_modulator.md R143). -/
  | modFeed (reserved : BitVec 16) (byte : Byte)
  /-- MOD.REQUEST, F-COUNT (41_modulator.md R145). -/
  | modRequest (n : BitVec 24)
  /-- TAP.READ, F-TAP (41_modulator.md R160). -/
  | tapRead (reserved : BitVec 8) (i : BitVec 16)
  /-- CONV.CONFIG, F-CCFG, with payload RATE_LO, RATE_HI and the tag-name words (40_configuration.md R130). -/
  | convConfig (dbg : Bool) (reserved : BitVec 15) (len : BitVec 8) (rateLo rateHi : Word) (name : List Word)
  /-- MSG.DELIVER, F-MSG, with the PDU words (42_converter.md R171). -/
  | msgDeliver (kind : BitVec 4) (len : BitVec 20) (payload : List Word)
  /-- CONV.REQUEST, F-COUNT (42_converter.md R176). -/
  | convRequest (n : BitVec 24)
deriving DecidableEq, Repr

end Sys2Proof
end

