-- ==== Sys2Proof/WellFormed.lean ====
section
/-! DEFINITION. Which terms of `Instr` are commands of the encoding: those whose payload has the number of words the
header's length field fixes (30_encoding.md R93, R97). -/

namespace Sys2Proof

/-- The payload is as long as the header says (30_encoding.md R93). Every other field fits by its type; a nonzero
reserved field is a well-formed command that raises RESERVED_NONZERO (R98). -/
def Instr.wf : Instr → Bool
  | .nop _ => true
  | .reset _ => true
  | .csrRead _ _ => true
  | .errClear _ => true
  | .modConfig _ _ _ _ => true
  | .modFeed _ _ => true
  | .modRequest _ => true
  | .tapRead _ _ => true
  | .convConfig _ _ len _ _ name => name.length == wordsFor len.toNat
  | .msgDeliver _ len payload => payload.length == wordsFor len.toNat
  | .convRequest _ => true

end Sys2Proof
end

