-- ==== Sys2Proof/Decode.lean ====
section
/-! DEFINITION. Decoding and encoding of commands (30_encoding.md R90-R101): the header's fields, the length a header
decides, the decoder of one port's words, total on any words, and the encoder. -/

namespace Sys2Proof

/-! ## The opcode map -/

/-- The defined values of OPC, by name (30_encoding.md R91). -/
inductive Opcode where
  | nop | reset | csrRead | errClear | modConfig | modFeed | modRequest | tapRead | convConfig | msgDeliver
  | convRequest
deriving DecidableEq, Repr

/-- OPC of each command (30_encoding.md R91). -/
def Opcode.code : Opcode → BitVec 8
  | .nop => 0x00#8
  | .reset => 0x01#8
  | .csrRead => 0x02#8
  | .errClear => 0x03#8
  | .modConfig => 0x10#8
  | .modFeed => 0x11#8
  | .modRequest => 0x12#8
  | .tapRead => 0x13#8
  | .convConfig => 0x20#8
  | .msgDeliver => 0x21#8
  | .convRequest => 0x22#8

/-- The command an OPC value names; every other value is undefined (30_encoding.md R91, R99). -/
def opcodeOfByte (opc : BitVec 8) : Option Opcode :=
  match opc.toNat with
  | 0x00 => some .nop
  | 0x01 => some .reset
  | 0x02 => some .csrRead
  | 0x03 => some .errClear
  | 0x10 => some .modConfig
  | 0x11 => some .modFeed
  | 0x12 => some .modRequest
  | 0x13 => some .tapRead
  | 0x20 => some .convConfig
  | 0x21 => some .msgDeliver
  | 0x22 => some .convRequest
  | _ => none

/-- Which commands a port admits: CMD all of them, MSG only NOP and MSG.DELIVER (30_encoding.md R94). -/
def admits : Port → Opcode → Bool
  | .cmd, _ => true
  | .msg, .nop => true
  | .msg, .msgDeliver => true
  | .msg, _ => false

/-! ## Header fields (30_encoding.md R90, R92, R96) -/

/-- OPC, header bits [31:24]. -/
def opcField (hdr : Word) : BitVec 8 := hdr.extractLsb' 24 8

/-- ARG, header bits [23:0]; also the capacity N of F-COUNT. -/
def argField (hdr : Word) : BitVec 24 := hdr.extractLsb' 0 24

/-- DBG, header bit [23]. -/
def dbgField (hdr : Word) : Bool := hdr.getLsbD 23

/-- The command a header names on a port, if the port admits it (30_encoding.md R94). -/
def opcodeOn (p : Port) (hdr : Word) : Option Opcode :=
  match opcodeOfByte (opcField hdr) with
  | some op => if admits p op then some op else none
  | none => none

/-- How many payload words follow the header of a command (30_encoding.md R93). -/
def payloadWords (op : Opcode) (hdr : Word) : Nat :=
  match op with
  | .modConfig => 1
  | .convConfig => 2 + wordsFor (hdr.extractLsb' 0 8).toNat
  | .msgDeliver => wordsFor (hdr.extractLsb' 0 20).toNat
  | _ => 0

/-- The length in words of the command a header begins on a port, decided by the header alone; 1 for an undefined
or not admitted OPC (30_encoding.md R93). -/
def commandLength (p : Port) (hdr : Word) : Nat :=
  match opcodeOn p hdr with
  | some op => 1 + payloadWords op hdr
  | none => 1

/-! ## The decoder -/

/-- What a port's received words begin with. -/
inductive Decoded where
  /-- A fully received command and the words after it. -/
  | command (i : Instr) (rest : List Word)
  /-- A header that is undefined or not admitted on the port, one word long (30_encoding.md R99), and the words after
  it. -/
  | illegal (hdr : Word) (rest : List Word)
  /-- No command is fully received: the agent has no step (20_memory.md R75). -/
  | incomplete
deriving DecidableEq, Repr

/-- Whether at least `n` words are there. -/
def hasWords : Nat → List Word → Bool
  | 0, _ => true
  | _ + 1, [] => false
  | n + 1, _ :: ws => hasWords n ws

/-- The command with a given opcode, header and payload (30_encoding.md R92, R96, R97). -/
def assembleInstr (op : Opcode) (hdr : Word) (payload : List Word) : Instr :=
  match op with
  | .nop => .nop (argField hdr)
  | .reset => .reset (argField hdr)
  | .csrRead => .csrRead (hdr.extractLsb' 8 16) (hdr.extractLsb' 0 8)
  | .errClear => .errClear (argField hdr)
  | .modConfig => .modConfig (dbgField hdr) (hdr.extractLsb' 16 7) (hdr.extractLsb' 0 16) (payload.getD 0 0#32)
  | .modFeed => .modFeed (hdr.extractLsb' 8 16) (hdr.extractLsb' 0 8)
  | .modRequest => .modRequest (argField hdr)
  | .tapRead => .tapRead (hdr.extractLsb' 16 8) (hdr.extractLsb' 0 16)
  | .convConfig =>
    .convConfig (dbgField hdr) (hdr.extractLsb' 8 15) (hdr.extractLsb' 0 8) (payload.getD 0 0#32)
      (payload.getD 1 0#32) (payload.drop 2)
  | .msgDeliver => .msgDeliver (hdr.extractLsb' 20 4) (hdr.extractLsb' 0 20) payload
  | .convRequest => .convRequest (argField hdr)

/-- Decodes the front of a port's received words (30_encoding.md R101): one header, and exactly the words its length
asks for. -/
def decode (p : Port) : List Word → Decoded
  | [] => .incomplete
  | hdr :: rest =>
    match opcodeOn p hdr with
    | none => .illegal hdr rest
    | some op =>
      if hasWords (payloadWords op hdr) rest then
        .command (assembleInstr op hdr (rest.take (payloadWords op hdr))) (rest.drop (payloadWords op hdr))
      else .incomplete

/-! ## The encoder -/

/-- The opcode of a command. -/
def Instr.opcode : Instr → Opcode
  | .nop _ => .nop
  | .reset _ => .reset
  | .csrRead _ _ => .csrRead
  | .errClear _ => .errClear
  | .modConfig _ _ _ _ => .modConfig
  | .modFeed _ _ => .modFeed
  | .modRequest _ => .modRequest
  | .tapRead _ _ => .tapRead
  | .convConfig _ _ _ _ _ _ => .convConfig
  | .msgDeliver _ _ _ => .msgDeliver
  | .convRequest _ => .convRequest

/-- ARG of a command's header, its fields at the bit positions of 30_encoding.md R92. -/
def Instr.arg : Instr → BitVec 24
  | .nop ignored => ignored
  | .reset reserved => reserved
  | .csrRead reserved idx => reserved ++ idx
  | .errClear reserved => reserved
  | .modConfig dbg reserved sps _ => BitVec.ofBool dbg ++ reserved ++ sps
  | .modFeed reserved byte => reserved ++ byte
  | .modRequest n => n
  | .tapRead reserved i => reserved ++ i
  | .convConfig dbg reserved len _ _ _ => BitVec.ofBool dbg ++ reserved ++ len
  | .msgDeliver kind len _ => kind ++ len
  | .convRequest n => n

/-- The header word of a command, OPC above ARG (30_encoding.md R90). -/
def Instr.header (i : Instr) : Word := i.opcode.code ++ i.arg

/-- The payload words of a command (30_encoding.md R97). -/
def Instr.payload : Instr → List Word
  | .modConfig _ _ _ alpha => [alpha]
  | .convConfig _ _ _ rateLo rateHi name => rateLo :: rateHi :: name
  | .msgDeliver _ _ payload => payload
  | .nop _ => []
  | .reset _ => []
  | .csrRead _ _ => []
  | .errClear _ => []
  | .modFeed _ _ => []
  | .modRequest _ => []
  | .tapRead _ _ => []
  | .convRequest _ => []

/-- The words of a command as a port receives them. -/
def encode (i : Instr) : List Word := i.header :: i.payload

/-- The RSP_OUT words a command emits, the same number when it raises an error (30_encoding.md R95). -/
def Instr.rspWords : Instr → Nat
  | .csrRead _ _ => 1
  | .tapRead _ _ => 1
  | .modRequest _ => 2
  | .convRequest _ => 1
  | .nop _ => 0
  | .reset _ => 0
  | .errClear _ => 0
  | .modConfig _ _ _ _ => 0
  | .modFeed _ _ => 0
  | .convConfig _ _ _ _ _ _ => 0
  | .msgDeliver _ _ _ => 0

/-! ## Words numbered as the opcode table numbers them -/

/-- The first `n` 32-bit words of the bits of `w`, the least significant word first. -/
def wordsOfBits : (n w : Nat) → List Word
  | 0, _ => []
  | n + 1, w => BitVec.ofNat 32 w :: wordsOfBits n (w / 2 ^ 32)

/-- The words of the command whose first `nbits` bits are those of `w` and whose other bits are 0: the header and as
many words as it asks for on the CMD port. -/
def tableWords (nbits w : Nat) : List Word :=
  wordsOfBits (commandLength .cmd (BitVec.ofNat 32 (w % 2 ^ nbits))) (w % 2 ^ nbits)

/-- The command the decoder reads on the CMD port from the bits of `w`, numbered as spec/opcode_table.json numbers
them. -/
def decodeTableWord (nbits w : Nat) : Option Instr :=
  match decode .cmd (tableWords nbits w) with
  | .command i _ => some i
  | .illegal _ _ => none
  | .incomplete => none

end Sys2Proof
end

