-- ==== Sys2Proof/Machine/Operands.lean ====
section
/-! DEFINITION. Operand assembly: packed bytes, the two-word rate, and the views a port has when it is serialised to
bytes (30_encoding.md R96, R97; 20_memory.md R73-R75). The header's own fields are taken apart by the decoder. -/

namespace Sys2Proof.Machine

/-- The four bytes of a word, byte 0 in bits [7:0] (20_memory.md R73). -/
def wordBytes (w : Word) : List Byte :=
  [w.extractLsb' 0 8, w.extractLsb' 8 8, w.extractLsb' 16 8, w.extractLsb' 24 8]

/-- The first `len` bytes packed in payload words; the bytes at positions from `len` on are ignored (20_memory.md R73,
R75). -/
def unpackBytes (len : Nat) (ws : List Word) : List Byte := (ws.flatMap wordBytes).take len

/-- Packs bytes into payload words, the unused bytes of the last word 0 (20_memory.md R73). -/
def packBytes : List Byte → List Word
  | [] => []
  | [a] => [0x000000#24 ++ a]
  | [a, b] => [0x0000#16 ++ b ++ a]
  | [a, b, c] => [0x00#8 ++ c ++ b ++ a]
  | a :: b :: c :: d :: rest => (d ++ c ++ b ++ a) :: packBytes rest

/-- RATE = {RATE_HI, RATE_LO}, unsigned 32.32 fixed point (30_encoding.md R97). -/
def rateOf (rateLo rateHi : Word) : BitVec 64 := rateHi ++ rateLo

/-- The low word of a 64-bit value (20_memory.md R74). -/
def loWord (v : BitVec 64) : Word := v.extractLsb' 0 32

/-- The high word of a 64-bit value (20_memory.md R74). -/
def hiWord (v : BitVec 64) : Word := v.extractLsb' 32 32

/-- A SAMPLE_OUT item from its rails: {Q, I} (20_memory.md R74, R76). -/
def sampleOf (i q : Word) : Sample := q ++ i

/-- A SAMPLE_OUT item serialised: the 4 bytes of I, then the 4 bytes of Q, each little-endian (20_memory.md R74). -/
def sampleBytes (x : Sample) : List Byte := wordBytes (loWord x) ++ wordBytes (hiWord x)

end Sys2Proof.Machine
end

