-- ==== Sys2Proof/Machine/State.lean ====
section
/-! DEFINITION. The state of OQPSK-PS (10_state.md, 20_memory.md): every element the spec names, the implementation
parameters as constants beside it, and the model's own plain data that feed the free values; the reasons a step can
stop; and the state after hardware reset (R57, 70_reset_and_hazards.md R250). -/

namespace Sys2Proof.Machine

/-- Why the machine has no next step. -/
inductive Fault where
  /-- Raised by `step` when neither port holds a fully received command, so that no agent has a step
  (20_memory.md R75; 93_implementation_defined.md K9, "stuck"). SAFE: the machine only waits for the host's words. -/
  | noCommandReceived
deriving DecidableEq, Repr

/-- Why the model gives a run no further meaning. -/
inductive Refusal where
  /-- Raised by an arm of `exec` whose instruction has no meaning yet. SAFE. -/
  | notModelled (mnemonic : String)
  /-- Raised by a command that draws TIME when TIME would pass 2^64 - 1: such a run is outside the spec
  (10_state.md R48; 93_implementation_defined.md K3, "refuse"). SAFE. -/
  | timeWouldWrap
  /-- Raised by `step` when the parameters are not an OQPSK-PS configuration (00_scope.md R8;
  93_implementation_defined.md K14, "refuse"). SAFE. -/
  | illegalParameters
deriving DecidableEq, Repr

/-- The error state (10_state.md R33). -/
structure ErrState where
  /-- ERR -/
  err : Bool
  /-- ERR_CAUSE -/
  cause : BitVec 8
  /-- ERR_INFO -/
  info : Word
  /-- ERR_COUNT -/
  count : BitVec 32
deriving DecidableEq, Repr

/-- The MOD unit but for its tap memory (10_state.md R35, R37-R40). -/
structure ModState where
  /-- M_CFG -/
  cfg : Bool
  /-- M_DBG -/
  dbg : Bool
  /-- M_S -/
  sps : BitVec 16
  /-- M_ALPHA -/
  alpha : Word
  /-- M_N -/
  nTaps : BitVec 16
  /-- IN_FIFO, front first -/
  inFifo : List Byte
  /-- M_BYTE -/
  byte : Byte
  /-- M_BITS -/
  bits : BitVec 4
  /-- M_ACT -/
  act : Bool
  /-- M_INEG -/
  ineg : Bool
  /-- M_QNEG -/
  qneg : Bool
  /-- M_K -/
  k : BitVec 16
  /-- M_SYMCNT -/
  symcnt : BitVec 64
deriving DecidableEq, Repr

/-- The tap memory TAP, words by index (10_state.md R36; 20_memory.md R72), as a list of (index, word) pairs in one
canonical form: indices strictly rising, no word equal to what an unlisted index reads as. -/
abbrev TapMemory := List (Nat × Word)

/-- The CONV unit (10_state.md R42-R47, R49). -/
structure ConvState where
  /-- C_CFG -/
  cfg : Bool
  /-- C_DBG -/
  dbg : Bool
  /-- C_RATE -/
  rate : BitVec 64
  /-- C_TAGLEN -/
  tagLen : BitVec 8
  /-- C_TAGNAME -/
  tagName : List Byte
  /-- C_Q, front first -/
  queue : List (List Byte)
  /-- C_CUR_VALID -/
  curValid : Bool
  /-- C_CUR -/
  cur : List Byte
  /-- C_POS -/
  pos : BitVec 20
  /-- C_TAGOFF -/
  tagOff : BitVec 24
  /-- C_LAST_T -/
  lastT : BitVec 64
  /-- C_WCOUNT -/
  wcount : BitVec 64
  /-- C_MSG_OK -/
  msgOk : BitVec 32
  /-- C_DROP_MALFORMED -/
  dropMalformed : BitVec 32
  /-- C_DROP_FULL -/
  dropFull : BitVec 32
  /-- C_DROP_LONG -/
  dropLong : BitVec 32
  /-- C_TAGCNT -/
  tagCnt : BitVec 32
deriving DecidableEq, Repr

/-- A TAG_OUT record (20_memory.md R76). -/
structure Tag where
  offset : BitVec 64
  key : List Byte
  value : BitVec 64
deriving DecidableEq, Repr

/-- What the four output ports have received since hardware reset, first item first (20_memory.md R76). -/
structure OutPorts where
  /-- SAMPLE_OUT -/
  samples : List Sample
  /-- BYTE_OUT -/
  bytes : List Byte
  /-- TAG_OUT -/
  tags : List Tag
  /-- RSP_OUT -/
  rsp : List Word
deriving DecidableEq, Repr

/-- One input port: the words received and not yet executed, and its command position (10_state.md R31, R32). -/
structure InPort where
  /-- Received words, the next header first. -/
  words : List Word
  /-- pc_p, counted in words since hardware reset. -/
  pos : Nat
deriving DecidableEq, Repr

/-- THE MODEL'S OWN: an agent that has had a step since it lost contest number `since`, and has not moved (log 3). -/
structure Waiting where
  port : Port
  since : Nat
deriving DecidableEq, Repr

/-- THE MODEL'S OWN, not the spec's: what the environment will decide next, and the counters that number the free
values (logs 2, 3 and 6). -/
structure Env where
  /-- How far TIME advances before each of the next draws. -/
  advances : List Nat
  /-- How many draws of TIME have happened. -/
  draws : Nat
  /-- Which agent moves at each of the next contests. -/
  grants : List Port
  /-- How many contests have happened. -/
  contests : Nat
  /-- The agent that waits after losing its last contest. -/
  waiting : Option Waiting
  /-- How many RESET commands have made TAP unspecified. -/
  tapEpoch : Nat
deriving DecidableEq, Repr

/-- The whole machine. -/
structure State where
  /-- The implementation parameters, constant (00_scope.md R7). -/
  params : Params
  /-- ERR, ERR_CAUSE, ERR_INFO, ERR_COUNT -/
  err : ErrState
  /-- TIME -/
  time : BitVec 64
  /-- T_SNAP_HI -/
  tSnapHi : BitVec 32
  /-- The MOD unit -/
  mod : ModState
  /-- TAP -/
  tap : TapMemory
  /-- The CONV unit -/
  conv : ConvState
  /-- SAMPLE_OUT, BYTE_OUT, TAG_OUT, RSP_OUT -/
  out : OutPorts
  /-- The CMD port -/
  cmd : InPort
  /-- The MSG port -/
  msg : InPort
  /-- The model's own -/
  env : Env
deriving DecidableEq, Repr

/-! ## Reset values (10_state.md R57) -/

/-- The error state after reset, and after ERR.CLEAR (43_control.md R206). -/
def ErrState.initial : ErrState where
  err := false
  cause := 0x00#8
  info := 0x00000000#32
  count := 0#32

/-- The MOD unit after reset; `ModClear` of 40_configuration.md R121 gives the same. -/
def ModState.initial : ModState where
  cfg := false
  dbg := false
  sps := 0#16
  alpha := 0x00000000#32
  nTaps := 0#16
  inFifo := []
  byte := 0x00#8
  bits := 0#4
  act := false
  ineg := false
  qneg := false
  k := 0#16
  symcnt := 0#64

/-- The CONV unit after reset; `ConvClear` of 40_configuration.md R130 gives the same. -/
def ConvState.initial : ConvState where
  cfg := false
  dbg := false
  rate := 0#64
  tagLen := 0#8
  tagName := []
  queue := []
  curValid := false
  cur := []
  pos := 0#20
  tagOff := 0#24
  lastT := 0#64
  wcount := 0#64
  msgOk := 0#32
  dropMalformed := 0#32
  dropFull := 0#32
  dropLong := 0#32
  tagCnt := 0#32

/-- The output ports after hardware reset (70_reset_and_hazards.md R250). -/
def OutPorts.initial : OutPorts where
  samples := []
  bytes := []
  tags := []
  rsp := []

/-- An input port after hardware reset (70_reset_and_hazards.md R250). -/
def InPort.initial : InPort where
  words := []
  pos := 0

/-- The model's own fields at reset: DESIGN CHOICE (logs 2, 3 and 6). -/
def Env.initial : Env where
  advances := []
  draws := 0
  grants := []
  contests := 0
  waiting := none
  tapEpoch := 0

/-- The machine right after hardware reset (10_state.md R57; 70_reset_and_hazards.md R250), with the default
parameters of 00_scope.md R7. TAP, which the spec leaves unspecified, lists nothing: DESIGN CHOICE (log 5). -/
def State.reset : State where
  params := Params.default
  err := ErrState.initial
  time := 0#64
  tSnapHi := 0#32
  mod := ModState.initial
  tap := []
  conv := ConvState.initial
  out := OutPorts.initial
  cmd := InPort.initial
  msg := InPort.initial
  env := Env.initial

end Sys2Proof.Machine
end

