-- ==== Sys2Proof/Machine/Ops.lean ====
section
/-! DEFINITION. The named operations every meaning is built from: writing one part of the state, the tap memory, the
output ports, TIME draws, RAISING AN ERROR (60_exceptions.md R223) and ending the error condition beside it (R228), and
the resets. -/

namespace Sys2Proof.Machine

/-! ## One part of the state at a time -/

/-- Writes the error state. -/
def State.setErr (e : ErrState) (s : State) : State := { s with err := e }

/-- Writes TIME. -/
def State.setTime (t : BitVec 64) (s : State) : State := { s with time := t }

/-- Writes T_SNAP_HI. -/
def State.setSnap (w : BitVec 32) (s : State) : State := { s with tSnapHi := w }

/-- Writes the MOD unit, but for TAP. -/
def State.setMod (m : ModState) (s : State) : State := { s with mod := m }

/-- Writes TAP. -/
def State.setTap (t : TapMemory) (s : State) : State := { s with tap := t }

/-- Writes the CONV unit. -/
def State.setConv (c : ConvState) (s : State) : State := { s with conv := c }

/-- Writes the output ports. -/
def State.setOut (o : OutPorts) (s : State) : State := { s with out := o }

/-- Writes the model's own fields. -/
def State.setEnv (e : Env) (s : State) : State := { s with env := e }

/-- An input port of the machine. -/
def State.port (p : Port) (s : State) : InPort :=
  match p with
  | .cmd => s.cmd
  | .msg => s.msg

/-- Writes an input port. -/
def State.setPort (p : Port) (q : InPort) (s : State) : State :=
  match p with
  | .cmd => { s with cmd := q }
  | .msg => { s with msg := q }

/-! ## The tap memory (10_state.md R36; 20_memory.md R72) -/

/-- What an index that is not listed reads as. DESIGN CHOICE (log 5): unobservable, since no rule reads a tap that
MOD.CONFIG has not written. -/
def tapDefault : Word := 0x00000000#32

/-- The canonical form: indices strictly rising, and no word equal to what an unlisted index reads as. -/
def TapMemory.wf : TapMemory → Bool
  | [] => true
  | [(_, w)] => w != tapDefault
  | (i, w) :: (j, v) :: rest => w != tapDefault && decide (i < j) && TapMemory.wf ((j, v) :: rest)

/-- Every listed index exists: it is below N_MAX (10_state.md R36). -/
def TapMemory.below (n : Nat) (m : TapMemory) : Bool := m.all fun c => decide (c.1 < n)

/-- `MemRead((TAP, i), 4)`. -/
def tapRead : TapMemory → Nat → Word
  | [], _ => tapDefault
  | (j, w) :: rest, i => if i = j then w else tapRead rest i

/-- `MemWrite((TAP, i), 4, w)`, keeping the canonical form. -/
def tapWrite : TapMemory → Nat → Word → TapMemory
  | [], i, w => if w = tapDefault then [] else [(i, w)]
  | (j, v) :: rest, i, w =>
    if i < j then (if w = tapDefault then (j, v) :: rest else (i, w) :: (j, v) :: rest)
    else if i = j then (if w = tapDefault then rest else (i, w) :: rest)
    else (j, v) :: tapWrite rest i w

/-- Writes `ws` to TAP[i], TAP[i+1], …; every other entry keeps its word. -/
def tapWriteFrom (m : TapMemory) (i : Nat) : List Word → TapMemory
  | [] => m
  | w :: ws => tapWrite (tapWriteFrom m (i + 1) ws) i w

/-- The memory whose entries i, …, i+n-1 are those of `f`, and whose other entries are unlisted. -/
def tapFill (f : Nat → Word) : (n i : Nat) → TapMemory
  | 0, _ => []
  | n + 1, i => if f i = tapDefault then tapFill f n (i + 1) else (i, f i) :: tapFill f n (i + 1)

/-! ## The output ports (20_memory.md R76) -/

/-- `emit RSP_OUT(w)` for each word in order. -/
def emitRsp (ws : List Word) (s : State) : State := s.setOut { s.out with rsp := s.out.rsp ++ ws }

/-- `emit SAMPLE_OUT(x)` for each item in order. -/
def emitSamples (xs : List Sample) (s : State) : State := s.setOut { s.out with samples := s.out.samples ++ xs }

/-- `emit BYTE_OUT(b)` for each byte in order. -/
def emitBytes (bs : List Byte) (s : State) : State := s.setOut { s.out with bytes := s.out.bytes ++ bs }

/-- `emit TAG_OUT(t)` for each record in order. -/
def emitTags (ts : List Tag) (s : State) : State := s.setOut { s.out with tags := s.out.tags ++ ts }

/-! ## TIME (10_state.md R48) -/

/-- How far TIME advances before the next draw: as the environment says, or a free value (log 2). -/
def nextAdvance (s : State) : Nat :=
  match s.env.advances with
  | a :: _ => a
  | [] => Config.timeAdvance s.env.draws

/-- `draw_time()`: TIME advances by a free amount and is read. None when TIME would pass 2^64 - 1, which no run within
the spec does (10_state.md R48). -/
def drawTime (s : State) : Option (BitVec 64 × State) :=
  if s.time.toNat + nextAdvance s < 2 ^ 64 then
    some (BitVec.ofNat 64 (s.time.toNat + nextAdvance s),
      (s.setTime (BitVec.ofNat 64 (s.time.toNat + nextAdvance s))).setEnv
        { s.env with advances := s.env.advances.tail, draws := s.env.draws + 1 })
  else none

/-! ## Errors (60_exceptions.md R220-R228) -/

/-- The errors (60_exceptions.md R221). -/
inductive ErrorCode where
  | illegalOpcode | reservedNonzero | notConfigured | badSps | badAlpha | badRate | tagnameTooLong | badCsr
  | badTapIndex | inFifoFull
deriving DecidableEq, Repr

/-- The code ERR_CAUSE takes (60_exceptions.md R221). -/
def ErrorCode.code : ErrorCode → BitVec 8
  | .illegalOpcode => 0x01#8
  | .reservedNonzero => 0x02#8
  | .notConfigured => 0x03#8
  | .badSps => 0x04#8
  | .badAlpha => 0x05#8
  | .badRate => 0x06#8
  | .tagnameTooLong => 0x07#8
  | .badCsr => 0x08#8
  | .badTapIndex => 0x09#8
  | .inFifoFull => 0x0A#8

/-- What an error writes to the error state: the first error since the last clear is recorded, every error is counted
(60_exceptions.md R223). -/
def recordError (e : ErrorCode) (hdr : Word) (x : ErrState) : ErrState :=
  if x.err then { x with count := x.count + 1#32 }
  else { err := true, cause := e.code, info := hdr, count := x.count + 1#32 }

/-- `raise E(hdr)`, the machine's one way of taking an error (60_exceptions.md R223): the error state is written and
each of the command's RSP_OUT words is emitted as 0. Nothing else changes, and no control is transferred (R220, R227). -/
def raiseError (e : ErrorCode) (hdr : Word) (rspWords : Nat) (s : State) : State :=
  emitRsp (List.replicate rspWords 0x00000000#32) (s.setErr (recordError e hdr s.err))

/-- `raise E(hdr)` within a command (60_exceptions.md R221: ERR_INFO takes the command's header; 30_encoding.md R95: its
number of RSP_OUT words). -/
def raiseIn (e : ErrorCode) (i : Instr) (s : State) : State := raiseError e i.header i.rspWords s

/-- Ends the error condition, the counterpart of `raise` (60_exceptions.md R228; 43_control.md R206). -/
def clearErrors (s : State) : State := s.setErr ErrState.initial

/-! ## Resets -/

/-- `ModClear()` of 40_configuration.md R121: every MOD element except TAP. -/
def modClear (s : State) : State := s.setMod ModState.initial

/-- `ConvClear()` of 40_configuration.md R130. -/
def convClear (s : State) : State := s.setConv ConvState.initial

/-- TAP becomes unspecified: every entry takes a free value (43_control.md R202; log 6). -/
def tapForget (s : State) : State :=
  (s.setTap (tapFill (Config.unspecifiedTap s.env.tapEpoch) s.params.nMax 0)).setEnv
    { s.env with tapEpoch := s.env.tapEpoch + 1 }

/-- The effect of RESET: the reset value of every element of 10_state.md R57 except TIME; the output ports keep what
they have received and each input port goes on at its next word (43_control.md R202, R203; 70_reset_and_hazards.md
R251; log 8). -/
def softReset (s : State) : State :=
  ((((tapForget s).setErr ErrState.initial).setSnap 0#32).setMod ModState.initial).setConv ConvState.initial

/-- Hardware reset applied from outside to a machine with given parameters (70_reset_and_hazards.md R250; logs 5 and
18). -/
def State.hardwareReset (s : State) : State := { State.reset with params := s.params }

/-- The host presents further words on a port (10_state.md R32). -/
def State.receive (p : Port) (ws : List Word) (s : State) : State :=
  s.setPort p { s.port p with words := (s.port p).words ++ ws }

end Sys2Proof.Machine
end

