-- ==== Sys2Proof/Machine/Binary32.lean ====
section
/-! DEFINITION. binary32 words (00_scope.md R12): the real a finite word denotes, RNE32 of an exact rational, and the
multiplication P_FMUL of the pulse shaper (R7; 41_modulator.md R147; 43_control.md R209). Exact arithmetic on naturals
throughout: every finite binary32 magnitude is a multiple of 2^-149. -/

namespace Sys2Proof.Machine

/-- The sign bit [31]: true for a negative word. -/
def f32Neg (w : Word) : Bool := w.getLsbD 31

/-- The biased exponent, bits [30:23]. -/
def f32Exp (w : Word) : Nat := (w.extractLsb' 23 8).toNat

/-- The fraction, bits [22:0]. -/
def f32Frac (w : Word) : Nat := (w.extractLsb' 0 23).toNat

/-- A NaN, quiet or signalling. -/
def f32IsNaN (w : Word) : Bool := f32Exp w == 255 && f32Frac w != 0

/-- Plus or minus infinity. -/
def f32IsInf (w : Word) : Bool := f32Exp w == 255 && f32Frac w == 0

/-- Neither a NaN nor an infinity. -/
def f32IsFinite (w : Word) : Bool := f32Exp w != 255

/-- The magnitude of a finite word in units of 2^-149: |val(w)| = f32Mag w / 2^149, subnormals kept (43_control.md
R209). -/
def f32Mag (w : Word) : Nat :=
  if f32Exp w = 0 then f32Frac w else (2 ^ 23 + f32Frac w) * 2 ^ (f32Exp w - 1)

/-- `neg(w)` of 00_scope.md R12: bit 31 inverted. -/
def f32Flip (w : Word) : Word := w ^^^ 0x80000000#32

/-- The natural nearest to `n / d`, ties to even. -/
def rneDiv (n d : Nat) : Nat :=
  if 2 * (n % d) > d ∨ (2 * (n % d) = d ∧ n / d % 2 = 1) then n / d + 1 else n / d

/-- The magnitude bits [30:0] of the binary32 word nearest to the rational `num / den`, ties to even (00_scope.md R12).
With X = (num/den)·2^149, the quantum is 2^k units for k = max(0, ⌊log2 X⌋ - 23), and the word for m quanta is
k·2^23 + m, which carries into the exponent by itself. PRESUMED (log 12): a magnitude that rounds to 2^128 or more
gives infinity, as IEEE 754 has it; no rule reaches it. -/
def rne32Mag (num den : Nat) : Nat :=
  let k := (num * 2 ^ 149 / den).log2 - 23
  min (k * 2 ^ 23 + rneDiv (num * 2 ^ 149) (den * 2 ^ k)) 0x7F800000

/-- `RNE32(±num/den)` (00_scope.md R12). A magnitude that rounds to 0 keeps the sign of the exact value
(95_test_vectors.md V-G11). -/
def rne32 (neg : Bool) (num den : Nat) : Word :=
  BitVec.ofNat 32 ((if neg then 2 ^ 31 else 0) + rne32Mag num den)

/-- The word nearest to an exact 0: one of the two zeros, which 00_scope.md R12 leaves open (log 1). -/
def zeroTapWord : Word := if Config.zeroTapIsNegative then 0x80000000#32 else 0x00000000#32

/-- IEEE 754 binary32 multiplication, round to nearest, ties to even (00_scope.md R7). The sign of every product that
is not a NaN is the exclusive or of the signs (43_control.md R209). PRESUMED (log 12): what it does with a NaN or an
infinity, which never arises. -/
def fmulRne (a b : Word) : Word :=
  if f32IsNaN a || f32IsNaN b || (f32IsInf a && f32IsFinite b && f32Mag b == 0)
      || (f32IsInf b && f32IsFinite a && f32Mag a == 0) then
    Config.nanPayload a b ||| 0x7FC00000#32
  else if f32IsInf a || f32IsInf b then
    BitVec.ofBool (f32Neg a ^^ f32Neg b) ++ 0x7F800000#31
  else
    rne32 (f32Neg a ^^ f32Neg b) (f32Mag a * f32Mag b) (2 ^ 298)

/-- P_FMUL (00_scope.md R7; log 9). -/
def fmul (r : FmulRound) (a b : Word) : Word :=
  match r with
  | .rne32 => fmulRne a b
  | .other n => Config.otherFmul n a b

/-- Whether ALPHA is legal: not a NaN, and 0 < val(ALPHA) ≤ 1 (40_configuration.md R123). -/
def alphaLegal (alpha : Word) : Bool :=
  f32IsFinite alpha && !f32Neg alpha && decide (0 < f32Mag alpha) && decide (f32Mag alpha ≤ 2 ^ 149)

end Sys2Proof.Machine
end

