-- ==== Sys2Proof/Machine/Exact.lean ====
section
/-! DEFINITION. The exact reals of the tap generator: binary32 as real numbers and RNE32 of a real (00_scope.md R12), the
tap formula (40_configuration.md R125, R126), and what the spec makes of an exact tap: P_TAP_ROUND (00_scope.md R7;
40_configuration.md R127) and the test for a zero sum (R126). A real cannot be computed with, so it is held as
`Erased ℝ`, which no evaluation looks into; `TapGen` computes words and needs the reals only where its enclosures leave
a point open (log 11). -/

namespace Sys2Proof.Reference

open Sys2Proof.Machine

/-! ## binary32 (00_scope.md R12) -/

/-- `val(w)`, the real a finite word denotes. -/
noncomputable def val (w : Word) : ℝ :=
  (if w.getLsbD 31 then -1 else 1) *
    (if (w.extractLsb' 23 8).toNat = 0 then ((w.extractLsb' 0 23).toNat : ℝ) * 2 ^ (-149 : ℤ)
    else (2 ^ 23 + ((w.extractLsb' 0 23).toNat : ℝ)) * 2 ^ (((w.extractLsb' 23 8).toNat : ℤ) - 150))

/-- A finite word: its biased exponent is not 255. -/
def Finite (w : Word) : Prop := (w.extractLsb' 23 8).toNat ≠ 255

/-- `w` is RNE32(r): no finite word is nearer to r, on a tie its fraction is even, and it has the sign of r. -/
def IsRne32 (w : Word) (r : ℝ) : Prop :=
  Finite w ∧
  (∀ v : Word, Finite v → |val w - r| ≤ |val v - r|) ∧
  (∀ v : Word, Finite v → val v ≠ val w → |val v - r| = |val w - r| → (w.extractLsb' 0 23).toNat % 2 = 0) ∧
  (0 < r → w.getLsbD 31 = false) ∧ (r < 0 → w.getLsbD 31 = true)

/-! ## The tap formula (40_configuration.md R125-R127) -/

/-- `rrc(i, S, α)` with t = (i - 4S)/S, its branches selected by exact tests. -/
noncomputable def rrc (sps : ℕ) (α : ℝ) (i : ℕ) : ℝ :=
  let t : ℝ := ((i : ℝ) - 4 * sps) / sps
  if t = 0 then 1 - α + 4 * α / Real.pi
  else if |t| = 1 / (4 * α) then
    α / Real.sqrt 2 * ((1 + 2 / Real.pi) * Real.sin (Real.pi / (4 * α))
      + (1 - 2 / Real.pi) * Real.cos (Real.pi / (4 * α)))
  else
    (Real.sin (Real.pi * t * (1 - α)) + 4 * α * t * Real.cos (Real.pi * t * (1 + α)))
      / (Real.pi * t * (1 - (4 * α * t) ^ 2))

/-- Σ raw over the N = 8S+1 taps (40_configuration.md R126, G = 1). -/
noncomputable def rrcSum (sps : ℕ) (α : ℝ) : ℝ := ∑ i ∈ Finset.range (8 * sps + 1), rrc sps α i

/-- The normalised tap h_i (40_configuration.md R126). -/
noncomputable def tapValue (sps : ℕ) (α : ℝ) (i : ℕ) : ℝ := rrc sps α i / rrcSum sps α

/-- `w` is the word the default P_TAP_ROUND gives for the real `r`: RNE32(r) (00_scope.md R7, R12). Of an exact 0, to
which both zeros are nearest, it is the zero of log 1; from the overflow threshold on it is an infinity, as IEEE 754 has
it (PRESUMED, log 12; no rule reaches it). -/
def IsNearestWord (w : Word) (r : ℝ) : Prop :=
  (r = 0 → w = zeroTapWord) ∧
  (|r| < 2 ^ 128 - 2 ^ 103 → IsRne32 w r) ∧
  (2 ^ 128 - 2 ^ 103 ≤ |r| → w = if r < 0 then 0xFF800000#32 else 0x7F800000#32)

end Sys2Proof.Reference

namespace Sys2Proof.Machine

open Sys2Proof.Reference

/-- A value that a property determines, where nothing computes it: all that can be known of it is that it has the
property. The recursive equation says nothing, and evaluating it does not end (log 11). -/
def determined {β : Type} (P : β → Prop) [Nonempty (Subtype P)] : Subtype P := determined P
partial_fixpoint

/-- The exact tap at distance `d` from the centre, h_i of 40_configuration.md R126 for |i - 4S| = d. -/
def exactTap (sps : Nat) (alpha : Word) (d : Nat) : Erased ℝ := Erased.mk (tapValue sps (val alpha) (4 * sps + d))

/-- Some word has RNE32's property wherever one has. -/
theorem nearestWord_nonempty (r : ℝ) : Nonempty { w : Word // (∃ v, IsNearestWord v r) → IsNearestWord w r } := by
  by_cases h : ∃ v, IsNearestWord v r
  · exact ⟨h.choose, fun _ => h.choose_spec⟩
  · exact ⟨zeroTapWord, fun h' => absurd h' h⟩

/-- RNE32 of a real (00_scope.md R12). -/
def nearestWordOf (r : Erased ℝ) : Word :=
  (@determined Word (fun w => (∃ v, IsNearestWord v r.out) → IsNearestWord w r.out) (nearestWord_nonempty r.out)).val

/-- Every real is 0 or not. -/
theorem isZero_nonempty (r : ℝ) : Nonempty { b : Bool // b = true ↔ r = 0 } := by
  by_cases h : r = 0
  · exact ⟨true, by simp [h]⟩
  · exact ⟨false, by simp [h]⟩

/-- Whether a real is 0. -/
def realIsZero (r : Erased ℝ) : Bool :=
  (@determined Bool (fun b => b = true ↔ r.out = 0) (isZero_nonempty r.out)).val

/-- P_TAP_ROUND of an exact tap (00_scope.md R7; 40_configuration.md R127): a function of the real alone, so that equal
exact taps give equal words. -/
def tapRound (r : TapRound) (h : Erased ℝ) : Word :=
  match r with
  | .rne32 => nearestWordOf h
  | .other n => Config.otherTapRound n h

end Sys2Proof.Machine
end

