-- ==== Sys2Proof/Machine/TapGen.lean ====
section
/-! DEFINITION. The tap generator (40_configuration.md R124-R128): the exact tap h_i = raw[i] / Σ raw, raw the closed
form `rrc` of R125, rounded by P_TAP_ROUND.

The exact real is never approximated by a chosen number. Each real is held as an ENCLOSURE, two integers lo and hi with
lo ≤ x·2^p ≤ hi, every operation rounding outward; a tap word is stored only when both ends of its enclosure round to
that same word, and a finer precision p is tried otherwise. Every raw value is computed as π·rrc: a common factor of
all raw values cancels in raw[i] / Σ raw (DEDUCED, log 10). -/

namespace Sys2Proof.Machine

open Sys2Proof.Reference

/-- The reals x with lo ≤ x·2^p ≤ hi, for the precision p in use. -/
structure Enclosure where
  lo : Int
  hi : Int
deriving DecidableEq, Repr

/-- The smallest integer not below `n / d`, for `d > 0`. -/
def ceilDiv (n : Int) (d : Nat) : Int := -(-n / (d : Int))

/-- The enclosure of `n / d`. -/
def encRat (p : Nat) (n : Int) (d : Nat) : Enclosure := ⟨n * 2 ^ p / (d : Int), ceilDiv (n * 2 ^ p) d⟩

/-- x + y. -/
def encAdd (x y : Enclosure) : Enclosure := ⟨x.lo + y.lo, x.hi + y.hi⟩

/-- x - y. -/
def encSub (x y : Enclosure) : Enclosure := ⟨x.lo - y.hi, x.hi - y.lo⟩

/-- -x. -/
def encNeg (x : Enclosure) : Enclosure := ⟨-x.hi, -x.lo⟩

/-- x·(n/d), for `d > 0`. -/
def encScale (x : Enclosure) (n : Int) (d : Nat) : Enclosure :=
  if 0 ≤ n then ⟨x.lo * n / (d : Int), ceilDiv (x.hi * n) d⟩
  else ⟨x.hi * n / (d : Int), ceilDiv (x.lo * n) d⟩

/-- c·x, for an enclosure `c` of a real that is not negative (`0 ≤ c.lo`). -/
def encMulPos (p : Nat) (c x : Enclosure) : Enclosure :=
  ⟨(if 0 ≤ x.lo then c.lo * x.lo else c.hi * x.lo) / 2 ^ p,
    ceilDiv (if 0 ≤ x.hi then c.hi * x.hi else c.lo * x.hi) (2 ^ p)⟩

/-- arctan(1/m) from its alternating series, the sum of (-1)^j / (i·m^i) over i, i+2, i+4, …; `mi` is m^i. What follows
the last term used lies between 0 and the next term. -/
def encArctanInv (p m : Nat) : (fuel i mi : Nat) → Enclosure
  | 0, i, mi => ⟨0, ceilDiv (2 ^ p) (i * mi)⟩
  | fuel + 1, i, mi => encSub (encRat p 1 (i * mi)) (encArctanInv p m fuel (i + 2) (mi * (m * m)))

/-- π by Machin's formula, 16·arctan(1/5) - 4·arctan(1/239). -/
def encPi (p : Nat) : Enclosure :=
  encSub (encScale (encArctanInv p 5 (p / 4) 1 5) 16 1) (encScale (encArctanInv p 239 (p / 15 + 1) 1 239) 4 1)

/-- The alternating sum t - t·x²/((j+1)(j+2)) + …, each term the one before times x² over the next two integers, for
0 ≤ x ≤ 1: from t = x, j = 1 it is sin x, and from t = 1, j = 0 it is cos x. What follows the last term used lies
between 0 and the next term. -/
def encAlternating (p : Nat) (xx : Enclosure) : (fuel j : Nat) → (t : Enclosure) → Enclosure
  | 0, _, t => ⟨0, t.hi⟩
  | fuel + 1, j, t =>
    if t.hi ≤ 1 then ⟨0, t.hi⟩
    else encSub t (encAlternating p xx fuel (j + 2) (encScale (encMulPos p t xx) 1 ((j + 1) * (j + 2))))

/-- sin(π·m/d) for 0 ≤ m/d ≤ 1/2: the sine series up to π/4, the cosine series of the complement above it. -/
def encSinQuarter (p : Nat) (pi : Enclosure) (m d : Nat) : Enclosure :=
  if 4 * m ≤ d then
    let x := encScale pi m d
    encAlternating p (encMulPos p x x) (p / 8 + 8) 1 x
  else
    let x := encScale pi (d - 2 * m : Nat) (2 * d)
    encAlternating p (encMulPos p x x) (p / 8 + 8) 0 ⟨2 ^ p, 2 ^ p⟩

/-- sin(π·m/d) for 0 ≤ m/d ≤ 1. -/
def encSinHalf (p : Nat) (pi : Enclosure) (m d : Nat) : Enclosure :=
  if 2 * m ≤ d then encSinQuarter p pi m d else encSinQuarter p pi (d - m) d

/-- sin(π·n/d), the argument reduced exactly modulo 2π. -/
def encSinPi (p : Nat) (pi : Enclosure) (n d : Nat) : Enclosure :=
  let m := n % (2 * d)
  if d ≤ m then encNeg (encSinHalf p pi (m - d) d) else encSinHalf p pi m d

/-- cos(π·n/d) = sin(π·n/d + π/2). -/
def encCosPi (p : Nat) (pi : Enclosure) (n d : Nat) : Enclosure := encSinPi p pi (2 * n + d) (2 * d)

/-- π·rrc(i, S, α) for |i - 4S| = d and α = an/2^149, the three branches of 40_configuration.md R125 selected by exact
tests, with t = d/S (each branch is even in t). -/
def encRawTap (p : Nat) (pi : Enclosure) (sps an d : Nat) : Enclosure :=
  let one := 2 ^ 149
  let dd := sps * one
  let q := 4 * an * d
  if d = 0 then
    encAdd (encScale pi (one - an : Nat) one) (encRat p (4 * an : Nat) one)
  else if q = dd then
    let two : Enclosure := ⟨2 * 2 ^ p, 2 * 2 ^ p⟩
    let s := encMulPos p (encAdd pi two) (encSinPi p pi one (4 * an))
    let c := encMulPos p (encSub pi two) (encCosPi p pi one (4 * an))
    encScale (encMulPos p (encSinPi p pi 1 4) (encAdd s c)) an one
  else
    let s := encSinPi p pi (d * (one - an)) dd
    let c := encCosPi p pi (d * (one + an)) dd
    let num := encAdd s (encScale c q dd)
    if q < dd then encScale num (sps * (dd * dd) : Nat) (d * (dd * dd - q * q))
    else encScale num (-(sps * (dd * dd) : Nat)) (d * (q * q - dd * dd))

/-- The exact sum Σ raw over all N = 8S+1 taps, from the raw values at distances 0, 1, …, 4S from the centre. -/
def encSum : List Enclosure → Enclosure
  | [] => ⟨0, 0⟩
  | r :: rs => rs.foldl (fun acc x => encAdd acc (encAdd x x)) r

/-- RNE32 of `n / d`, for `d > 0`. -/
def rneRatio (n d : Int) : Word := rne32 (decide (n < 0)) n.natAbs d.natAbs

/-- RNE32 of the tap raw/sum, for `0 < sum.lo`, if this enclosure settles it: a raw value of exactly 0 has the zero
word, and one that may be 0 or not is left open. -/
def nearestTap (sum raw : Enclosure) : Option Word :=
  if raw.lo = 0 ∧ raw.hi = 0 then some zeroTapWord
  else if raw.lo ≤ 0 ∧ 0 ≤ raw.hi then none
  else
    let a := rneRatio raw.lo (if 0 ≤ raw.lo then sum.hi else sum.lo)
    let b := rneRatio raw.hi (if 0 ≤ raw.hi then sum.lo else sum.hi)
    if a = b then some a else none

/-- What one precision tells of a tap set. -/
inductive TapAttempt where
  /-- The exact sum of the raw values is 0 (40_configuration.md R126). -/
  | zeroSum
  /-- The sign of the sum is not settled. -/
  | undecided
  /-- The words at distances 0, 1, …, 4S from the centre, as far as they are settled. -/
  | words (ws : List (Option Word))
deriving DecidableEq, Repr

/-- The attempt on given raw values. -/
def tapAttemptOf (raws : List Enclosure) : TapAttempt :=
  let sum := encSum raws
  if 0 < sum.lo then .words (raws.map (nearestTap sum))
  else if sum.hi < 0 then .words (raws.map fun r => nearestTap (encNeg sum) (encNeg r))
  else if sum.lo = 0 ∧ sum.hi = 0 then .zeroSum
  else .undecided

/-- The attempt at precision p for α = an/2^149. -/
def tapAttempt (p sps an : Nat) : TapAttempt :=
  let pi := encPi p
  tapAttemptOf ((List.range (4 * sps + 1)).map (encRawTap p pi sps an))

/-- Fills the words one attempt left open from a finer one. -/
def mergeWords : List (Option Word) → List (Option Word) → List (Option Word)
  | [], new => new
  | old, [] => old
  | some w :: old, _ :: new => some w :: mergeWords old new
  | none :: old, v :: new => v :: mergeWords old new

/-- Tries finer and finer precisions until every word is settled. -/
def searchTaps (sps an : Nat) : (ps : List Nat) → (best : TapAttempt) → TapAttempt
  | [], best => best
  | p :: ps, best =>
    match tapAttempt p sps an with
    | .zeroSum => .zeroSum
    | .undecided => searchTaps sps an ps best
    | .words ws =>
      match best with
      | .words old =>
        if (mergeWords old ws).all Option.isSome then .words (mergeWords old ws)
        else searchTaps sps an ps (.words (mergeWords old ws))
      | .zeroSum => if ws.all Option.isSome then .words ws else searchTaps sps an ps (.words ws)
      | .undecided => if ws.all Option.isSome then .words ws else searchTaps sps an ps (.words ws)

/-- The precisions tried, in bits. -/
def tapPrecisions : List Nat := [96, 320, 1280]

/-- All that the exact arithmetic tells of the tap set of (S, ALPHA). -/
def tapFindings (sps : Nat) (alpha : Word) : TapAttempt :=
  searchTaps sps (f32Mag alpha) tapPrecisions .undecided

/-- The words found at distances 0, 1, …, 4S from the centre, as far as they are settled; none when the exact sum is 0
(40_configuration.md R126). A sum whose sign is not settled is tested as the real it is (log 11). -/
def settledWords (sps : Nat) (alpha : Word) : Option (List (Option Word)) :=
  match tapFindings sps alpha with
  | .zeroSum => none
  | .words ws => some ws
  | .undecided =>
    if realIsZero (Erased.mk (rrcSum sps (val alpha))) then none else some (List.replicate (4 * sps + 1) none)

/-- The words at distances d, d+1, …: one left open is RNE32 of the exact tap (40_configuration.md R127; log 11). -/
def fillOpen (sps : Nat) (alpha : Word) : (d : Nat) → List (Option Word) → List Word
  | _, [] => []
  | d, w :: ws => w.getD (nearestWordOf (exactTap sps alpha d)) :: fillOpen sps alpha (d + 1) ws

/-- The stored words at distances 0, 1, …, 4S from the centre, P_TAP_ROUND of the exact taps (40_configuration.md R127),
or none when the exact sum is 0 (R126). -/
def halfTaps (r : TapRound) (sps : Nat) (alpha : Word) : Option (List Word) :=
  (settledWords sps alpha).map fun ws =>
    match r with
    | .rne32 => fillOpen sps alpha 0 ws
    | .other n => (List.range (4 * sps + 1)).map fun d => tapRound (.other n) (exactTap sps alpha d)

/-- The tap set TAP[0 .. 8S] of (S, ALPHA), symmetric about TAP[4S] (40_configuration.md R124-R128); none when the exact
sum of the raw values is 0. -/
def tapSet (r : TapRound) (sps : Nat) (alpha : Word) : Option (List Word) :=
  (halfTaps r sps alpha).map fun half => half.reverse ++ half.tail

end Sys2Proof.Machine
end

