-- ==== Sys2Proof/Machine/Configuration.lean ====
section
/-! DEFINITION. The configuration commands MOD.CONFIG and CONV.CONFIG (40_configuration.md R121-R133). -/

namespace Sys2Proof.Machine

/-- The modulator just constructed (40_configuration.md R121): configured, its stream state clear. -/
def constructedMod (dbg : Bool) (sps : BitVec 16) (alpha : Word) : ModState :=
  { ModState.initial with
    cfg := true
    dbg := dbg
    sps := sps
    alpha := alpha
    nTaps := BitVec.ofNat 16 (8 * sps.toNat + 1) }

/-- MOD.CONFIG (40_configuration.md R121-R127, R133). -/
def execModConfig (dbg : Bool) (reserved : BitVec 7) (sps : BitVec 16) (alpha : Word) (s : State) :
    Host.Outcome State Fault Refusal :=
  let i := Instr.modConfig dbg reserved sps alpha
  if reserved ≠ 0#7 then .next (raiseIn .reservedNonzero i s)
  else if sps = 0#16 ∨ s.params.spsMax < sps.toNat then .next (raiseIn .badSps i (modClear s))
  else if alphaLegal alpha = false then .next (raiseIn .badAlpha i (modClear s))
  else
    match tapSet s.params.tapRound sps.toNat alpha with
    | none => .next (raiseIn .badAlpha i (modClear s))
    | some taps => .next ((s.setTap (tapWriteFrom s.tap 0 taps)).setMod (constructedMod dbg sps alpha))

/-- The converter just constructed at time `t` (40_configuration.md R130, R131). -/
def constructedConv (dbg : Bool) (rate : BitVec 64) (tagLen : BitVec 8) (tagName : List Byte) (t : BitVec 64) :
    ConvState :=
  { ConvState.initial with
    cfg := true
    dbg := dbg
    rate := rate
    tagLen := tagLen
    tagName := tagName
    lastT := t }

/-- CONV.CONFIG (40_configuration.md R130-R133). -/
def execConvConfig (dbg : Bool) (reserved : BitVec 15) (len : BitVec 8) (rateLo rateHi : Word) (name : List Word)
    (s : State) : Host.Outcome State Fault Refusal :=
  let i := Instr.convConfig dbg reserved len rateLo rateHi name
  if reserved ≠ 0#15 then .next (raiseIn .reservedNonzero i s)
  else if rateOf rateLo rateHi = 0#64 then .next (raiseIn .badRate i (convClear s))
  else if s.params.tagNameMax < len.toNat then .next (raiseIn .tagnameTooLong i (convClear s))
  else
    match drawTime s with
    | some (t, s1) =>
      .next (s1.setConv (constructedConv dbg (rateOf rateLo rateHi) len (unpackBytes len.toNat name) t))
    | none => .refused .timeWouldWrap

end Sys2Proof.Machine
end

