-- ==== Sys2Proof/Machine/Flags.lean ====
section
/-! DEFINITION. The flags of OQPSK-PS: the STATUS bits and the other assembled CSR views (10_state.md R51, R53, R54;
PARAM_FLAGS of R52). Every flag is a view of a state element; none is stored. -/

namespace Sys2Proof.Machine

/-- INFULL: IN_FIFO holds P_IN_DEPTH bytes (10_state.md R53). -/
def inFull (s : State) : Bool := s.mod.inFifo.length == s.params.inDepth

/-- QFULL: C_Q holds P_Q_DEPTH PDUs (10_state.md R53). -/
def queueFull (s : State) : Bool := s.conv.queue.length == s.params.qDepth

/-- STATUS (10_state.md R53), bit 8 down to bit 0; bits [31:9] read as 0. -/
def statusWord (s : State) : Word :=
  0#23 ++ BitVec.ofBool (queueFull s) ++ BitVec.ofBool (inFull s) ++ BitVec.ofBool s.conv.dbg
    ++ BitVec.ofBool s.mod.dbg ++ BitVec.ofBool s.conv.curValid ++ BitVec.ofBool s.mod.act
    ++ BitVec.ofBool s.err.err ++ BitVec.ofBool s.conv.cfg ++ BitVec.ofBool s.mod.cfg

/-- M_CURSOR (10_state.md R54); bit 15 reads as 0. -/
def cursorWord (m : ModState) : Word :=
  m.k ++ 0#1 ++ BitVec.ofBool m.qneg ++ BitVec.ofBool m.ineg ++ BitVec.ofBool m.act ++ m.bits ++ m.byte

/-- PARAM_FLAGS (10_state.md R52): bit 0 is 1 when P_PACE_ROUND = FLOOR. -/
def paramFlags (p : Params) : Word :=
  match p.paceRound with
  | .nearest => 0#32
  | .floor => 1#32

end Sys2Proof.Machine
end

