-- ==== Sys2Proof/Machine/Csr.lean ====
section
/-! DEFINITION. The CSR space (10_state.md R52, R55): what each defined index reads as. -/

namespace Sys2Proof.Machine

/-- `MemRead((CSR, idx), 4)` for every defined index but TIME_LO (0x1B), which draws TIME and is read by CSR.READ itself
(10_state.md R56); none for an undefined index. -/
def csrValue (s : State) (idx : BitVec 8) : Option Word :=
  match idx.toNat with
  | 0x00 => some s.params.id
  | 0x01 => some (statusWord s)
  | 0x02 => some (s.err.cause.setWidth 32)
  | 0x03 => some s.err.info
  | 0x04 => some s.err.count
  | 0x08 => some (s.mod.sps.setWidth 32)
  | 0x09 => some s.mod.alpha
  | 0x0A => some (s.mod.nTaps.setWidth 32)
  | 0x0B => some (BitVec.ofNat 32 s.mod.inFifo.length)
  | 0x0C => some (cursorWord s.mod)
  | 0x0D => some (loWord s.mod.symcnt)
  | 0x0E => some (hiWord s.mod.symcnt)
  | 0x10 => some (loWord s.conv.rate)
  | 0x11 => some (hiWord s.conv.rate)
  | 0x12 => some (s.conv.tagLen.setWidth 32)
  | 0x13 => some (BitVec.ofNat 32 s.conv.queue.length)
  | 0x14 => some (if s.conv.curValid then BitVec.ofNat 32 s.conv.cur.length else 0#32)
  | 0x15 => some (s.conv.pos.setWidth 32)
  | 0x16 => some (s.conv.tagOff.setWidth 32)
  | 0x17 => some (loWord s.conv.wcount)
  | 0x18 => some (hiWord s.conv.wcount)
  | 0x19 => some (loWord s.conv.lastT)
  | 0x1A => some (hiWord s.conv.lastT)
  | 0x1C => some s.tSnapHi
  | 0x20 => some s.conv.msgOk
  | 0x21 => some s.conv.dropMalformed
  | 0x22 => some s.conv.dropFull
  | 0x23 => some s.conv.dropLong
  | 0x24 => some s.conv.tagCnt
  | 0x28 => some (BitVec.ofNat 32 s.params.spsMax)
  | 0x29 => some (BitVec.ofNat 32 s.params.inDepth)
  | 0x2A => some (BitVec.ofNat 32 s.params.qDepth)
  | 0x2B => some (BitVec.ofNat 32 s.params.pduMax)
  | 0x2C => some (BitVec.ofNat 32 s.params.tagNameMax)
  | 0x2D => some (loWord (BitVec.ofNat 64 s.params.fTick))
  | 0x2E => some (hiWord (BitVec.ofNat 64 s.params.fTick))
  | 0x2F => some (paramFlags s.params)
  | _ => none

/-- The index of TIME_LO. -/
def csrTimeLo : BitVec 8 := 0x1B#8

end Sys2Proof.Machine
end

