-- ==== Sys2Proof/Machine/Control.lean ====
section
/-! DEFINITION. The control commands NOP, RESET, CSR.READ and ERR.CLEAR (43_control.md R200-R207). -/

namespace Sys2Proof.Machine

/-- NOP (43_control.md R200). -/
def execNop (s : State) : Host.Outcome State Fault Refusal := .next s

/-- RESET (43_control.md R202, R203). -/
def execReset (reserved : BitVec 24) (s : State) : Host.Outcome State Fault Refusal :=
  if reserved ≠ 0#24 then .next (raiseIn .reservedNonzero (.reset reserved) s)
  else .next (softReset s)

/-- CSR.READ (43_control.md R204). A read of TIME_LO draws TIME and latches its upper half in T_SNAP_HI (10_state.md
R56). -/
def execCsrRead (reserved : BitVec 16) (idx : BitVec 8) (s : State) : Host.Outcome State Fault Refusal :=
  if reserved ≠ 0#16 then .next (raiseIn .reservedNonzero (.csrRead reserved idx) s)
  else if idx = csrTimeLo then
    match drawTime s with
    | some (t, s1) => .next (emitRsp [loWord t] (s1.setSnap (hiWord t)))
    | none => .refused .timeWouldWrap
  else
    match csrValue s idx with
    | some v => .next (emitRsp [v] s)
    | none => .next (raiseIn .badCsr (.csrRead reserved idx) s)

/-- ERR.CLEAR (43_control.md R206). -/
def execErrClear (reserved : BitVec 24) (s : State) : Host.Outcome State Fault Refusal :=
  if reserved ≠ 0#24 then .next (raiseIn .reservedNonzero (.errClear reserved) s)
  else .next (clearErrors s)

end Sys2Proof.Machine
end

