-- ==== Sys2Proof/Machine/Converter.lean ====
section
/-! DEFINITION. The converter: the PDU queue, the pacing clock, the stream emitter, and the commands MSG.DELIVER and
CONV.REQUEST (42_converter.md R170-R197). -/

namespace Sys2Proof.Machine

/-- What MSG.DELIVER makes of the CONV unit (42_converter.md R171-R175): a malformed, too long or queue-full message is
dropped and counted, any other is appended to C_Q. -/
def deliverTo (p : Params) (kind : BitVec 4) (len : Nat) (bytes : List Byte) (c : ConvState) : ConvState :=
  if kind ≠ 0#4 then { c with dropMalformed := c.dropMalformed + 1#32 }
  else if p.pduMax < len then { c with dropLong := c.dropLong + 1#32 }
  else if c.queue.length = p.qDepth then { c with dropFull := c.dropFull + 1#32 }
  else { c with queue := c.queue ++ [bytes], msgOk := c.msgOk + 1#32 }

/-- MSG.DELIVER (42_converter.md R171). -/
def execMsgDeliver (kind : BitVec 4) (len : BitVec 20) (payload : List Word) (s : State) :
    Host.Outcome State Fault Refusal :=
  if s.conv.cfg = false then .next (raiseIn .notConfigured (.msgDeliver kind len payload) s)
  else .next (s.setConv (deliverTo s.params kind len.toNat (unpackBytes len.toNat payload) s.conv))

/-! ## The pacing clock (42_converter.md R177-R180) -/

/-- Braw: the items due after `delta` ticks, exact and then rounded by P_PACE_ROUND, in the integer form of
42_converter.md R179. -/
def itemsDue (p : Params) (delta : Nat) (rate : BitVec 64) : Nat :=
  match p.paceRound with
  | .nearest => (2 * delta * rate.toNat + p.fTick * 2 ^ 32) / (p.fTick * 2 ^ 33)
  | .floor => delta * rate.toNat / (p.fTick * 2 ^ 32)

/-- The budget B = min(Braw, N) of a request at time `t1` (42_converter.md R177, R180). The elapsed time is not negative
by 10_state.md R48. -/
def budget (p : Params) (c : ConvState) (t1 : BitVec 64) (n : BitVec 24) : Nat :=
  min (itemsDue p (t1.toNat - c.lastT.toNat) c.rate) n.toNat

/-! ## The emitter (42_converter.md R181-R187) -/

/-- Step 2a: an exhausted current PDU is cleared (42_converter.md R181). -/
def clearExhausted (c : ConvState) : ConvState :=
  if c.curValid = true ∧ c.pos.toNat = c.cur.length then { c with curValid := false, cur := [], pos := 0#20 } else c

/-- Step 2b: with no current PDU, the front PDU becomes current and `produced` is recorded (42_converter.md R182). -/
def popPdu (produced : Nat) (c : ConvState) : ConvState :=
  if c.curValid then c
  else
    match c.queue with
    | [] => c
    | pdu :: rest =>
      { c with queue := rest, cur := pdu, curValid := true, pos := 0#20, tagOff := BitVec.ofNat 24 produced }

/-- Step 2c: how many bytes of the current PDU this pass emits, `left` bytes of the budget remaining (42_converter.md
R183). -/
def chunkOf (left : Nat) (c : ConvState) : Nat :=
  if c.curValid then min left (c.cur.length - c.pos.toNat) else 0

/-- The tag of the current PDU (42_converter.md R184). -/
def tagOfCurrent (base : BitVec 64) (c : ConvState) : Tag where
  offset := base + c.tagOff.setWidth 64
  key := c.tagName
  value := BitVec.ofNat 64 c.cur.length

/-- What the loop of a request leaves: the unit, the bytes and the tags emitted, first one first. -/
structure DrainResult where
  conv : ConvState
  bytes : List Byte
  tags : List Tag
deriving DecidableEq, Repr

/-- The loop of CONV.REQUEST, `produced` bytes of the budget `b` emitted so far (42_converter.md R176, steps 2a-2d). Each
pass emits at least one byte, so that `b` passes are enough. -/
def drain (base : BitVec 64) (b : Nat) : (fuel produced : Nat) → ConvState → DrainResult
  | 0, _, c => ⟨c, [], []⟩
  | fuel + 1, produced, c =>
    if produced < b then
      let c1 := popPdu produced (clearExhausted c)
      let chunk := chunkOf (b - produced) c1
      if 0 < chunk then
        let first := c1.pos == 0#20
        let r := drain base b fuel (produced + chunk)
          { c1 with
            pos := c1.pos + BitVec.ofNat 20 chunk
            tagCnt := if first then c1.tagCnt + 1#32 else c1.tagCnt }
        ⟨r.conv, (c1.cur.drop c1.pos.toNat).take chunk ++ r.bytes,
          (if first then [tagOfCurrent base c1] else []) ++ r.tags⟩
      else ⟨c1, List.replicate (b - produced) padByte, []⟩
    else ⟨c, [], []⟩

/-- CONV.REQUEST (42_converter.md R176, R188, R189): the pacing clock, the emitter, and the new timestamp from a second
draw. -/
def execConvRequest (n : BitVec 24) (s : State) : Host.Outcome State Fault Refusal :=
  if s.conv.cfg = false then .next (raiseIn .notConfigured (.convRequest n) s)
  else
    match drawTime s with
    | none => .refused .timeWouldWrap
    | some (t1, s1) =>
      let b := budget s.params s.conv t1 n
      let r := drain s.conv.wcount b b 0 s.conv
      match drawTime s1 with
      | none => .refused .timeWouldWrap
      | some (t2, s2) =>
        .next (emitRsp [BitVec.ofNat 32 r.bytes.length] (emitTags r.tags (emitBytes r.bytes
          (s2.setConv { r.conv with
            wcount := s.conv.wcount + BitVec.ofNat 64 r.bytes.length
            lastT := t2 }))))

end Sys2Proof.Machine
end

