-- ==== Sys2Proof/Machine/Modulator.lean ====
section
/-! DEFINITION. The modulator: the symbol mapper, the pulse shaper and the commands MOD.FEED, MOD.REQUEST and TAP.READ
(41_modulator.md R140-R160). -/

namespace Sys2Proof.Machine

/-- The symbol mapper: (INEG, QNEG) of a 2-bit value (41_modulator.md R141; the table, not a Gray code, R142). -/
def mapSymbol (v : BitVec 2) : Bool × Bool :=
  match v.toNat with
  | 0 => (false, false)
  | 1 => (true, false)
  | 2 => (true, true)
  | _ => (false, true)

/-- The amplitude word of a sign (41_modulator.md R141). -/
def amplitude (neg : Bool) : Word := if neg then ampNeg else ampPos

/-- H = floor(M_S/2), the quadrature offset (00_scope.md R14). -/
def quadOffset (m : ModState) : Nat := m.sps.toNat / 2

/-- `Sample(k)` of the symbol in progress at k = M_K (41_modulator.md R147). -/
def sampleNow (p : Params) (tap : TapMemory) (m : ModState) : Sample :=
  sampleOf (fmul p.fmul (amplitude m.ineg) (tapRead tap m.k.toNat))
    (if m.k.toNat + quadOffset m < m.nTaps.toNat then
      fmul p.fmul (amplitude m.qneg) (tapRead tap (m.k.toNat + quadOffset m))
    else 0x00000000#32)

/-- The next pair of unconsumed bits, M_BYTE[M_BITS-1 : M_BITS-2] (10_state.md R38). -/
def nextPair (m : ModState) : BitVec 2 := (m.byte >>> (m.bits.toNat - 2)).setWidth 2

/-- Maps the next pair of the current byte and starts its symbol (41_modulator.md R145, R146). -/
def mapNext (m : ModState) : ModState :=
  { m with
    bits := m.bits - 2#4
    ineg := (mapSymbol (nextPair m)).1
    qneg := (mapSymbol (nextPair m)).2
    act := true
    k := 0#16 }

/-- Makes sure a symbol is in progress, and says how many bytes that pulled; none when the input is exhausted
(41_modulator.md R145, R146, R150). -/
def ensureSymbol (m : ModState) : Option (ModState × Nat) :=
  if m.act then some (m, 0)
  else if m.bits = 0#4 then
    match m.inFifo with
    | [] => none
    | b :: rest => some (mapNext { m with inFifo := rest, byte := b, bits := 8#4 }, 1)
  else some (mapNext m, 0)

/-- Moves past the sample just emitted: the symbol is complete at k + 1 = S (41_modulator.md R145, R151, R153). -/
def advanceSample (m : ModState) : ModState :=
  if m.k.toNat + 1 = m.sps.toNat then { m with act := false, k := 0#16, symcnt := m.symcnt + 1#64 }
  else { m with k := m.k + 1#16 }

/-- What the loop of a request leaves: the unit, the samples emitted, first one first, and the bytes pulled. -/
structure FillResult where
  mod : ModState
  samples : List Sample
  consumed : Nat
deriving DecidableEq, Repr

/-- The loop of MOD.REQUEST for up to `n` more samples (41_modulator.md R145). -/
def fillSamples (p : Params) (tap : TapMemory) : (n : Nat) → ModState → FillResult
  | 0, m => ⟨m, [], 0⟩
  | n + 1, m =>
    match ensureSymbol m with
    | none => ⟨m, [], 0⟩
    | some (m1, pulled) =>
      let r := fillSamples p tap n (advanceSample m1)
      ⟨r.mod, sampleNow p tap m1 :: r.samples, pulled + r.consumed⟩

/-- MOD.FEED (41_modulator.md R143). -/
def execModFeed (reserved : BitVec 16) (byte : Byte) (s : State) : Host.Outcome State Fault Refusal :=
  let i := Instr.modFeed reserved byte
  if reserved ≠ 0#16 then .next (raiseIn .reservedNonzero i s)
  else if s.mod.cfg = false then .next (raiseIn .notConfigured i s)
  else if s.mod.inFifo.length = s.params.inDepth then .next (raiseIn .inFifoFull i s)
  else .next (s.setMod { s.mod with inFifo := s.mod.inFifo ++ [byte] })

/-- MOD.REQUEST (41_modulator.md R145). -/
def execModRequest (n : BitVec 24) (s : State) : Host.Outcome State Fault Refusal :=
  if s.mod.cfg = false then .next (raiseIn .notConfigured (.modRequest n) s)
  else
    let r := fillSamples s.params s.tap n.toNat s.mod
    .next (emitRsp [BitVec.ofNat 32 r.samples.length, BitVec.ofNat 32 r.consumed]
      (emitSamples r.samples (s.setMod r.mod)))

/-- TAP.READ (41_modulator.md R160). -/
def execTapRead (reserved : BitVec 8) (i : BitVec 16) (s : State) : Host.Outcome State Fault Refusal :=
  let c := Instr.tapRead reserved i
  if reserved ≠ 0#8 then .next (raiseIn .reservedNonzero c s)
  else if s.mod.cfg = false then .next (raiseIn .notConfigured c s)
  else if s.mod.nTaps.toNat ≤ i.toNat then .next (raiseIn .badTapIndex c s)
  else .next (emitRsp [tapRead s.tap i.toNat] s)

end Sys2Proof.Machine
end

