-- ==== Sys2Proof/Machine/Dispatch.lean ====
section
/-! DEFINITION. The meaning of each command, one arm per constructor of `Instr`. -/

namespace Sys2Proof.Machine

def exec (i : Instr) (s : State) : Host.Outcome State Fault Refusal :=
  match i with
  | .nop _ => Sys2Proof.Machine.execNop s
  | .reset reserved => Sys2Proof.Machine.execReset reserved s
  | .csrRead reserved idx => Sys2Proof.Machine.execCsrRead reserved idx s
  | .errClear reserved => Sys2Proof.Machine.execErrClear reserved s
  | .modConfig dbg reserved sps alpha => Sys2Proof.Machine.execModConfig dbg reserved sps alpha s
  | .modFeed reserved byte => Sys2Proof.Machine.execModFeed reserved byte s
  | .modRequest n => Sys2Proof.Machine.execModRequest n s
  | .tapRead reserved idx => Sys2Proof.Machine.execTapRead reserved idx s
  | .convConfig dbg reserved len rateLo rateHi name => Sys2Proof.Machine.execConvConfig dbg reserved len rateLo rateHi name s
  | .msgDeliver kind len payload => Sys2Proof.Machine.execMsgDeliver kind len payload s
  | .convRequest n => Sys2Proof.Machine.execConvRequest n s

end Sys2Proof.Machine
end

