-- ==== Sys2Proof/Machine/Fetch.lean ====
section
/-! DEFINITION. How the next command is found: which agent moves (10_state.md R32; 20_memory.md R78, R79), and what it
takes from its port (10_state.md R31; 30_encoding.md R93, R99). -/

namespace Sys2Proof.Machine

/-- Whether a port's agent has a step: a command, or an illegal header, is fully received (20_memory.md R75). -/
def portReady (p : Port) (s : State) : Bool :=
  match decode p (s.port p).words with
  | .command _ _ => true
  | .illegal _ _ => true
  | .incomplete => false

/-- The other port, and so the other agent. -/
def otherPort : Port → Port
  | .cmd => .msg
  | .msg => .cmd

/-- The arbiter's grant of contest number `n`: the agent it picks, unless the one that waits has lost as many contests
in a row as its patience allows (20_memory.md R79; log 3). -/
def grantBy (picksMsg : Nat → Bool) (patience : Nat → Nat) (waiting : Option Waiting) (n : Nat) : Port :=
  let picked := if picksMsg n then .msg else .cmd
  match waiting with
  | none => picked
  | some w => if patience w.since < n - w.since then w.port else picked

/-- Which agent moves when both have a step: as the environment says, or, its list used up, as the arbiter grants
(20_memory.md R79; log 3). -/
def nextGrant (s : State) : Port :=
  match s.env.grants with
  | p :: _ => p
  | [] => grantBy Config.arbiterPicksMsg Config.arbiterPatience s.env.waiting s.env.contests

/-- Who waits once `winner` has won contest number `n`: the loser, from the first of the contests it lost in a row. -/
def waitingAfter (winner : Port) (n : Nat) : Option Waiting → Option Waiting
  | none => some { port := otherPort winner, since := n }
  | some w => if w.port = winner then some { port := otherPort winner, since := n } else some w

/-- The state once a contest between the agents is decided. -/
def afterContest (s : State) : State :=
  s.setEnv { s.env with
    grants := s.env.grants.tail
    contests := s.env.contests + 1
    waiting := waitingAfter (nextGrant s) s.env.contests s.env.waiting }

/-- The state once an agent moves alone: no agent waits, since the other one has no step. -/
def afterLoneMove (s : State) : State := s.setEnv { s.env with waiting := none }

/-- The agent that moves, or none when neither has a step. -/
def choosePort (s : State) : Option (Port × State) :=
  match portReady .cmd s, portReady .msg s with
  | true, true => some (nextGrant s, afterContest s)
  | true, false => some (.cmd, afterLoneMove s)
  | false, true => some (.msg, afterLoneMove s)
  | false, false => none

/-- Takes the command at the front of a port: what is left of its words, and pc_p advanced by the command's length
(10_state.md R31; 30_encoding.md R93). -/
def consume (p : Port) (rest : List Word) (s : State) : State :=
  s.setPort p
    { words := rest, pos := (s.port p).pos + commandLength p ((s.port p).words.headD 0x00000000#32) }

/-- What the machine has to do next. -/
inductive Fetched where
  /-- Execute this command in this state, its words taken from its port. -/
  | command (i : Instr) (s : State)
  /-- The error of an undefined or not admitted header has been raised. -/
  | illegal (s : State)
  /-- No agent has a step. -/
  | idle
deriving DecidableEq, Repr

/-- What one port holds next. An illegal header raises ILLEGAL_OPCODE, is one word long and emits no RSP_OUT word
(30_encoding.md R99). -/
def fetchOn (p : Port) (s : State) : Fetched :=
  match decode p (s.port p).words with
  | .command i rest => .command i (consume p rest s)
  | .illegal hdr rest => .illegal (raiseError .illegalOpcode hdr 0 (consume p rest s))
  | .incomplete => .idle

/-- What the machine executes next. -/
def fetch (s : State) : Fetched :=
  match choosePort s with
  | some (p, s1) => fetchOn p s1
  | none => .idle

/-- Puts words at the front of the CMD port; where the MSG agent has a step too, the next contest goes to the CMD
agent. -/
def placeOnCmd (ws : List Word) (s : State) : State :=
  if portReady .msg s then
    (s.setPort .cmd { s.cmd with words := ws ++ s.cmd.words }).setEnv { s.env with grants := .cmd :: s.env.grants }
  else s.setPort .cmd { s.cmd with words := ws ++ s.cmd.words }

end Sys2Proof.Machine
end

