-- ==== Sys2Proof/Machine/Step.lean ====
section
/-! DEFINITION. One step of the machine: one command of one agent (20_memory.md R78; 70_reset_and_hazards.md R275). -/

namespace Sys2Proof.Machine

/-- One step: the agent that moves takes the command at the front of its port and executes it. -/
def step (s : State) : Host.Outcome State Fault Refusal :=
  if s.params.legal then
    match fetch s with
    | .command i s1 => exec i s1
    | .illegal s1 => .next s1
    | .idle => .fault .noCommandReceived
  else .refused .illegalParameters

/-- `s` with the command whose first `nbits` bits are those of `w` at the front of the CMD port, all its other words 0,
so that the next step executes it (log 14). -/
def State.withFetchWord (s : State) (nbits w : Nat) : State := placeOnCmd (tableWords nbits w) s

end Sys2Proof.Machine
end

