-- ==== Sys2Proof/Machine/Assembler.lean ====
section
/-! DEFINITION. The assembler syntax and the pseudo-commands (30_encoding.md R102, R103): one line of text to the
commands it stands for and their port. An operand that does not fit its field is refused, not truncated. No step of the
machine uses this file. What R102 leaves open of the text (blank space, the shape of a decimal) is DESIGN CHOICE
(log 17). -/

namespace Sys2Proof.Machine

/-! ## Tokens -/

/-- The tokens of a line. -/
inductive AsmToken where
  | name (cs : List Char)
  | nat (n : Nat)
  | decimal (num den : Nat)
  | str (bs : List Byte)
  | comma
  | openList
  | closeList
deriving DecidableEq, Repr

/-- The value of a digit in base 16 or less. -/
def asmDigit (base : Nat) (c : Char) : Option Nat :=
  let n := c.toNat
  let v :=
    if 48 ≤ n ∧ n ≤ 57 then n - 48
    else if 65 ≤ n ∧ n ≤ 70 then n - 55
    else if 97 ≤ n ∧ n ≤ 102 then n - 87
    else 16
  if v < base then some v else none

/-- The number written by digits of a base after the digits that gave `acc`. -/
def asmDigits (base : Nat) : (acc : Nat) → List Char → Option Nat
  | acc, [] => some acc
  | acc, c :: cs =>
    match asmDigit base c with
    | some v => asmDigits base (acc * base + v) cs
    | none => none

/-- One or more digits of a base. -/
def asmNumber (base : Nat) (cs : List Char) : Option Nat := if cs = [] then none else asmDigits base 0 cs

/-- A run of characters that is no punctuation: a number if it begins with a digit (decimal, `0x` hex, or decimal with a
point), a name otherwise. -/
def asmWord (cs : List Char) : Option AsmToken :=
  match cs with
  | '0' :: 'x' :: ds => (asmNumber 16 ds).map .nat
  | c :: _ =>
    if (asmDigit 10 c).isSome then
      let whole := cs.takeWhile (· != '.')
      match cs.dropWhile (· != '.') with
      | _ :: frac =>
        match asmNumber 10 whole, asmNumber 10 frac with
        | some a, some b => some (.decimal (a * 10 ^ frac.length + b) (10 ^ frac.length))
        | _, _ => none
      | [] => (asmNumber 10 whole).map .nat
    else some (.name cs)
  | [] => none

/-- What ends a word: blank space and punctuation, with the tokens it gives. The codes are those of the two braces. -/
def asmSeparator (c : Char) : Option (List AsmToken) :=
  if c = ' ' ∨ c = '\t' then some []
  else if c = ',' then some [.comma]
  else if c.toNat = 123 then some [.openList]
  else if c.toNat = 125 then some [.closeList]
  else none

/-- The token of the characters gathered so far, last one first. -/
def asmFlush (acc : List Char) : Option (List AsmToken) :=
  if acc = [] then some [] else (asmWord acc.reverse).map fun t => [t]

/-- The tokens of a line, a comment from `;` on left out. A string is its ASCII bytes between double quotes. -/
def asmLex : (quoted : Bool) → (acc : List Char) → List Char → Option (List AsmToken)
  | true, _, [] => none
  | true, acc, c :: cs =>
    if c.toNat = 34 then
      (asmLex false [] cs).map fun ts => .str (acc.reverse.map fun b => BitVec.ofNat 8 b.toNat) :: ts
    else if c.toNat < 128 then asmLex true (c :: acc) cs
    else none
  | false, acc, [] => asmFlush acc
  | false, acc, c :: cs =>
    if c = ';' then asmFlush acc
    else if c.toNat = 34 then
      match asmFlush acc, asmLex true [] cs with
      | some before, some after => some (before ++ after)
      | _, _ => none
    else
      match asmSeparator c with
      | some ts =>
        match asmFlush acc, asmLex false [] cs with
        | some before, some after => some (before ++ ts ++ after)
        | _, _ => none
      | none => asmLex false (c :: acc) cs

/-! ## Operands -/

/-- The operands of a command. -/
inductive AsmOperand where
  | num (n : Nat)
  | decimal (num den : Nat)
  | str (bs : List Byte)
  | bytes (bs : List Byte)
  | dbg
deriving DecidableEq, Repr

/-- The bytes of a list whose opening brace has been read, and what follows its closing brace. -/
def asmBytes : (first : Bool) → List AsmToken → Option (List Byte × List AsmToken)
  | true, .closeList :: rest => some ([], rest)
  | _, .nat n :: .closeList :: rest => if n < 256 then some ([BitVec.ofNat 8 n], rest) else none
  | _, .nat n :: .comma :: rest =>
    if n < 256 then
      match asmBytes false rest with
      | some (bs, rest') => some (BitVec.ofNat 8 n :: bs, rest')
      | none => none
    else none
  | _, _ => none

/-- One operand, and what follows it. -/
def asmOperand : List AsmToken → Option (AsmOperand × List AsmToken)
  | .nat n :: rest => some (.num n, rest)
  | .decimal a b :: rest => some (.decimal a b, rest)
  | .str bs :: rest => some (.str bs, rest)
  | .openList :: rest => (asmBytes true rest).map fun x => (.bytes x.1, x.2)
  | .name cs :: rest => if cs = "dbg".toList then some (.dbg, rest) else none
  | _ => none

/-- One or more operands, commas between them; `fuel` is at least the number of operands. -/
def asmOperandList : (fuel : Nat) → List AsmToken → Option (List AsmOperand)
  | 0, _ => none
  | fuel + 1, ts =>
    match asmOperand ts with
    | some (o, []) => some [o]
    | some (o, .comma :: rest) => (asmOperandList fuel rest).map fun os => o :: os
    | _ => none

/-- The operands of a line, possibly none. -/
def asmOperands (ts : List AsmToken) : Option (List AsmOperand) :=
  if ts = [] then some [] else asmOperandList ts.length ts

/-! ## Commands -/

/-- The field of `w` bits that holds `n`, if it fits (30_encoding.md R102). -/
def asmFit (w n : Nat) : Option (BitVec w) := if n < 2 ^ w then some (BitVec.ofNat w n) else none

/-- The exact value of a decimal, as a fraction (30_encoding.md R103). DESIGN CHOICE (log 17): a number with no point,
decimal or `0x` hex, may stand there too, for its integer value; R102 allows both forms of number, and R103 says
"decimal" only. -/
def asmFraction : AsmOperand → Option (Nat × Nat)
  | .num n => some (n, 1)
  | .decimal a b => some (a, b)
  | .str _ => none
  | .bytes _ => none
  | .dbg => none

/-- MOD.CONFIG with its word of α. -/
def asmModConfig (s : Nat) (alpha : Word) (dbg : Bool) : Option (List Instr) :=
  (asmFit 16 s).map fun sps => [.modConfig dbg 0#7 sps alpha]

/-- CONV.CONFIG with its rate and tag name. -/
def asmConvConfig (rate : Nat) (tagName : List Byte) (dbg : Bool) : Option (List Instr) :=
  match asmFit 64 rate, asmFit 8 tagName.length with
  | some r, some len => some [.convConfig dbg 0#15 len (loWord r) (hiWord r) (packBytes tagName)]
  | _, _ => none

/-- MSG.DELIVER with its kind and bytes. -/
def asmMsgDeliver (kind : Nat) (bs : List Byte) : Option (List Instr) :=
  match asmFit 4 kind, asmFit 20 bs.length with
  | some k, some len => some [.msgDeliver k len (packBytes bs)]
  | _, _ => none

/-- MOD.CONFIGF: α rounded to binary32 (30_encoding.md R103). -/
def asmModConfigF (s : Nat) (alpha : AsmOperand) (dbg : Bool) : Option (List Instr) :=
  match asmFraction alpha with
  | some (a, b) => asmModConfig s (if a = 0 then zeroTapWord else rne32 false a b) dbg
  | none => none

/-- CONV.CONFIGHZ: the rate rounded to 32.32, refused from 2^64 on (30_encoding.md R103). -/
def asmConvConfigHz (rate : AsmOperand) (tagName : List Byte) (dbg : Bool) : Option (List Instr) :=
  match asmFraction rate with
  | some (a, b) => asmConvConfig ((2 * a * 2 ^ 32 + b) / (2 * b)) tagName dbg
  | none => none

/-- The commands a mnemonic or a pseudo-command with its operands stands for (30_encoding.md R102, R103). -/
def asmCommand (mnemonic : String) (ops : List AsmOperand) : Option (List Instr) :=
  match mnemonic, ops with
  | "NOP", [] => some [.nop 0#24]
  | "NOP", [.num n] => (asmFit 24 n).map fun v => [.nop v]
  | "RESET", [] => some [.reset 0#24]
  | "CSR.READ", [.num n] => (asmFit 8 n).map fun v => [.csrRead 0#16 v]
  | "ERR.CLEAR", [] => some [.errClear 0#24]
  | "MOD.CONFIG", [.num s, .num a] => (asmFit 32 a).bind fun w => asmModConfig s w false
  | "MOD.CONFIG", [.num s, .num a, .dbg] => (asmFit 32 a).bind fun w => asmModConfig s w true
  | "MOD.FEED", [.num n] => (asmFit 8 n).map fun v => [.modFeed 0#16 v]
  | "MOD.REQUEST", [.num n] => (asmFit 24 n).map fun v => [.modRequest v]
  | "TAP.READ", [.num n] => (asmFit 16 n).map fun v => [.tapRead 0#8 v]
  | "CONV.CONFIG", [.num r, .str nm] => asmConvConfig r nm false
  | "CONV.CONFIG", [.num r, .str nm, .dbg] => asmConvConfig r nm true
  | "MSG.DELIVER", [.num k, .bytes bs] => asmMsgDeliver k bs
  | "CONV.REQUEST", [.num n] => (asmFit 24 n).map fun v => [.convRequest v]
  | "MOD.FEEDS", [.bytes bs] => some (bs.map fun b => .modFeed 0#16 b)
  | "MSG.SEND", [.bytes bs] => asmMsgDeliver 0 bs
  | "MOD.CONFIGF", [.num s, a] => asmModConfigF s a false
  | "MOD.CONFIGF", [.num s, a, .dbg] => asmModConfigF s a true
  | "CONV.CONFIGHZ", [r, .str nm] => asmConvConfigHz r nm false
  | "CONV.CONFIGHZ", [r, .str nm, .dbg] => asmConvConfigHz r nm true
  | "CSR.READ64", [.num n] =>
    match asmFit 8 n, asmFit 8 (n + 1) with
    | some lo, some hi => some [.csrRead 0#16 lo, .csrRead 0#16 hi]
    | _, _ => none
  | _, _ => none

/-- A mnemonic and its operands. -/
def asmBody : List AsmToken → Option (List Instr)
  | [] => some []
  | .name cs :: ts =>
    match asmOperands ts with
    | some ops => asmCommand (String.ofList cs) ops
    | none => none
  | _ => none

/-- One line of assembler text: its commands and their port, `@cmd` by default; none where the line is refused
(30_encoding.md R102). DESIGN CHOICE (log 17): a line without a mnemonic, be it empty, a comment alone or a port prefix
alone, is accepted and stands for no command; R102's form has a mnemonic on every line and says nothing of such a line. -/
def assembleLine (line : List Char) : Option (Port × List Instr) :=
  match asmLex false [] line with
  | some (.name cs :: ts) =>
    if cs = "@cmd".toList then (asmBody ts).map fun is => (.cmd, is)
    else if cs = "@msg".toList then (asmBody ts).map fun is => (.msg, is)
    else (asmBody (.name cs :: ts)).map fun is => (.cmd, is)
  | some ts => (asmBody ts).map fun is => (.cmd, is)
  | none => none

/-- The words of a line, as its port receives them. -/
def assembleWords (line : List Char) : Option (Port × List Word) :=
  (assembleLine line).map fun x => (x.1, x.2.flatMap encode)

end Sys2Proof.Machine
end

