-- ==== Sys2Proof/Safety.lean ====
section
/-! DEFINITION. What a safe run is, in the terms the statements use: the invariant that the spec gives every state
element between commands (10_state.md R33-R50; 43_control.md R208), and the runs of the machine. -/

namespace Sys2Proof.Machine

/-- The error state (10_state.md R33): with ERR = 0 the other elements are clear, and a recorded cause is a code of
60_exceptions.md R221. -/
abbrev ErrState.ok (x : ErrState) : Prop :=
  (x.err = false → x = ErrState.initial) ∧ (x.err = true → 0x01#8 ≤ x.cause ∧ x.cause ≤ 0x0A#8)

/-- The MOD unit between commands (10_state.md R35, R37-R41): unconfigured it holds its reset values; configured, S is
in range, N = 8S+1, α is legal, the cursor is legal and a symbol in progress has emitted at least one sample. -/
abbrev ModState.ok (p : Params) (m : ModState) : Prop :=
  (m.cfg = false → m = ModState.initial) ∧
  (m.cfg = true →
    1 ≤ m.sps.toNat ∧ m.sps.toNat ≤ p.spsMax ∧ m.nTaps.toNat = 8 * m.sps.toNat + 1 ∧ alphaLegal m.alpha = true) ∧
  m.inFifo.length ≤ p.inDepth ∧
  (m.bits = 0#4 ∨ m.bits = 2#4 ∨ m.bits = 4#4 ∨ m.bits = 6#4 ∨ m.bits = 8#4) ∧
  (m.act = true → 1 ≤ m.k.toNat ∧ m.k.toNat < m.sps.toNat) ∧
  (m.act = false → m.k = 0#16)

/-- The CONV unit between commands (10_state.md R42-R46, R50; 42_converter.md R186: a current PDU that is not empty has
had its first byte emitted). -/
abbrev ConvState.ok (p : Params) (c : ConvState) : Prop :=
  (c.cfg = false → c = ConvState.initial) ∧
  (c.cfg = true → 1 ≤ c.rate.toNat) ∧
  c.tagName.length = c.tagLen.toNat ∧ c.tagLen.toNat ≤ p.tagNameMax ∧
  c.queue.length ≤ p.qDepth ∧ (∀ pdu ∈ c.queue, pdu.length ≤ p.pduMax) ∧
  (c.curValid = true → c.cur.length ≤ p.pduMax ∧ c.pos.toNat ≤ c.cur.length ∧ (c.cur ≠ [] → 0 < c.pos.toNat)) ∧
  (c.curValid = false → c.cur = [] ∧ c.pos = 0#20) ∧
  c.tagOff.toNat < 2 ^ 24 - 1

/-- The invariant of the machine between commands: legal parameters, every unit as above, TAP canonical and within
N_MAX, and the pacing timestamp not ahead of TIME. -/
abbrev State.ok (s : State) : Prop :=
  s.params.legal ∧ s.err.ok ∧ s.mod.ok s.params ∧ s.conv.ok s.params ∧
  TapMemory.wf s.tap = true ∧ TapMemory.below s.params.nMax s.tap = true ∧
  s.conv.lastT ≤ s.time

/-- `t` is reached from `s` by some number of steps. Fairness is no question of it: a finite run starves no agent. -/
inductive Reaches : State → State → Prop where
  | refl (s : State) : Reaches s s
  | tail {s t u : State} : Reaches s t → step t = .next u → Reaches s u

/-! ## Unending runs and weak fairness (20_memory.md R78, R79) -/

/-- One move of a run: a step of the machine, or the host presenting further words on a port (10_state.md R32). -/
inductive Move : State → State → Prop where
  | step {s t : State} : step s = .next t → Move s t
  | receive (p : Port) (ws : List Word) (s : State) : Move s (s.receive p ws)

/-- `r 0, r 1, …` is an unending run. -/
def Run (r : Nat → State) : Prop := ∀ n, Move (r n) (r (n + 1))

/-- The move from `s` to `t` is the step of port `p`'s agent, which executes the command at the front of that port. -/
def Executes (p : Port) (s t : State) : Prop := step s = .next t ∧ ∃ s1, choosePort s = some (p, s1)

/-- The block never stops for good: some agent moves again and again. -/
def KeepsStepping (r : Nat → State) : Prop := ∀ n, ∃ m, n ≤ m ∧ ∃ p, Executes p (r m) (r (m + 1))

/-- Weak fairness (20_memory.md R79): a command that has been fully received is executed eventually. -/
def WeaklyFair (r : Nat → State) : Prop :=
  ∀ (p : Port) (n : Nat), portReady p (r n) = true → ∃ m, n ≤ m ∧ Executes p (r m) (r (m + 1))

end Sys2Proof.Machine
end

