-- ==== Sys2Proof/Reference.lean ====
section
/-! DEFINITION. The spec's own vocabulary for the statements, written independently of the machine: what raising an
error leaves, the sample stream Φ (41_modulator.md R152), and the emitted byte stream (42_converter.md R197). No step of
the machine uses this file. -/

namespace Sys2Proof.Reference

open Sys2Proof.Machine

/-! ## Errors (60_exceptions.md R223) -/

/-- The state after `raise E(hdr)` with the code of E, for a command with `k` RSP_OUT words. -/
def raised (code : BitVec 8) (hdr : Word) (k : Nat) (s : State) : State :=
  { s with
    err :=
      { err := true
        cause := if s.err.err then s.err.cause else code
        info := if s.err.err then s.err.info else hdr
        count := s.err.count + 1#32 }
    out := { s.out with rsp := s.out.rsp ++ List.replicate k 0x00000000#32 } }

/-- The codes a command may raise (60_exceptions.md R222). -/
def errorsOf : Opcode → List (BitVec 8)
  | .nop => []
  | .reset => [0x02#8]
  | .csrRead => [0x02#8, 0x08#8]
  | .errClear => [0x02#8]
  | .modConfig => [0x02#8, 0x04#8, 0x05#8]
  | .modFeed => [0x02#8, 0x03#8, 0x0A#8]
  | .modRequest => [0x03#8]
  | .tapRead => [0x02#8, 0x03#8, 0x09#8]
  | .convConfig => [0x02#8, 0x06#8, 0x07#8]
  | .msgDeliver => [0x03#8]
  | .convRequest => [0x03#8]

/-- How many RSP_OUT words a command emits (30_encoding.md R95). -/
def responseWords : Opcode → Nat
  | .csrRead => 1
  | .tapRead => 1
  | .modRequest => 2
  | .convRequest => 1
  | _ => 0

/-! ## The sample stream (41_modulator.md R141, R146, R147, R152) -/

/-- The signs of a symbol value: INEG = v[1] XOR v[0], QNEG = v[1] (41_modulator.md R142). -/
def signs (v : BitVec 2) : Bool × Bool := (v.getLsbD 1 ^^ v.getLsbD 0, v.getLsbD 1)

/-- `Sample(k)` of a symbol with given signs, H = floor(S/2), in a modulator with S and N (41_modulator.md R147). -/
def sample (p : Params) (tap : TapMemory) (sps nTaps : Nat) (sg : Bool × Bool) (k : Nat) : Sample :=
  (if k + sps / 2 < nTaps then
      fmul p.fmul (if sg.2 then 0xBF3504F3#32 else 0x3F3504F3#32) (tapRead tap (k + sps / 2))
    else 0x00000000#32)
  ++ fmul p.fmul (if sg.1 then 0xBF3504F3#32 else 0x3F3504F3#32) (tapRead tap k)

/-- Samples k, …, S-1 of a symbol. -/
def symbolFrom (p : Params) (tap : TapMemory) (sps nTaps : Nat) (sg : Bool × Bool) (k : Nat) : List Sample :=
  (List.range' k (sps - k)).map (sample p tap sps nTaps sg)

/-- The four symbol values of a byte, most significant pair first (41_modulator.md R146). -/
def pairsOf (b : Byte) : List (BitVec 2) :=
  [b.extractLsb' 6 2, b.extractLsb' 4 2, b.extractLsb' 2 2, b.extractLsb' 0 2]

/-- The samples of a run of symbol values. -/
def pairSamples (p : Params) (tap : TapMemory) (sps nTaps : Nat) (vs : List (BitVec 2)) : List Sample :=
  vs.flatMap fun v => symbolFrom p tap sps nTaps (signs v) 0

/-- Φ(B) of 41_modulator.md R152. -/
def phi (p : Params) (tap : TapMemory) (sps nTaps : Nat) (bytes : List Byte) : List Sample :=
  pairSamples p tap sps nTaps (bytes.flatMap pairsOf)

/-- All the samples the modulator can still emit from what it holds: the rest of the symbol in progress, the unconsumed
pairs of the current byte, and the waiting bytes. -/
def pendingSamples (s : State) : List Sample :=
  (if s.mod.act then
      symbolFrom s.params s.tap s.mod.sps.toNat s.mod.nTaps.toNat (s.mod.ineg, s.mod.qneg) s.mod.k.toNat
    else [])
  ++ pairSamples s.params s.tap s.mod.sps.toNat s.mod.nTaps.toNat
      ((pairsOf s.mod.byte).drop (4 - s.mod.bits.toNat / 2))
  ++ phi s.params s.tap s.mod.sps.toNat s.mod.nTaps.toNat s.mod.inFifo

/-- How many symbols begin while the next `made` samples are emitted: every S samples from the start of the symbol in
progress take one, which itself has begun before (41_modulator.md R145). -/
def symbolsBegun (m : ModState) (made : Nat) : Nat :=
  (m.k.toNat + made + m.sps.toNat - 1) / m.sps.toNat - (if m.act then 1 else 0)

/-- How many bytes that pulls: a byte only when M_BITS = 0, for the first of its four pairs (41_modulator.md R146,
R152). -/
def bytesPulled (m : ModState) (made : Nat) : Nat := (symbolsBegun m made - m.bits.toNat / 2 + 3) / 4

/-- The pairs still held, the next one first. -/
def heldPairs (m : ModState) : List (BitVec 2) :=
  (pairsOf m.byte).drop (4 - m.bits.toNat / 2) ++ m.inFifo.flatMap pairsOf

/-- The signs after `made` more samples: those of the last symbol begun, or as before (10_state.md R39). -/
def signsAfter (m : ModState) (made : Nat) : Bool × Bool :=
  if symbolsBegun m made = 0 then (m.ineg, m.qneg) else signs ((heldPairs m).getD (symbolsBegun m made - 1) 0#2)

/-- The modulator after `made` more samples: the bytes pulled leave IN_FIFO and the last of them stays in M_BYTE, two
bits of it per symbol begun are used up, and M_K and M_SYMCNT count on (10_state.md R38-R40; 41_modulator.md
R145-R153). -/
def modAfter (m : ModState) (made : Nat) : ModState :=
  { m with
    inFifo := m.inFifo.drop (bytesPulled m made)
    byte := if bytesPulled m made = 0 then m.byte else m.inFifo.getD (bytesPulled m made - 1) m.byte
    bits := BitVec.ofNat 4 (m.bits.toNat + 8 * bytesPulled m made - 2 * symbolsBegun m made)
    act := decide ((m.k.toNat + made) % m.sps.toNat ≠ 0)
    ineg := (signsAfter m made).1
    qneg := (signsAfter m made).2
    k := BitVec.ofNat 16 ((m.k.toNat + made) % m.sps.toNat)
    symcnt := m.symcnt + BitVec.ofNat 64 ((m.k.toNat + made) / m.sps.toNat) }

/-! ## The byte stream (42_converter.md R184-R197) -/

/-- Every PDU byte the converter holds and has not emitted, in order. -/
def pduContent (c : ConvState) : List Byte := c.cur.drop c.pos.toNat ++ c.queue.flatten

/-- The PDUs that can follow back to back: those before the first empty one (42_converter.md R190, R192). -/
def backToBack (c : ConvState) : List (List Byte) := c.queue.takeWhile fun pdu => pdu != []

/-- The PDU bytes that come before any padding. -/
def unpadded (c : ConvState) : List Byte := c.cur.drop c.pos.toNat ++ (backToBack c).flatten

/-- The tags of PDUs emitted back to back, the first of them at place `start` of a request with budget `b`: one tag for
each PDU whose first byte falls within the budget, at that byte's position (42_converter.md R186, R191). -/
def tagsFrom (base : BitVec 64) (key : List Byte) (b : Nat) : (start : Nat) → List (List Byte) → List Tag
  | _, [] => []
  | start, pdu :: rest =>
    if start < b then
      { offset := base + BitVec.ofNat 64 start, key := key, value := BitVec.ofNat 64 pdu.length }
        :: tagsFrom base key b (start + pdu.length) rest
    else []

/-- How many queued PDUs a request of budget `b` pops, the first of them at place `start`: one after the other while
budget is left, an empty one being the last (42_converter.md R181, R182, R190). -/
def pdusBegun (b : Nat) : (start : Nat) → List (List Byte) → Nat
  | _, [] => 0
  | start, pdu :: rest =>
    if start < b then (if pdu = [] then 1 else 1 + pdusBegun b (start + pdu.length) rest) else 0

/-- What a request of budget `b` makes of the PDUs held: whole front PDUs leave C_Q, and
(1) a budget that ends within the current PDU leaves it current, `b` bytes further;
(2) with nothing popped and budget left over, no PDU is current;
(3) otherwise the last PDU popped began at place `start`, which C_TAGOFF keeps, and it stays current if it is empty or
the budget ends within it; if it ends before the budget does, no PDU is current.
(42_converter.md R181-R183, R190, R193.) -/
def CursorAfter (b : Nat) (c c' : ConvState) : Prop :=
  let left := (c.cur.drop c.pos.toNat).length
  let k := pdusBegun b left c.queue
  c'.queue = c.queue.drop k ∧
  (b ≤ left → c'.curValid = c.curValid ∧ c'.cur = c.cur ∧ c'.pos.toNat = c.pos.toNat + b ∧ c'.tagOff = c.tagOff) ∧
  (left < b → k = 0 → c'.curValid = false ∧ c'.cur = [] ∧ c'.pos = 0#20 ∧ c'.tagOff = c.tagOff) ∧
  ∀ (j : Nat) (pdu : List Byte), k = j + 1 → c.queue[j]? = some pdu →
    let start := left + (c.queue.take j).flatten.length
    c'.tagOff.toNat = start ∧
    (pdu = [] ∨ b ≤ start + pdu.length →
      c'.curValid = true ∧ c'.cur = pdu ∧ c'.pos.toNat = min pdu.length (b - start)) ∧
    (pdu ≠ [] → start + pdu.length < b → c'.curValid = false ∧ c'.cur = [] ∧ c'.pos = 0#20)

/-- The budget of 42_converter.md R178-R180 as a rational rule: x = delta·rate/(P_F_TICK·2^32), rounded by P_PACE_ROUND,
clamped to N. -/
def budgetOf (p : Params) (delta : Nat) (rate : BitVec 64) (n : Nat) : Nat :=
  let x : ℚ := (delta : ℚ) * rate.toNat / (p.fTick * 2 ^ 32)
  min (match p.paceRound with
    | .nearest => ⌊x + 1 / 2⌋.toNat
    | .floor => ⌊x⌋.toNat) n

/-! ## Debug flags (00_scope.md R9) -/

/-- The state with both debug flags cleared. -/
def withoutDebug (s : State) : State :=
  { s with mod := { s.mod with dbg := false }, conv := { s.conv with dbg := false } }

/-! ## Units (20_memory.md R87) -/

/-- The MOD commands. -/
def isMod : Opcode → Bool
  | .modConfig => true
  | .modFeed => true
  | .modRequest => true
  | .tapRead => true
  | _ => false

/-- The CONV commands. -/
def isConv : Opcode → Bool
  | .convConfig => true
  | .msgDeliver => true
  | .convRequest => true
  | _ => false

end Sys2Proof.Reference
end

