-- ==== Sys2Proof/Certificates/Slice0/Obligations.lean ====
section
/-! DEFINITION. The statements about OQPSK-PS. Each docstring says which rule of spec/ it formalises; what a statement
needs of the spec's vocabulary stands in Sys2Proof/Reference.lean and the invariant in Sys2Proof/Safety.lean. -/

open Sys2Proof Sys2Proof.Machine Sys2Proof.Reference

/-! ## Encoding -/

/-- 30_encoding.md R90, R92, R97, R101: on the CMD port, which admits every command (R94), the words of every
well-formed command decode to it, every field at every value and every payload, and leave what follows. -/
def Obligations.CmdPortDecodesEveryEncodedCommand : Prop :=
  ∀ (i : Instr) (rest : List Word), i.wf = true → decode .cmd (encode i ++ rest) = .command i rest

/-- 30_encoding.md R94: the MSG port admits only NOP and MSG.DELIVER; any other command's header is illegal there and
one word long. -/
def Obligations.MsgPortDecodesOnlyNopAndDeliver : Prop :=
  ∀ (i : Instr) (rest : List Word), i.wf = true →
    decode .msg (encode i ++ rest) =
      if i.opcode = .nop ∨ i.opcode = .msgDeliver then .command i rest else .illegal i.header (i.payload ++ rest)

/-- 30_encoding.md R91, R92, R101: what a port decodes is well-formed and admitted there, and the words it took are that
command's encoding: each word has one meaning. -/
def Obligations.DecodedCommandsEncodeBack : Prop :=
  ∀ (p : Port) (ws : List Word) (i : Instr) (rest : List Word), decode p ws = .command i rest →
    i.wf = true ∧ (p = .msg → i.opcode = .nop ∨ i.opcode = .msgDeliver) ∧ ws = encode i ++ rest

/-- 30_encoding.md R93: the header alone decides the length, and exactly that many words are consumed. -/
def Obligations.HeaderDecidesLength : Prop :=
  ∀ (p : Port) (hdr : Word),
    (p = .cmd → hdr.extractLsb' 24 8 = 0x10#8 → commandLength p hdr = 2) ∧
    (p = .cmd → hdr.extractLsb' 24 8 = 0x20#8 →
      commandLength p hdr = 3 + ⌈((hdr.extractLsb' 0 8).toNat : ℚ) / 4⌉₊) ∧
    (hdr.extractLsb' 24 8 = 0x21#8 → commandLength p hdr = 1 + ⌈((hdr.extractLsb' 0 20).toNat : ℚ) / 4⌉₊) ∧
    ((hdr.extractLsb' 24 8 ≠ 0x10#8 ∧ hdr.extractLsb' 24 8 ≠ 0x20#8 ∧ hdr.extractLsb' 24 8 ≠ 0x21#8) ∨
        (p = .msg ∧ hdr.extractLsb' 24 8 ≠ 0x21#8) → commandLength p hdr = 1) ∧
    ∀ ws : List Word,
      (decode p (hdr :: ws) = .incomplete ↔ ws.length + 1 < commandLength p hdr) ∧
      (∀ i rest, decode p (hdr :: ws) = .command i rest → rest = (hdr :: ws).drop (commandLength p hdr)) ∧
      (∀ h rest, decode p (hdr :: ws) = .illegal h rest → h = hdr ∧ rest = (hdr :: ws).drop (commandLength p hdr))

/-- 30_encoding.md R104: the worked encodings, from their assembler text (R102) to their words and from the words to the
commands. -/
def Obligations.WorkedEncodingsAssembleAndDecode : Prop :=
  assembleWords "MOD.CONFIG 4, 0x3EB33333".toList = some (.cmd, [0x10000004#32, 0x3EB33333#32]) ∧
  assembleWords "MOD.FEED 0x1B".toList = some (.cmd, [0x1100001B#32]) ∧
  assembleWords "MOD.REQUEST 16".toList = some (.cmd, [0x12000010#32]) ∧
  assembleWords "CONV.CONFIG 0x000003E800000000, \"len\"".toList =
    some (.cmd, [0x20000003#32, 0x00000000#32, 0x000003E8#32, 0x006E656C#32]) ∧
  assembleWords ("MSG.DELIVER 0, ".toList ++ [Char.ofNat 123] ++ "0,1,2,3,4,5,6,7,8,9".toList ++ [Char.ofNat 125]) =
    some (.cmd, [0x2100000A#32, 0x03020100#32, 0x07060504#32, 0x00000908#32]) ∧
  assembleWords "CONV.REQUEST 100".toList = some (.cmd, [0x22000064#32]) ∧
  decode .cmd [0x10000004#32, 0x3EB33333#32] = .command (.modConfig false 0#7 4#16 0x3EB33333#32) [] ∧
  decode .cmd [0x1100001B#32] = .command (.modFeed 0#16 0x1B#8) [] ∧
  decode .cmd [0x12000010#32] = .command (.modRequest 16#24) [] ∧
  decode .cmd [0x20000003#32, 0x00000000#32, 0x000003E8#32, 0x006E656C#32] =
    .command (.convConfig false 0#15 3#8 0x00000000#32 0x000003E8#32 [0x006E656C#32]) [] ∧
  rateOf 0x00000000#32 0x000003E8#32 = 0x000003E800000000#64 ∧
  unpackBytes 3 [0x006E656C#32] = [0x6C#8, 0x65#8, 0x6E#8] ∧
  decode .cmd [0x2100000A#32, 0x03020100#32, 0x07060504#32, 0x00000908#32] =
    .command (.msgDeliver 0#4 10#20 [0x03020100#32, 0x07060504#32, 0x00000908#32]) [] ∧
  unpackBytes 10 [0x03020100#32, 0x07060504#32, 0x00000908#32] =
    [0#8, 1#8, 2#8, 3#8, 4#8, 5#8, 6#8, 7#8, 8#8, 9#8] ∧
  decode .cmd [0x22000064#32] = .command (.convRequest 100#24) []

/-- 30_encoding.md R99: every other OPC on CMD, and every OPC but 0x00 and 0x21 on MSG, raises ILLEGAL_OPCODE, is one
word long, changes nothing else and emits no RSP_OUT word; the word that follows is the next header. -/
def Obligations.OtherOpcodesAreIllegal : Prop :=
  ∀ (p : Port) (s s1 : State) (hdr : Word) (rest : List Word),
    s.params.legal → choosePort s = some (p, s1) → (s.port p).words = hdr :: rest →
    ((p = .cmd ∧
        ((0x04#8 ≤ hdr.extractLsb' 24 8 ∧ hdr.extractLsb' 24 8 ≤ 0x0F#8) ∨
          (0x14#8 ≤ hdr.extractLsb' 24 8 ∧ hdr.extractLsb' 24 8 ≤ 0x1F#8) ∨ 0x23#8 ≤ hdr.extractLsb' 24 8)) ∨
      (p = .msg ∧ hdr.extractLsb' 24 8 ≠ 0x00#8 ∧ hdr.extractLsb' 24 8 ≠ 0x21#8)) →
    step s = .next (raised 0x01#8 hdr 0 (s1.setPort p { words := rest, pos := (s.port p).pos + 1 }))

/-- 20_memory.md R73: packed bytes are little-endian, byte j in bits [8(j mod 4)+7 : 8(j mod 4)] of word floor(j/4). -/
def Obligations.PackedBytesAreLittleEndian : Prop :=
  ∀ (len : Nat) (ws : List Word), wordsFor len ≤ ws.length →
    (unpackBytes len ws).length = len ∧
    ∀ j, j < len → (unpackBytes len ws)[j]? = ws[j / 4]?.map fun w => w.extractLsb' (8 * (j % 4)) 8

/-! ## Steps and ports -/

/-- 20_memory.md R78; 10_state.md R31: the step of the agent that moves runs exactly the command at the front of its
port, in the state whose port has that command's words taken and its position advanced by their number. `s1` is `s`
after the arbitration, which changes the model's own fields only. -/
def Obligations.StepRunsTheDecodedCommand : Prop :=
  ∀ (p : Port) (s s1 : State) (i : Instr) (rest : List Word),
    s.params.legal → choosePort s = some (p, s1) → decode p (s.port p).words = .command i rest →
    s1 = { s with env := s1.env } ∧
    step s = exec i (s1.setPort p { words := rest, pos := (s.port p).pos + (encode i).length })

/-- 20_memory.md R75: with legal parameters the machine is stuck exactly when neither port holds a fully received
command or an illegal header; no command of any form stops it so. -/
def Obligations.OnlyIncompletePortsAreStuck : Prop :=
  ∀ s : State, s.params.legal →
    (step s = .fault .noCommandReceived ↔
      decode .cmd s.cmd.words = .incomplete ∧ decode .msg s.msg.words = .incomplete)

/-- 20_memory.md R79: when both agents have a step, either may move, as the environment says; when one has, it moves (who
waits since which contest is the model's own record, log 3); and weak fairness: in every unending run in which the block keeps stepping, however the host presents further words between
the steps, a command that has been fully received is executed eventually. -/
def Obligations.EitherAgentMayMoveAndNoneStarves : Prop :=
  (∀ (s : State) (p : Port) (later : List Port), portReady .cmd s = true → portReady .msg s = true →
    s.env.grants = p :: later →
    choosePort s = some (p, { s with env := { s.env with
      grants := later
      contests := s.env.contests + 1
      waiting := waitingAfter p s.env.contests s.env.waiting } })) ∧
  (∀ s : State, portReady .cmd s = true → portReady .msg s = false →
    choosePort s = some (.cmd, { s with env := { s.env with waiting := none } })) ∧
  (∀ s : State, portReady .cmd s = false → portReady .msg s = true →
    choosePort s = some (.msg, { s with env := { s.env with waiting := none } })) ∧
  ∀ r : Nat → State, Run r → KeepsStepping r → WeaklyFair r

/-- 10_state.md R31: every step takes the command at the front of one port and advances that port's position by its
length; no command sets a position to anything else, and the other port is left alone. -/
def Obligations.PositionsAdvanceByCommandLength : Prop :=
  ∀ s t : State, step s = .next t →
    ∃ (p : Port) (hdr : Word) (ws : List Word), (s.port p).words = hdr :: ws ∧
      t.port p =
        { words := (hdr :: ws).drop (commandLength p hdr), pos := (s.port p).pos + commandLength p hdr } ∧
      ∀ r, r ≠ p → t.port r = s.port r

/-- 00_scope.md R8 and 93_implementation_defined.md K14: a parameter set that breaks a constraint of R8 is refused. That
a set which only leaves another legal range of R7 is refused too is the model's choice (log 9). -/
def Obligations.IllegalParametersAreRefused : Prop :=
  ∀ s : State,
    (8191 < s.params.spsMax ∨ 2 ^ 20 - 1 < s.params.pduMax ∨ 255 < s.params.tagNameMax ∨ ¬ s.params.legal) →
    step s = .refused .illegalParameters

/-! ## Control commands -/

/-- 43_control.md R200: NOP changes nothing, whatever its ignored bits. -/
def Obligations.NopChangesNothing : Prop :=
  ∀ (ignored : BitVec 24) (s : State), exec (.nop ignored) s = .next s

/-- 10_state.md R57; 70_reset_and_hazards.md R250: what hardware reset leaves. TAP, which the spec leaves unspecified,
is not stated. Three clauses are the model's: that both input ports become empty, words received and not yet executed
being dropped (DEDUCED, log 18); that the parameters are kept (log 18); and that a hardware reset of `State.reset`
changes nothing, the model's own fields and the listed TAP included (logs 2, 3, 5 and 6). -/
def Obligations.HardwareResetValues : Prop :=
  ∀ s : State,
    let t := s.hardwareReset
    t.err = { err := false, cause := 0x00#8, info := 0x00000000#32, count := 0#32 } ∧
    t.time = 0#64 ∧ t.tSnapHi = 0#32 ∧
    t.mod = { cfg := false, dbg := false, sps := 0#16, alpha := 0x00000000#32, nTaps := 0#16, inFifo := [],
              byte := 0x00#8, bits := 0#4, act := false, ineg := false, qneg := false, k := 0#16, symcnt := 0#64 } ∧
    t.conv = { cfg := false, dbg := false, rate := 0#64, tagLen := 0#8, tagName := [], queue := [],
               curValid := false, cur := [], pos := 0#20, tagOff := 0#24, lastT := 0#64, wcount := 0#64,
               msgOk := 0#32, dropMalformed := 0#32, dropFull := 0#32, dropLong := 0#32, tagCnt := 0#32 } ∧
    t.out = { samples := [], bytes := [], tags := [], rsp := [] } ∧
    t.cmd = { words := [], pos := 0 } ∧ t.msg = { words := [], pos := 0 } ∧ t.params = s.params ∧
    State.reset.hardwareReset = State.reset

/-- 43_control.md R202; 70_reset_and_hazards.md R251: RESET completes in every state, leaves the reset state in every
element but TAP, which becomes unspecified, and keeps TIME, what the output ports have received, and the input ports.
That the ports' command positions are kept too is the model's reading (DEDUCED, log 8): 10_state.md R31 counts them
since the last reset. The count of TAP's forgettings, `env.tapEpoch`, is the model's own (log 6). -/
def Obligations.ResetCommandRestoresResetState : Prop :=
  ∀ s : State, ∃ t, exec (.reset 0#24) s = .next t ∧
    t.err = State.reset.err ∧ t.tSnapHi = State.reset.tSnapHi ∧ t.mod = State.reset.mod ∧
    t.conv = State.reset.conv ∧ t.time = s.time ∧ t.out = s.out ∧ t.cmd = s.cmd ∧ t.msg = s.msg ∧
    t.params = s.params ∧ t.env = { s.env with tapEpoch := s.env.tapEpoch + 1 }

/-- 43_control.md R204; 10_state.md R52: CSR.READ of every defined index but TIME_LO completes in every state, emits the
one word the table gives, and changes nothing else. -/
def Obligations.CsrReadAnswersItsIndex : Prop :=
  ∀ s : State,
    let answers := fun (idx : BitVec 8) (v : Word) =>
      exec (.csrRead 0#16 idx) s = .next { s with out := { s.out with rsp := s.out.rsp ++ [v] } }
    answers 0x00#8 s.params.id ∧ answers 0x01#8 (statusWord s) ∧
    answers 0x02#8 (s.err.cause.zeroExtend 32) ∧ answers 0x03#8 s.err.info ∧ answers 0x04#8 s.err.count ∧
    answers 0x08#8 (s.mod.sps.zeroExtend 32) ∧ answers 0x09#8 s.mod.alpha ∧
    answers 0x0A#8 (s.mod.nTaps.zeroExtend 32) ∧ answers 0x0B#8 (BitVec.ofNat 32 s.mod.inFifo.length) ∧
    answers 0x0C#8 (cursorWord s.mod) ∧ answers 0x0D#8 (s.mod.symcnt.extractLsb' 0 32) ∧
    answers 0x0E#8 (s.mod.symcnt.extractLsb' 32 32) ∧ answers 0x10#8 (s.conv.rate.extractLsb' 0 32) ∧
    answers 0x11#8 (s.conv.rate.extractLsb' 32 32) ∧ answers 0x12#8 (s.conv.tagLen.zeroExtend 32) ∧
    answers 0x13#8 (BitVec.ofNat 32 s.conv.queue.length) ∧
    answers 0x14#8 (if s.conv.curValid then BitVec.ofNat 32 s.conv.cur.length else 0#32) ∧
    answers 0x15#8 (s.conv.pos.zeroExtend 32) ∧ answers 0x16#8 (s.conv.tagOff.zeroExtend 32) ∧
    answers 0x17#8 (s.conv.wcount.extractLsb' 0 32) ∧ answers 0x18#8 (s.conv.wcount.extractLsb' 32 32) ∧
    answers 0x19#8 (s.conv.lastT.extractLsb' 0 32) ∧ answers 0x1A#8 (s.conv.lastT.extractLsb' 32 32) ∧
    answers 0x1C#8 s.tSnapHi ∧ answers 0x20#8 s.conv.msgOk ∧ answers 0x21#8 s.conv.dropMalformed ∧
    answers 0x22#8 s.conv.dropFull ∧ answers 0x23#8 s.conv.dropLong ∧ answers 0x24#8 s.conv.tagCnt ∧
    answers 0x28#8 (BitVec.ofNat 32 s.params.spsMax) ∧ answers 0x29#8 (BitVec.ofNat 32 s.params.inDepth) ∧
    answers 0x2A#8 (BitVec.ofNat 32 s.params.qDepth) ∧ answers 0x2B#8 (BitVec.ofNat 32 s.params.pduMax) ∧
    answers 0x2C#8 (BitVec.ofNat 32 s.params.tagNameMax) ∧
    answers 0x2D#8 ((BitVec.ofNat 64 s.params.fTick).extractLsb' 0 32) ∧
    answers 0x2E#8 ((BitVec.ofNat 64 s.params.fTick).extractLsb' 32 32) ∧
    answers 0x2F#8 (if s.params.paceRound = .floor then 1#32 else 0#32)

/-- 43_control.md R204: every other index raises BAD_CSR and answers the word 0. -/
def Obligations.UndefinedCsrRaisesBadCsr : Prop :=
  ∀ (idx : BitVec 8) (s : State),
    ((0x05#8 ≤ idx ∧ idx ≤ 0x07#8) ∨ idx = 0x0F#8 ∨ (0x1D#8 ≤ idx ∧ idx ≤ 0x1F#8) ∨ (0x25#8 ≤ idx ∧ idx ≤ 0x27#8) ∨
      0x30#8 ≤ idx) →
    exec (.csrRead 0#16 idx) s = .next (raised 0x08#8 (0x020000#24 ++ idx) 1 s)

/-- 10_state.md R53: each STATUS bit is the view the table names, and bits [31:9] read as 0. -/
def Obligations.StatusBitsAreViews : Prop :=
  ∀ s : State,
    (statusWord s).getLsbD 0 = s.mod.cfg ∧ (statusWord s).getLsbD 1 = s.conv.cfg ∧
    (statusWord s).getLsbD 2 = s.err.err ∧ (statusWord s).getLsbD 3 = s.mod.act ∧
    (statusWord s).getLsbD 4 = s.conv.curValid ∧ (statusWord s).getLsbD 5 = s.mod.dbg ∧
    (statusWord s).getLsbD 6 = s.conv.dbg ∧
    ((statusWord s).getLsbD 7 = true ↔ s.mod.inFifo.length = s.params.inDepth) ∧
    ((statusWord s).getLsbD 8 = true ↔ s.conv.queue.length = s.params.qDepth) ∧
    (statusWord s).extractLsb' 9 23 = 0#23

/-- 10_state.md R54: each M_CURSOR field is the view the table names, and bit 15 reads as 0. -/
def Obligations.CursorFieldsAreViews : Prop :=
  ∀ m : ModState,
    (cursorWord m).extractLsb' 0 8 = m.byte ∧ (cursorWord m).extractLsb' 8 4 = m.bits ∧
    (cursorWord m).getLsbD 12 = m.act ∧ (cursorWord m).getLsbD 13 = m.ineg ∧ (cursorWord m).getLsbD 14 = m.qneg ∧
    (cursorWord m).getLsbD 15 = false ∧ (cursorWord m).extractLsb' 16 16 = m.k

/-- 10_state.md R56: a read of TIME_LO draws TIME once, answers its low half, latches its high half, and changes nothing
else (but the model's own record of the draw). -/
def Obligations.TimeLowReadDrawsAndLatches : Prop :=
  ∀ s : State, s.time.toNat + nextAdvance s < 2 ^ 64 →
    let v := BitVec.ofNat 64 (s.time.toNat + nextAdvance s)
    exec (.csrRead 0#16 0x1B#8) s = .next { s with
      time := v
      tSnapHi := v.extractLsb' 32 32
      out := { s.out with rsp := s.out.rsp ++ [v.extractLsb' 0 32] }
      env := { s.env with advances := s.env.advances.tail, draws := s.env.draws + 1 } }

/-- 10_state.md R56: reading 0x1B and then 0x1C answers the two halves of TIME at one instant. -/
def Obligations.TimeReadPairIsOneInstant : Prop :=
  ∀ s t u : State, exec (.csrRead 0#16 0x1B#8) s = .next t → exec (.csrRead 0#16 0x1C#8) t = .next u →
    ∃ lo hi : Word, u.out.rsp = s.out.rsp ++ [lo, hi] ∧ hi ++ lo = t.time ∧ s.time ≤ t.time ∧ u.time = t.time

/-- 43_control.md R206: ERR.CLEAR completes in every state, clears the four error elements and changes nothing else. -/
def Obligations.ErrClearEndsTheErrorCondition : Prop :=
  ∀ s : State, exec (.errClear 0#24) s =
    .next { s with err := { err := false, cause := 0x00#8, info := 0x00000000#32, count := 0#32 } }

/-! ## Errors -/

/-- 30_encoding.md R98: a nonzero reserved field raises RESERVED_NONZERO in every state, before any other check; the
command is not executed and its RSP_OUT words are 0. -/
def Obligations.ReservedBitsRaiseReservedNonzero : Prop :=
  ∀ s : State,
    (∀ r : BitVec 24, r ≠ 0#24 → exec (.reset r) s = .next (raised 0x02#8 (0x01#8 ++ r) 0 s)) ∧
    (∀ (r : BitVec 16) (idx : BitVec 8), r ≠ 0#16 →
      exec (.csrRead r idx) s = .next (raised 0x02#8 (0x02#8 ++ r ++ idx) 1 s)) ∧
    (∀ r : BitVec 24, r ≠ 0#24 → exec (.errClear r) s = .next (raised 0x02#8 (0x03#8 ++ r) 0 s)) ∧
    (∀ (d : Bool) (r : BitVec 7) (sps : BitVec 16) (alpha : Word), r ≠ 0#7 →
      exec (.modConfig d r sps alpha) s = .next (raised 0x02#8 (0x10#8 ++ BitVec.ofBool d ++ r ++ sps) 0 s)) ∧
    (∀ (r : BitVec 16) (b : Byte), r ≠ 0#16 →
      exec (.modFeed r b) s = .next (raised 0x02#8 (0x11#8 ++ r ++ b) 0 s)) ∧
    (∀ (r : BitVec 8) (i : BitVec 16), r ≠ 0#8 →
      exec (.tapRead r i) s = .next (raised 0x02#8 (0x13#8 ++ r ++ i) 1 s)) ∧
    (∀ (d : Bool) (r : BitVec 15) (len : BitVec 8) (lo hi : Word) (name : List Word), r ≠ 0#15 →
      exec (.convConfig d r len lo hi name) s =
        .next (raised 0x02#8 (0x20#8 ++ BitVec.ofBool d ++ r ++ len) 0 s))

/-- 60_exceptions.md R221: a MOD command while M_CFG = 0 and a CONV command while C_CFG = 0 raise NOT_CONFIGURED, with
all their RSP_OUT words 0. -/
def Obligations.UnconfiguredUnitsRaiseNotConfigured : Prop :=
  ∀ s : State,
    (s.mod.cfg = false →
      (∀ b : Byte, exec (.modFeed 0#16 b) s = .next (raised 0x03#8 (0x110000#24 ++ b) 0 s)) ∧
      (∀ n : BitVec 24, exec (.modRequest n) s = .next (raised 0x03#8 (0x12#8 ++ n) 2 s)) ∧
      (∀ i : BitVec 16, exec (.tapRead 0#8 i) s = .next (raised 0x03#8 (0x1300#16 ++ i) 1 s))) ∧
    (s.conv.cfg = false →
      (∀ (kind : BitVec 4) (len : BitVec 20) (payload : List Word),
        exec (.msgDeliver kind len payload) s = .next (raised 0x03#8 (0x21#8 ++ kind ++ len) 0 s)) ∧
      (∀ n : BitVec 24, exec (.convRequest n) s = .next (raised 0x03#8 (0x22#8 ++ n) 1 s)))

/-- 60_exceptions.md R222, R224: a command leaves the error state alone, clears it (RESET and ERR.CLEAR), or raises
exactly one error, of those its row lists, with its own header. -/
def Obligations.CommandsRaiseOnlyTheirErrors : Prop :=
  ∀ (i : Instr) (s t : State), exec i s = .next t →
    t.err = s.err ∨
    ((i = .reset 0#24 ∨ i = .errClear 0#24) ∧ t.err = State.reset.err) ∨
    ∃ code ∈ errorsOf i.opcode, t.err = (raised code i.header 0 s).err

/-- 60_exceptions.md R223, R225: a command that raises an error has no effect but the error state, its RSP_OUT words of
0, and, exactly for the codes that reject a configuration, the clearing of that unit. -/
def Obligations.FailedCommandsHaveNoOtherEffect : Prop :=
  ∀ (i : Instr) (s t : State), exec i s = .next t → t.err.err = true → t.err.count = s.err.count + 1#32 →
    ∃ code ∈ errorsOf i.opcode,
      (code ∉ [0x04#8, 0x05#8, 0x06#8, 0x07#8] ∧ t = raised code i.header (responseWords i.opcode) s) ∨
      ((code = 0x04#8 ∨ code = 0x05#8) ∧ i.opcode = .modConfig ∧
        t = raised code i.header 0 { s with mod := State.reset.mod }) ∨
      ((code = 0x06#8 ∨ code = 0x07#8) ∧ i.opcode = .convConfig ∧
        t = raised code i.header 0 { s with conv := State.reset.conv })

/-- 30_encoding.md R95: every command emits its fixed number of RSP_OUT words, after those emitted before. -/
def Obligations.CommandsAnswerTheirResponseWords : Prop :=
  ∀ (i : Instr) (s t : State), exec i s = .next t →
    ∃ ws : List Word, ws.length = responseWords i.opcode ∧ t.out.rsp = s.out.rsp ++ ws

/-- 20_memory.md R76, R80: the output ports only grow, and only by the command the table names. -/
def Obligations.OutputsComeOnlyFromTheirCommands : Prop :=
  ∀ (i : Instr) (s t : State), exec i s = .next t →
    (∃ xs, t.out.samples = s.out.samples ++ xs ∧ (i.opcode ≠ .modRequest → xs = [])) ∧
    (∃ bs, t.out.bytes = s.out.bytes ++ bs ∧ (i.opcode ≠ .convRequest → bs = [])) ∧
    (∃ ts, t.out.tags = s.out.tags ++ ts ∧ (i.opcode ≠ .convRequest → ts = []))

/-! ## MOD.CONFIG and the tap generator -/

/-- 40_configuration.md R121, R133: with S in range, a legal α and a tap set, MOD.CONFIG constructs the modulator: the
configuration is stored, the stream state is clear, TAP[0 .. 8S] hold the tap set, and nothing else changes. That the
other entries of TAP, from M_N on, keep their words is the model's choice (DEDUCED, log 7): 10_state.md R36 leaves them
unspecified. A zero tap sum (R126), which no operands are known to give, has no tap set and is left out here. -/
def Obligations.ModConfigConstructs : Prop :=
  ∀ (d : Bool) (sps : BitVec 16) (alpha : Word) (taps : List Word) (s : State),
    1 ≤ sps.toNat → sps.toNat ≤ s.params.spsMax → alphaLegal alpha = true →
    tapSet s.params.tapRound sps.toNat alpha = some taps → TapMemory.wf s.tap = true →
    ∃ tap : TapMemory,
      exec (.modConfig d 0#7 sps alpha) s = .next { s with
        tap := tap
        mod := { cfg := true, dbg := d, sps := sps, alpha := alpha, nTaps := BitVec.ofNat 16 (8 * sps.toNat + 1),
                 inFifo := [], byte := 0x00#8, bits := 0#4, act := false, ineg := false, qneg := false, k := 0#16,
                 symcnt := 0#64 } } ∧
      taps.length = 8 * sps.toNat + 1 ∧
      (∀ i : Nat, i ≤ 8 * sps.toNat → taps[i]? = some (tapRead tap i)) ∧
      (∀ i : Nat, 8 * sps.toNat < i → tapRead tap i = tapRead s.tap i)

/-- 40_configuration.md R122: S = 0 or S > P_SPS_MAX raises BAD_SPS, whatever α is, and leaves the unit unconfigured with
its stream state clear. -/
def Obligations.ModConfigRejectsBadSps : Prop :=
  ∀ (d : Bool) (sps : BitVec 16) (alpha : Word) (s : State), sps.toNat = 0 ∨ s.params.spsMax < sps.toNat →
    exec (.modConfig d 0#7 sps alpha) s =
      .next (raised 0x04#8 (0x10#8 ++ BitVec.ofBool d ++ 0#7 ++ sps) 0 { s with mod := State.reset.mod })

/-- 40_configuration.md R123: ALPHA is legal exactly when it is a finite word with 0 < val(ALPHA) ≤ 1; an illegal one
raises BAD_ALPHA and leaves the unit unconfigured. -/
def Obligations.RollOffIsLegalExactlyInRange : Prop :=
  ∀ alpha : Word,
    (alphaLegal alpha = true ↔ Sys2Proof.Reference.Finite alpha ∧ 0 < val alpha ∧ val alpha ≤ 1) ∧
    ∀ (d : Bool) (sps : BitVec 16) (s : State), 1 ≤ sps.toNat → sps.toNat ≤ s.params.spsMax →
      ¬ (Sys2Proof.Reference.Finite alpha ∧ 0 < val alpha ∧ val alpha ≤ 1) →
      exec (.modConfig d 0#7 sps alpha) s =
        .next (raised 0x05#8 (0x10#8 ++ BitVec.ofBool d ++ 0#7 ++ sps) 0 { s with mod := State.reset.mod })

/-- 40_configuration.md R128: the exact taps are symmetric, h_i = h_{N-1-i}, and so are the stored words under any
choice of P_TAP_ROUND; R124: there are N = 8S+1 of them. -/
def Obligations.TapSetIsSymmetric : Prop :=
  (∀ (sps : Nat) (α : ℝ) (i : Nat), i ≤ 8 * sps → tapValue sps α i = tapValue sps α (8 * sps - i)) ∧
  ∀ (r : TapRound) (sps : Nat) (alpha : Word) (taps : List Word), tapSet r sps alpha = some taps →
    taps.length = 8 * sps + 1 ∧ ∀ i : Nat, i ≤ 8 * sps → taps[i]? = taps[8 * sps - i]?

/-- 40_configuration.md R125-R127: for every S and legal α there is no tap set exactly where the exact sum Σ raw is 0
(R126); otherwise every stored word is P_TAP_ROUND of its exact real tap h_i, a function of that real alone, and the
default P_TAP_ROUND stores the word nearest to it. What an exact 0 and an overflow round to is the model's (logs 1 and
12); how a word is found is log 10, and what becomes of one that no enclosure settles is log 11. -/
def Obligations.StoredTapsAreNearestToExactTaps : Prop :=
  ∀ (r : TapRound) (sps : Nat) (alpha : Word), 1 ≤ sps → alphaLegal alpha = true →
    (tapSet r sps alpha = none ↔ rrcSum sps (val alpha) = 0) ∧
    ∀ taps : List Word, tapSet r sps alpha = some taps → ∀ i : Nat, i ≤ 8 * sps →
      taps[i]? = some (tapRound r (Erased.mk (tapValue sps (val alpha) i))) ∧
      (r = .rne32 → ∃ w, taps[i]? = some w ∧ IsNearestWord w (tapValue sps (val alpha) i))

/-! ## binary32 -/

/-- 00_scope.md R12: `rne32` is RNE32 of every rational below the overflow threshold. -/
def Obligations.Rne32IsNearestEven : Prop :=
  ∀ (neg : Bool) (num den : Nat), 0 < den → (num : ℝ) / den < 2 ^ 128 - 2 ^ 103 →
    IsRne32 (rne32 neg num den) ((if neg then -1 else 1) * ((num : ℝ) / den))

/-- 00_scope.md R7; 43_control.md R209: the default P_FMUL is the exact product rounded by RNE32, its sign the exclusive
or of the signs, also where it rounds to 0. -/
def Obligations.ProductIsRoundedExactly : Prop :=
  ∀ a b : Word, Sys2Proof.Reference.Finite a → Sys2Proof.Reference.Finite b → |val a * val b| < 2 ^ 128 - 2 ^ 103 →
    IsRne32 (fmulRne a b) (val a * val b) ∧
    (fmulRne a b).getLsbD 31 = (a.getLsbD 31 ^^ b.getLsbD 31)

/-- 41_modulator.md R147: under the default P_FMUL a negative amplitude flips only the sign bit of the product. -/
def Obligations.NegativeAmplitudeFlipsTheSign : Prop :=
  ∀ w : Word, Sys2Proof.Reference.Finite w →
    fmul .rne32 0xBF3504F3#32 w = fmul .rne32 0x3F3504F3#32 w ^^^ 0x80000000#32

/-! ## MOD.FEED, MOD.REQUEST, TAP.READ -/

/-- 41_modulator.md R143: with room in IN_FIFO a feed appends its byte and changes nothing else; with IN_FIFO full it
raises IN_FIFO_FULL and discards the byte. -/
def Obligations.FeedAppendsOrIsFull : Prop :=
  ∀ (b : Byte) (s : State), s.mod.cfg = true →
    (s.mod.inFifo.length ≠ s.params.inDepth →
      exec (.modFeed 0#16 b) s = .next { s with mod := { s.mod with inFifo := s.mod.inFifo ++ [b] } }) ∧
    (s.mod.inFifo.length = s.params.inDepth →
      exec (.modFeed 0#16 b) s = .next (raised 0x0A#8 (0x110000#24 ++ b) 0 s))

/-- 41_modulator.md R141: the symbol mapper and its amplitude words. -/
def Obligations.SymbolMapFollowsItsTable : Prop :=
  (mapSymbol 0#2 = (false, false) ∧ mapSymbol 1#2 = (true, false) ∧ mapSymbol 2#2 = (true, true) ∧
    mapSymbol 3#2 = (false, true)) ∧
  amplitude false = 0x3F3504F3#32 ∧ amplitude true = 0xBF3504F3#32

/-- 41_modulator.md R148: the quadrature index of every sample of a symbol is within the tap set. -/
def Obligations.QuadratureIndexStaysInTaps : Prop :=
  ∀ (p : Params) (m : ModState), m.ok p → m.cfg = true → m.k.toNat ≤ m.sps.toNat - 1 →
    m.k.toNat + quadOffset m < m.nTaps.toNat

/-- 41_modulator.md R145-R147, R150-R153; 10_state.md R38-R40: a request of capacity N on a configured modulator
completes. It emits exactly the first N of the samples that the held input determines (all of them when there are
fewer) and leaves the rest pending; it pulls a byte only for a symbol that needs one, so that the number pulled is a
function of the samples produced; it answers both counts; M_BYTE, M_BITS, the signs, M_K and M_SYMCNT end where those
samples leave them, the last byte and signs kept when nothing is pending; nothing else changes. -/
def Obligations.RequestEmitsThePendingStream : Prop :=
  ∀ (n : BitVec 24) (s : State), s.mod.ok s.params → s.mod.cfg = true →
    let made := min n.toNat (pendingSamples s).length
    let t := { s with
      mod := modAfter s.mod made
      out := { s.out with
        samples := s.out.samples ++ (pendingSamples s).take n.toNat
        rsp := s.out.rsp ++ [BitVec.ofNat 32 made, BitVec.ofNat 32 (bytesPulled s.mod made)] } }
    exec (.modRequest n) s = .next t ∧ pendingSamples t = (pendingSamples s).drop n.toNat ∧
      bytesPulled s.mod made ≤ s.mod.inFifo.length

/-- 41_modulator.md R152; 70_reset_and_hazards.md R270: splitting one request in two changes nothing but the response
words. -/
def Obligations.SplittingARequestChangesNothing : Prop :=
  ∀ (a b c : BitVec 24) (s t u w : State), s.mod.cfg = true → a.toNat + b.toNat = c.toNat →
    exec (.modRequest a) s = .next t → exec (.modRequest b) t = .next u → exec (.modRequest c) s = .next w →
    w = { u with out := { u.out with rsp := w.out.rsp } }

/-- 10_state.md R40; 41_modulator.md R153: the samples emitted are what M_SYMCNT·S + M_K counts, before the counter
wraps. -/
def Obligations.SymbolCountTracksSamples : Prop :=
  ∀ (n : BitVec 24) (s t : State), s.mod.ok s.params → s.mod.cfg = true → s.mod.symcnt.toNat + n.toNat < 2 ^ 64 →
    exec (.modRequest n) s = .next t →
    t.mod.symcnt.toNat * t.mod.sps.toNat + t.mod.k.toNat + s.out.samples.length =
      s.mod.symcnt.toNat * s.mod.sps.toNat + s.mod.k.toNat + t.out.samples.length

/-- 41_modulator.md R160: TAP.READ answers the stored word of an index below M_N and changes nothing else; from M_N on it
raises BAD_TAP_INDEX and answers 0. -/
def Obligations.TapReadAnswersItsTap : Prop :=
  ∀ (i : BitVec 16) (s : State), s.mod.cfg = true →
    (i.toNat < s.mod.nTaps.toNat →
      exec (.tapRead 0#8 i) s =
        .next { s with out := { s.out with rsp := s.out.rsp ++ [tapRead s.tap i.toNat] } }) ∧
    (s.mod.nTaps.toNat ≤ i.toNat → exec (.tapRead 0#8 i) s = .next (raised 0x09#8 (0x1300#16 ++ i) 1 s))

/-! ## CONV.CONFIG and MSG.DELIVER -/

/-- 40_configuration.md R130, R131, R133: with a nonzero rate and a tag name that fits, CONV.CONFIG constructs the
converter, its timestamp a TIME read of this command; nothing else changes. -/
def Obligations.ConvConfigConstructs : Prop :=
  ∀ (d : Bool) (len : BitVec 8) (lo hi : Word) (name : List Word) (s : State),
    ¬ (lo = 0#32 ∧ hi = 0#32) → len.toNat ≤ s.params.tagNameMax → s.time.toNat + nextAdvance s < 2 ^ 64 →
    let v := BitVec.ofNat 64 (s.time.toNat + nextAdvance s)
    exec (.convConfig d 0#15 len lo hi name) s = .next { s with
      time := v
      env := { s.env with advances := s.env.advances.tail, draws := s.env.draws + 1 }
      conv := { cfg := true, dbg := d, rate := hi ++ lo, tagLen := len, tagName := unpackBytes len.toNat name,
                queue := [], curValid := false, cur := [], pos := 0#20, tagOff := 0#24, lastT := v, wcount := 0#64,
                msgOk := 0#32, dropMalformed := 0#32, dropFull := 0#32, dropLong := 0#32, tagCnt := 0#32 } }

/-- 40_configuration.md R132: RATE = 0 raises BAD_RATE, and a tag name longer than P_TAGNAME_MAX raises TAGNAME_TOO_LONG;
both leave the unit unconfigured, and the rate is checked first. -/
def Obligations.ConvConfigRejectsBadOperands : Prop :=
  ∀ (d : Bool) (len : BitVec 8) (lo hi : Word) (name : List Word) (s : State),
    (lo = 0#32 ∧ hi = 0#32 →
      exec (.convConfig d 0#15 len lo hi name) s =
        .next (raised 0x06#8 (0x20#8 ++ BitVec.ofBool d ++ 0#15 ++ len) 0 { s with conv := State.reset.conv })) ∧
    (¬ (lo = 0#32 ∧ hi = 0#32) → s.params.tagNameMax < len.toNat →
      exec (.convConfig d 0#15 len lo hi name) s =
        .next (raised 0x07#8 (0x20#8 ++ BitVec.ofBool d ++ 0#15 ++ len) 0 { s with conv := State.reset.conv }))

/-- 42_converter.md R171-R175: on a configured converter every message completes: it is dropped and counted as
malformed, too long or queue-full, in that order, or its bytes become the back entry of C_Q; nothing else changes. -/
def Obligations.MessagesAreQueuedOrDropped : Prop :=
  ∀ (kind : BitVec 4) (len : BitVec 20) (payload : List Word) (s : State), s.conv.cfg = true →
    exec (.msgDeliver kind len payload) s = .next { s with
      conv :=
        if kind ≠ 0#4 then { s.conv with dropMalformed := s.conv.dropMalformed + 1#32 }
        else if s.params.pduMax < len.toNat then { s.conv with dropLong := s.conv.dropLong + 1#32 }
        else if s.conv.queue.length = s.params.qDepth then { s.conv with dropFull := s.conv.dropFull + 1#32 }
        else { s.conv with
          queue := s.conv.queue ++ [unpackBytes len.toNat payload], msgOk := s.conv.msgOk + 1#32 } }

/-! ## CONV.REQUEST -/

/-- 42_converter.md R178-R180: the machine's budget is the exact count due, rounded by P_PACE_ROUND and clamped; under
FLOOR an elapsed time below one sample period gives 0, under NEAREST one below half a period, and a tie goes up. -/
def Obligations.BudgetIsTheRoundedDueCount : Prop :=
  (∀ (p : Params) (c : ConvState) (t : BitVec 64) (n : BitVec 24),
    budget p c t n = budgetOf p (t.toNat - c.lastT.toNat) c.rate n.toNat) ∧
  (∀ (p : Params) (delta : Nat) (rate : BitVec 64), 0 < p.fTick →
    (p.paceRound = .floor → delta * rate.toNat < p.fTick * 2 ^ 32 → itemsDue p delta rate = 0) ∧
    (p.paceRound = .nearest → 2 * (delta * rate.toNat) < p.fTick * 2 ^ 32 → itemsDue p delta rate = 0) ∧
    (∀ m : Nat, p.paceRound = .nearest → 2 * (delta * rate.toNat) = (2 * m + 1) * (p.fTick * 2 ^ 32) →
      itemsDue p delta rate = m + 1))

/-- 42_converter.md R194: a request with B = 0 emits no bytes and no tags and changes only C_LAST_T (and TIME, which its
two reads advance), answering 0. -/
def Obligations.ZeroBudgetEmitsNothing : Prop :=
  ∀ (n : BitVec 24) (s s1 s2 : State) (t1 t2 : BitVec 64), s.conv.cfg = true →
    drawTime s = some (t1, s1) → drawTime s1 = some (t2, s2) →
    budgetOf s.params (t1.toNat - s.conv.lastT.toNat) s.conv.rate n.toNat = 0 →
    exec (.convRequest n) s = .next { s with
      conv := { s.conv with lastT := t2 }
      out := { s.out with rsp := s.out.rsp ++ [0#32] }
      time := s2.time
      env := s2.env }

/-- 42_converter.md R195: with C_Q empty and no current PDU, or an exhausted one, a request emits B bytes of PAD and no
tag. -/
def Obligations.EmptyQueueIsPadded : Prop :=
  ∀ (n : BitVec 24) (s s1 s2 : State) (t1 t2 : BitVec 64), s.conv.cfg = true →
    drawTime s = some (t1, s1) → drawTime s1 = some (t2, s2) →
    s.conv.queue = [] → (s.conv.curValid = true → s.conv.pos.toNat = s.conv.cur.length) →
    let b := budgetOf s.params (t1.toNat - s.conv.lastT.toNat) s.conv.rate n.toNat
    ∃ t, exec (.convRequest n) s = .next t ∧
      t.out = { s.out with
        bytes := s.out.bytes ++ List.replicate b 0x01#8, rsp := s.out.rsp ++ [BitVec.ofNat 32 b] } ∧
      t.conv.queue = [] ∧ t.conv.wcount = s.conv.wcount + BitVec.ofNat 64 b ∧ t.conv.lastT = t2

/-- 42_converter.md R190: an empty PDU at the front of C_Q gets no tag and pads the rest of its request, whatever is
queued behind it, and stays current and exhausted. -/
def Obligations.EmptyPduPadsTheRest : Prop :=
  ∀ (n : BitVec 24) (s s1 s2 : State) (t1 t2 : BitVec 64) (later : List (List Byte)), s.conv.cfg = true →
    drawTime s = some (t1, s1) → drawTime s1 = some (t2, s2) →
    s.conv.queue = [] :: later → (s.conv.curValid = true → s.conv.pos.toNat = s.conv.cur.length) →
    let b := budgetOf s.params (t1.toNat - s.conv.lastT.toNat) s.conv.rate n.toNat
    0 < b →
    ∃ t, exec (.convRequest n) s = .next t ∧
      t.out = { s.out with
        bytes := s.out.bytes ++ List.replicate b 0x01#8, rsp := s.out.rsp ++ [BitVec.ofNat 32 b] } ∧
      t.conv.queue = later ∧ t.conv.curValid = true ∧ t.conv.cur = [] ∧ t.conv.pos = 0#20

/-- 42_converter.md R176-R193, R197: a request on a configured converter completes and emits exactly B bytes: the rest of
the current PDU, the PDUs back to back up to the first empty one, and PAD from there on; one tag at the first byte of
each PDU it begins; no PDU byte is lost, duplicated or reordered; whole front PDUs leave C_Q, and the PDU left current,
its cursor and C_TAGOFF are those of `CursorAfter` (R181, R182); the position, the timestamp and the tag count move on.
Nothing else changes but TIME, which the two reads advance, and the model's own record of the draws (log 2). -/
def Obligations.RequestEmitsPdusBackToBack : Prop :=
  ∀ (n : BitVec 24) (s s1 s2 : State) (t1 t2 : BitVec 64),
    s.params.legal → s.conv.ok s.params → s.conv.cfg = true →
    drawTime s = some (t1, s1) → drawTime s1 = some (t2, s2) →
    let b := budgetOf s.params (t1.toNat - s.conv.lastT.toNat) s.conv.rate n.toNat
    let tags := tagsFrom s.conv.wcount s.conv.tagName b (s.conv.cur.drop s.conv.pos.toNat).length
      (backToBack s.conv)
    ∃ t, exec (.convRequest n) s = .next t ∧
      t.out = { s.out with
        bytes := s.out.bytes ++ (unpadded s.conv ++ List.replicate b 0x01#8).take b
        tags := s.out.tags ++ tags
        rsp := s.out.rsp ++ [BitVec.ofNat 32 b] } ∧
      pduContent t.conv = (pduContent s.conv).drop (min b (unpadded s.conv).length) ∧
      CursorAfter b s.conv t.conv ∧
      t = { s with
        conv := { s.conv with
          queue := t.conv.queue, curValid := t.conv.curValid, cur := t.conv.cur, pos := t.conv.pos,
          tagOff := t.conv.tagOff, wcount := s.conv.wcount + BitVec.ofNat 64 b, lastT := t2,
          tagCnt := s.conv.tagCnt + BitVec.ofNat 32 tags.length }
        out := t.out
        time := s2.time
        env := s2.env }

/-! ## TIME -/

/-- 10_state.md R48: TIME never runs backwards, and only CSR.READ, CONV.CONFIG and CONV.REQUEST read it. -/
def Obligations.TimeNeverRunsBackwards : Prop :=
  ∀ (i : Instr) (s t : State), exec i s = .next t →
    s.time ≤ t.time ∧
    (i.opcode ≠ .csrRead → i.opcode ≠ .convConfig → i.opcode ≠ .convRequest → t.time = s.time)

/-- 10_state.md R48: a run in which TIME would pass 2^64 - 1 is outside the spec; each command that reads TIME refuses
it. -/
def Obligations.TimeWrapIsRefused : Prop :=
  ∀ s : State, 2 ^ 64 ≤ s.time.toNat + nextAdvance s →
    exec (.csrRead 0#16 0x1B#8) s = .refused .timeWouldWrap ∧
    (∀ (d : Bool) (len : BitVec 8) (lo hi : Word) (name : List Word), ¬ (lo = 0#32 ∧ hi = 0#32) →
      len.toNat ≤ s.params.tagNameMax → exec (.convConfig d 0#15 len lo hi name) s = .refused .timeWouldWrap) ∧
    (∀ n : BitVec 24, s.conv.cfg = true → exec (.convRequest n) s = .refused .timeWouldWrap)

/-! ## The two units -/

/-- 20_memory.md R82, R87; 43_control.md R207: a MOD command leaves the converter, TIME, BYTE_OUT and TAG_OUT alone; a
CONV command leaves the modulator, TAP and SAMPLE_OUT alone; NOP, CSR.READ and ERR.CLEAR leave both units alone; and no
command changes a parameter or an input port. -/
def Obligations.UnitsShareOnlyErrorsAndReset : Prop :=
  ∀ (i : Instr) (s t : State), exec i s = .next t →
    t.params = s.params ∧ t.cmd = s.cmd ∧ t.msg = s.msg ∧
    (isMod i.opcode = true →
      t.conv = s.conv ∧ t.time = s.time ∧ t.tSnapHi = s.tSnapHi ∧ t.env = s.env ∧ t.out.bytes = s.out.bytes ∧
        t.out.tags = s.out.tags) ∧
    (isConv i.opcode = true →
      t.mod = s.mod ∧ t.tap = s.tap ∧ t.tSnapHi = s.tSnapHi ∧ t.out.samples = s.out.samples) ∧
    (i.opcode = .nop ∨ i.opcode = .csrRead ∨ i.opcode = .errClear →
      t.mod = s.mod ∧ t.tap = s.tap ∧ t.conv = s.conv ∧ t.out.samples = s.out.samples ∧
        t.out.bytes = s.out.bytes ∧ t.out.tags = s.out.tags)

/-- 20_memory.md R87, R80: a MOD command and a CONV command that raise no error commute. Either order completes, and
leaves the same state and the same port contents but for the order of the two commands' RSP_OUT words, which is the
order of the commands (log 15): where at most one of the two answers, the states are equal. -/
def Obligations.UnitsCommute : Prop :=
  ∀ (i j : Instr) (s a b c : State), isMod i.opcode = true → isConv j.opcode = true →
    exec i s = .next a → exec j a = .next b → exec j s = .next c → a.err = s.err → b.err = a.err →
    ∃ ws vs : List Word, ws.length = responseWords i.opcode ∧ vs.length = responseWords j.opcode ∧
      b.out.rsp = s.out.rsp ++ ws ++ vs ∧
      exec i c = .next { b with out := { b.out with rsp := s.out.rsp ++ vs ++ ws } }

/-- 41_modulator.md R154: what a MOD command does to the modulator and emits is a function of the modulator alone. -/
def Obligations.ModStreamDependsOnModAlone : Prop :=
  ∀ (i : Instr) (s1 s2 t1 t2 : State), isMod i.opcode = true →
    s1.params = s2.params → s1.mod = s2.mod → s1.tap = s2.tap → exec i s1 = .next t1 → exec i s2 = .next t2 →
    t1.mod = t2.mod ∧ t1.tap = t2.tap ∧
    ∃ (xs : List Sample) (ws : List Word),
      t1.out.samples = s1.out.samples ++ xs ∧ t2.out.samples = s2.out.samples ++ xs ∧
      t1.out.rsp = s1.out.rsp ++ ws ∧ t2.out.rsp = s2.out.rsp ++ ws

/-- 00_scope.md R9: no output, count, tag or state transition depends on a debug flag; only a read of STATUS shows it. -/
def Obligations.DebugFlagsChangeNoOutput : Prop :=
  ∀ (i : Instr) (s t : State), (∀ r : BitVec 16, i ≠ .csrRead r 0x01#8) → exec i s = .next t →
    ∃ t', exec i (withoutDebug s) = .next t' ∧ withoutDebug t' = withoutDebug t

/-! ## The tap memory and the invariant -/

/-- The model's choice (log 5), for 20_memory.md R72: two canonical tap memories that read alike at every index are
equal, so that equal states are equal data. -/
def Obligations.TapMemoryIsCanonical : Prop :=
  ∀ m m' : TapMemory, TapMemory.wf m = true → TapMemory.wf m' = true → (∀ i, tapRead m i = tapRead m' i) → m = m'

/-- 10_state.md R33-R50; 43_control.md R208: every step from a state whose elements are legal leaves them legal: the
error state, the modulator's and the converter's ranges and cursors, reset values while unconfigured, TAP canonical
within N_MAX, the timestamp not ahead of TIME. -/
def Obligations.EveryStepKeepsTheStateLegal : Prop :=
  ∀ s t : State, s.ok → step s = .next t → t.ok

/-- The state after hardware reset is legal. -/
def Obligations.ResetStateIsLegal : Prop :=
  State.reset.ok
end

