-- ==== Sys2Proof/Laws/State.lean ====
section
/-! SUPPORT. What writing one part of the state leaves in each part: one lemma per field per update. -/

namespace Sys2Proof.Machine

/-! ### setErr -/

@[simp] theorem State.setErr_params (x : ErrState) (s : State) : (s.setErr x).params = s.params := rfl
@[simp] theorem State.setErr_err (x : ErrState) (s : State) : (s.setErr x).err = x := rfl
@[simp] theorem State.setErr_time (x : ErrState) (s : State) : (s.setErr x).time = s.time := rfl
@[simp] theorem State.setErr_tSnapHi (x : ErrState) (s : State) : (s.setErr x).tSnapHi = s.tSnapHi := rfl
@[simp] theorem State.setErr_mod (x : ErrState) (s : State) : (s.setErr x).mod = s.mod := rfl
@[simp] theorem State.setErr_tap (x : ErrState) (s : State) : (s.setErr x).tap = s.tap := rfl
@[simp] theorem State.setErr_conv (x : ErrState) (s : State) : (s.setErr x).conv = s.conv := rfl
@[simp] theorem State.setErr_out (x : ErrState) (s : State) : (s.setErr x).out = s.out := rfl
@[simp] theorem State.setErr_cmd (x : ErrState) (s : State) : (s.setErr x).cmd = s.cmd := rfl
@[simp] theorem State.setErr_msg (x : ErrState) (s : State) : (s.setErr x).msg = s.msg := rfl
@[simp] theorem State.setErr_env (x : ErrState) (s : State) : (s.setErr x).env = s.env := rfl
@[simp] theorem State.setErr_port (x : ErrState) (p : Port) (s : State) : (s.setErr x).port p = s.port p := by cases p <;> rfl

/-! ### setTime -/

@[simp] theorem State.setTime_params (x : BitVec 64) (s : State) : (s.setTime x).params = s.params := rfl
@[simp] theorem State.setTime_err (x : BitVec 64) (s : State) : (s.setTime x).err = s.err := rfl
@[simp] theorem State.setTime_time (x : BitVec 64) (s : State) : (s.setTime x).time = x := rfl
@[simp] theorem State.setTime_tSnapHi (x : BitVec 64) (s : State) : (s.setTime x).tSnapHi = s.tSnapHi := rfl
@[simp] theorem State.setTime_mod (x : BitVec 64) (s : State) : (s.setTime x).mod = s.mod := rfl
@[simp] theorem State.setTime_tap (x : BitVec 64) (s : State) : (s.setTime x).tap = s.tap := rfl
@[simp] theorem State.setTime_conv (x : BitVec 64) (s : State) : (s.setTime x).conv = s.conv := rfl
@[simp] theorem State.setTime_out (x : BitVec 64) (s : State) : (s.setTime x).out = s.out := rfl
@[simp] theorem State.setTime_cmd (x : BitVec 64) (s : State) : (s.setTime x).cmd = s.cmd := rfl
@[simp] theorem State.setTime_msg (x : BitVec 64) (s : State) : (s.setTime x).msg = s.msg := rfl
@[simp] theorem State.setTime_env (x : BitVec 64) (s : State) : (s.setTime x).env = s.env := rfl
@[simp] theorem State.setTime_port (x : BitVec 64) (p : Port) (s : State) : (s.setTime x).port p = s.port p := by cases p <;> rfl

/-! ### setSnap -/

@[simp] theorem State.setSnap_params (x : BitVec 32) (s : State) : (s.setSnap x).params = s.params := rfl
@[simp] theorem State.setSnap_err (x : BitVec 32) (s : State) : (s.setSnap x).err = s.err := rfl
@[simp] theorem State.setSnap_time (x : BitVec 32) (s : State) : (s.setSnap x).time = s.time := rfl
@[simp] theorem State.setSnap_tSnapHi (x : BitVec 32) (s : State) : (s.setSnap x).tSnapHi = x := rfl
@[simp] theorem State.setSnap_mod (x : BitVec 32) (s : State) : (s.setSnap x).mod = s.mod := rfl
@[simp] theorem State.setSnap_tap (x : BitVec 32) (s : State) : (s.setSnap x).tap = s.tap := rfl
@[simp] theorem State.setSnap_conv (x : BitVec 32) (s : State) : (s.setSnap x).conv = s.conv := rfl
@[simp] theorem State.setSnap_out (x : BitVec 32) (s : State) : (s.setSnap x).out = s.out := rfl
@[simp] theorem State.setSnap_cmd (x : BitVec 32) (s : State) : (s.setSnap x).cmd = s.cmd := rfl
@[simp] theorem State.setSnap_msg (x : BitVec 32) (s : State) : (s.setSnap x).msg = s.msg := rfl
@[simp] theorem State.setSnap_env (x : BitVec 32) (s : State) : (s.setSnap x).env = s.env := rfl
@[simp] theorem State.setSnap_port (x : BitVec 32) (p : Port) (s : State) : (s.setSnap x).port p = s.port p := by cases p <;> rfl

/-! ### setMod -/

@[simp] theorem State.setMod_params (x : ModState) (s : State) : (s.setMod x).params = s.params := rfl
@[simp] theorem State.setMod_err (x : ModState) (s : State) : (s.setMod x).err = s.err := rfl
@[simp] theorem State.setMod_time (x : ModState) (s : State) : (s.setMod x).time = s.time := rfl
@[simp] theorem State.setMod_tSnapHi (x : ModState) (s : State) : (s.setMod x).tSnapHi = s.tSnapHi := rfl
@[simp] theorem State.setMod_mod (x : ModState) (s : State) : (s.setMod x).mod = x := rfl
@[simp] theorem State.setMod_tap (x : ModState) (s : State) : (s.setMod x).tap = s.tap := rfl
@[simp] theorem State.setMod_conv (x : ModState) (s : State) : (s.setMod x).conv = s.conv := rfl
@[simp] theorem State.setMod_out (x : ModState) (s : State) : (s.setMod x).out = s.out := rfl
@[simp] theorem State.setMod_cmd (x : ModState) (s : State) : (s.setMod x).cmd = s.cmd := rfl
@[simp] theorem State.setMod_msg (x : ModState) (s : State) : (s.setMod x).msg = s.msg := rfl
@[simp] theorem State.setMod_env (x : ModState) (s : State) : (s.setMod x).env = s.env := rfl
@[simp] theorem State.setMod_port (x : ModState) (p : Port) (s : State) : (s.setMod x).port p = s.port p := by cases p <;> rfl

/-! ### setTap -/

@[simp] theorem State.setTap_params (x : TapMemory) (s : State) : (s.setTap x).params = s.params := rfl
@[simp] theorem State.setTap_err (x : TapMemory) (s : State) : (s.setTap x).err = s.err := rfl
@[simp] theorem State.setTap_time (x : TapMemory) (s : State) : (s.setTap x).time = s.time := rfl
@[simp] theorem State.setTap_tSnapHi (x : TapMemory) (s : State) : (s.setTap x).tSnapHi = s.tSnapHi := rfl
@[simp] theorem State.setTap_mod (x : TapMemory) (s : State) : (s.setTap x).mod = s.mod := rfl
@[simp] theorem State.setTap_tap (x : TapMemory) (s : State) : (s.setTap x).tap = x := rfl
@[simp] theorem State.setTap_conv (x : TapMemory) (s : State) : (s.setTap x).conv = s.conv := rfl
@[simp] theorem State.setTap_out (x : TapMemory) (s : State) : (s.setTap x).out = s.out := rfl
@[simp] theorem State.setTap_cmd (x : TapMemory) (s : State) : (s.setTap x).cmd = s.cmd := rfl
@[simp] theorem State.setTap_msg (x : TapMemory) (s : State) : (s.setTap x).msg = s.msg := rfl
@[simp] theorem State.setTap_env (x : TapMemory) (s : State) : (s.setTap x).env = s.env := rfl
@[simp] theorem State.setTap_port (x : TapMemory) (p : Port) (s : State) : (s.setTap x).port p = s.port p := by cases p <;> rfl

/-! ### setConv -/

@[simp] theorem State.setConv_params (x : ConvState) (s : State) : (s.setConv x).params = s.params := rfl
@[simp] theorem State.setConv_err (x : ConvState) (s : State) : (s.setConv x).err = s.err := rfl
@[simp] theorem State.setConv_time (x : ConvState) (s : State) : (s.setConv x).time = s.time := rfl
@[simp] theorem State.setConv_tSnapHi (x : ConvState) (s : State) : (s.setConv x).tSnapHi = s.tSnapHi := rfl
@[simp] theorem State.setConv_mod (x : ConvState) (s : State) : (s.setConv x).mod = s.mod := rfl
@[simp] theorem State.setConv_tap (x : ConvState) (s : State) : (s.setConv x).tap = s.tap := rfl
@[simp] theorem State.setConv_conv (x : ConvState) (s : State) : (s.setConv x).conv = x := rfl
@[simp] theorem State.setConv_out (x : ConvState) (s : State) : (s.setConv x).out = s.out := rfl
@[simp] theorem State.setConv_cmd (x : ConvState) (s : State) : (s.setConv x).cmd = s.cmd := rfl
@[simp] theorem State.setConv_msg (x : ConvState) (s : State) : (s.setConv x).msg = s.msg := rfl
@[simp] theorem State.setConv_env (x : ConvState) (s : State) : (s.setConv x).env = s.env := rfl
@[simp] theorem State.setConv_port (x : ConvState) (p : Port) (s : State) : (s.setConv x).port p = s.port p := by cases p <;> rfl

/-! ### setOut -/

@[simp] theorem State.setOut_params (x : OutPorts) (s : State) : (s.setOut x).params = s.params := rfl
@[simp] theorem State.setOut_err (x : OutPorts) (s : State) : (s.setOut x).err = s.err := rfl
@[simp] theorem State.setOut_time (x : OutPorts) (s : State) : (s.setOut x).time = s.time := rfl
@[simp] theorem State.setOut_tSnapHi (x : OutPorts) (s : State) : (s.setOut x).tSnapHi = s.tSnapHi := rfl
@[simp] theorem State.setOut_mod (x : OutPorts) (s : State) : (s.setOut x).mod = s.mod := rfl
@[simp] theorem State.setOut_tap (x : OutPorts) (s : State) : (s.setOut x).tap = s.tap := rfl
@[simp] theorem State.setOut_conv (x : OutPorts) (s : State) : (s.setOut x).conv = s.conv := rfl
@[simp] theorem State.setOut_out (x : OutPorts) (s : State) : (s.setOut x).out = x := rfl
@[simp] theorem State.setOut_cmd (x : OutPorts) (s : State) : (s.setOut x).cmd = s.cmd := rfl
@[simp] theorem State.setOut_msg (x : OutPorts) (s : State) : (s.setOut x).msg = s.msg := rfl
@[simp] theorem State.setOut_env (x : OutPorts) (s : State) : (s.setOut x).env = s.env := rfl
@[simp] theorem State.setOut_port (x : OutPorts) (p : Port) (s : State) : (s.setOut x).port p = s.port p := by cases p <;> rfl

/-! ### setEnv -/

@[simp] theorem State.setEnv_params (x : Env) (s : State) : (s.setEnv x).params = s.params := rfl
@[simp] theorem State.setEnv_err (x : Env) (s : State) : (s.setEnv x).err = s.err := rfl
@[simp] theorem State.setEnv_time (x : Env) (s : State) : (s.setEnv x).time = s.time := rfl
@[simp] theorem State.setEnv_tSnapHi (x : Env) (s : State) : (s.setEnv x).tSnapHi = s.tSnapHi := rfl
@[simp] theorem State.setEnv_mod (x : Env) (s : State) : (s.setEnv x).mod = s.mod := rfl
@[simp] theorem State.setEnv_tap (x : Env) (s : State) : (s.setEnv x).tap = s.tap := rfl
@[simp] theorem State.setEnv_conv (x : Env) (s : State) : (s.setEnv x).conv = s.conv := rfl
@[simp] theorem State.setEnv_out (x : Env) (s : State) : (s.setEnv x).out = s.out := rfl
@[simp] theorem State.setEnv_cmd (x : Env) (s : State) : (s.setEnv x).cmd = s.cmd := rfl
@[simp] theorem State.setEnv_msg (x : Env) (s : State) : (s.setEnv x).msg = s.msg := rfl
@[simp] theorem State.setEnv_env (x : Env) (s : State) : (s.setEnv x).env = x := rfl
@[simp] theorem State.setEnv_port (x : Env) (p : Port) (s : State) : (s.setEnv x).port p = s.port p := by cases p <;> rfl

/-! ### setPort -/

@[simp] theorem State.setPort_params (p : Port) (q : InPort) (s : State) : (s.setPort p q).params = s.params := by cases p <;> rfl
@[simp] theorem State.setPort_err (p : Port) (q : InPort) (s : State) : (s.setPort p q).err = s.err := by cases p <;> rfl
@[simp] theorem State.setPort_time (p : Port) (q : InPort) (s : State) : (s.setPort p q).time = s.time := by cases p <;> rfl
@[simp] theorem State.setPort_tSnapHi (p : Port) (q : InPort) (s : State) : (s.setPort p q).tSnapHi = s.tSnapHi := by cases p <;> rfl
@[simp] theorem State.setPort_mod (p : Port) (q : InPort) (s : State) : (s.setPort p q).mod = s.mod := by cases p <;> rfl
@[simp] theorem State.setPort_tap (p : Port) (q : InPort) (s : State) : (s.setPort p q).tap = s.tap := by cases p <;> rfl
@[simp] theorem State.setPort_conv (p : Port) (q : InPort) (s : State) : (s.setPort p q).conv = s.conv := by cases p <;> rfl
@[simp] theorem State.setPort_out (p : Port) (q : InPort) (s : State) : (s.setPort p q).out = s.out := by cases p <;> rfl
@[simp] theorem State.setPort_env (p : Port) (q : InPort) (s : State) : (s.setPort p q).env = s.env := by cases p <;> rfl
@[simp] theorem State.setPort_port_self (p : Port) (q : InPort) (s : State) : (s.setPort p q).port p = q := by
  cases p <;> rfl
theorem State.setPort_port_other (p r : Port) (q : InPort) (s : State) (h : r ≠ p) :
    (s.setPort p q).port r = s.port r := by
  cases p <;> cases r <;> first | rfl | exact absurd rfl h
@[simp] theorem State.setPort_cmd_cmd (q : InPort) (s : State) : (s.setPort .cmd q).cmd = q := rfl
@[simp] theorem State.setPort_cmd_msg (q : InPort) (s : State) : (s.setPort .cmd q).msg = s.msg := rfl
@[simp] theorem State.setPort_msg_cmd (q : InPort) (s : State) : (s.setPort .msg q).cmd = s.cmd := rfl
@[simp] theorem State.setPort_msg_msg (q : InPort) (s : State) : (s.setPort .msg q).msg = q := rfl
@[simp] theorem State.port_cmd (s : State) : s.port .cmd = s.cmd := rfl
@[simp] theorem State.port_msg (s : State) : s.port .msg = s.msg := rfl

end Sys2Proof.Machine
end

