-- ==== Sys2Proof/Laws/Arbiter.lean ====
section
/-! SUPPORT. The arbiter (20_memory.md R79): what a grant can be, that no agent loses more contests in a row than its
patience, and that the arbiters of the model admit every weakly fair interleaving and not only the finite ones. -/

namespace Sys2Proof.Machine

@[simp] theorem otherPort_cmd : otherPort .cmd = .msg := rfl
@[simp] theorem otherPort_msg : otherPort .msg = .cmd := rfl
@[simp] theorem otherPort_otherPort (p : Port) : otherPort (otherPort p) = p := by cases p <;> rfl

theorem eq_otherPort_of_ne {p q : Port} (h : q ≠ p) : q = otherPort p := by
  cases p <;> cases q <;> first | rfl | exact absurd rfl h

@[simp] theorem afterContest_grants (s : State) : (afterContest s).env.grants = s.env.grants.tail := rfl
@[simp] theorem afterContest_contests (s : State) : (afterContest s).env.contests = s.env.contests + 1 := rfl
@[simp] theorem afterContest_waiting (s : State) :
    (afterContest s).env.waiting = waitingAfter (nextGrant s) s.env.contests s.env.waiting := rfl
@[simp] theorem afterLoneMove_waiting (s : State) : (afterLoneMove s).env.waiting = none := rfl

/-- Which agent a contest goes to. -/
theorem nextGrant_cases (s : State) :
    (∃ p later, s.env.grants = p :: later ∧ nextGrant s = p) ∨
    (s.env.grants = [] ∧
      nextGrant s = grantBy Config.arbiterPicksMsg Config.arbiterPatience s.env.waiting s.env.contests) := by
  unfold nextGrant
  cases s.env.grants with
  | nil => exact .inr ⟨rfl, rfl⟩
  | cons p later => exact .inl ⟨p, later, rfl, rfl⟩

/-- An agent whose patience is used up wins the contest. -/
theorem grantBy_patience {picksMsg : Nat → Bool} {patience : Nat → Nat} {w : Waiting} {n : Nat}
    (h : patience w.since < n - w.since) : grantBy picksMsg patience (some w) n = w.port := by
  simp [grantBy, h]

/-- Otherwise the contest goes to the agent picked. -/
theorem grantBy_picked {picksMsg : Nat → Bool} {patience : Nat → Nat} {waiting : Option Waiting} {n : Nat}
    (h : ∀ w, waiting = some w → n - w.since ≤ patience w.since) :
    grantBy picksMsg patience waiting n = if picksMsg n then .msg else .cmd := by
  cases waiting with
  | none => rfl
  | some w => simp [grantBy, Nat.not_lt.2 (h w rfl)]

/-- The loser of a contest waits: from this contest on, or from the one it has waited since. -/
theorem waitingAfter_cases (winner : Port) (n : Nat) (waiting : Option Waiting) :
    waitingAfter winner n waiting = some { port := otherPort winner, since := n } ∨
    ∃ w, waiting = some w ∧ w.port = otherPort winner ∧ waitingAfter winner n waiting = some w := by
  cases waiting with
  | none => exact .inl rfl
  | some w =>
    by_cases h : w.port = winner
    · exact .inl (by simp [waitingAfter, h])
    · exact .inr ⟨w, rfl, eq_otherPort_of_ne h, by simp [waitingAfter, h]⟩

/-! ### Every weakly fair schedule is some arbiter's -/

/-- A schedule: at move `k` the agent of port `mover k` moves, with the other agent having a step too or not. -/
structure Schedule where
  mover : Nat → Port
  contested : Nat → Bool

/-- How many contests there were before move `k`. -/
def Schedule.contests (c : Schedule) : Nat → Nat
  | 0 => 0
  | k + 1 => c.contests k + (if c.contested k then 1 else 0)

/-- Who waits before move `k`, as the machine keeps it. -/
def Schedule.waiting (c : Schedule) : Nat → Option Waiting
  | 0 => none
  | k + 1 => if c.contested k then waitingAfter (c.mover k) (c.contests k) (c.waiting k) else none

/-- The loser of every contest moves eventually. -/
def Schedule.Fair (c : Schedule) : Prop :=
  ∀ k, c.contested k = true → ∃ j, k < j ∧ c.mover j = otherPort (c.mover k)

theorem Schedule.contests_mono (c : Schedule) : Monotone c.contests :=
  monotone_nat_of_le_succ fun k => by simp [Schedule.contests]

/-- Contests are numbered one by one. -/
theorem Schedule.contests_inj (c : Schedule) {j k : Nat} (hj : c.contested j = true) (hk : c.contested k = true)
    (h : c.contests j = c.contests k) : j = k := by
  have lt : ∀ {a b : Nat}, c.contested a = true → a < b → c.contests a < c.contests b := fun {a b} ha hab => by
    have h1 : c.contests (a + 1) = c.contests a + 1 := by simp [Schedule.contests, ha]
    have h2 := c.contests_mono (show a + 1 ≤ b from hab)
    omega
  rcases Nat.lt_trichotomy j k with hlt | he | hgt
  · exact absurd h (Nat.ne_of_lt (lt hj hlt))
  · exact he
  · exact absurd h.symm (Nat.ne_of_lt (lt hk hgt))

/-- An agent that waits lost the contest it waits since, and has not moved since then. -/
theorem Schedule.waiting_spec (c : Schedule) {k : Nat} {w : Waiting} (h : c.waiting k = some w) :
    ∃ i < k, c.contested i = true ∧ c.contests i = w.since ∧ otherPort (c.mover i) = w.port ∧
      ∀ j, i < j → j < k → c.mover j ≠ w.port := by
  induction k generalizing w with
  | zero => simp [Schedule.waiting] at h
  | succ k ih =>
    cases hc : c.contested k with
    | false => simp [Schedule.waiting, hc] at h
    | true =>
      simp only [Schedule.waiting, hc, if_true] at h
      rcases waitingAfter_cases (c.mover k) (c.contests k) (c.waiting k) with hn | ⟨v, hv, hp, ho⟩
      · rw [hn] at h
        cases h
        exact ⟨k, Nat.lt_succ_self k, hc, rfl, rfl, fun j h1 h2 => by omega⟩
      · rw [ho] at h
        cases h
        obtain ⟨i, hi, h1, h2, h3, h4⟩ := ih hv
        refine ⟨i, by omega, h1, h2, h3, fun j hij hjk => ?_⟩
        rcases Nat.lt_or_ge j k with hlt | hge
        · exact h4 j hij hlt
        · rw [show j = k by omega, hp]
          cases c.mover k <;> simp

/-- THE MODEL ADMITS EVERY WEAKLY FAIR INTERLEAVING: some picks and some patience grant every contest of a fair schedule
as it goes. -/
theorem Schedule.admitted (c : Schedule) (hfair : c.Fair) :
    ∃ (picksMsg : Nat → Bool) (patience : Nat → Nat), ∀ k, c.contested k = true →
      grantBy picksMsg patience (c.waiting k) (c.contests k) = c.mover k := by
  classical
  -- a patience that lasts until the loser's next move
  have hpat : ∀ n, ∃ b, ∀ i, c.contested i = true → c.contests i = n →
      ∃ j, i < j ∧ c.mover j = otherPort (c.mover i) ∧ c.contests j - n ≤ b := by
    intro n
    by_cases hex : ∃ i, c.contested i = true ∧ c.contests i = n
    · obtain ⟨i, hi, hn⟩ := hex
      obtain ⟨j, hij, hj⟩ := hfair i hi
      refine ⟨c.contests j - n, fun i' hi' hn' => ?_⟩
      rw [c.contests_inj hi' hi (hn'.trans hn.symm)]
      exact ⟨j, hij, hj, Nat.le_refl _⟩
    · exact ⟨0, fun i hi hn => absurd ⟨i, hi, hn⟩ hex⟩
  choose patience hpatience using hpat
  refine ⟨fun n => decide (∃ i, c.contested i = true ∧ c.contests i = n ∧ c.mover i = .msg), patience, fun k hk => ?_⟩
  rw [grantBy_picked]
  · by_cases hm : c.mover k = .msg
    · rw [if_pos (decide_eq_true ⟨k, hk, rfl, hm⟩), hm]
    · rw [if_neg, eq_otherPort_of_ne hm, otherPort_msg]
      rw [decide_eq_true_eq]
      rintro ⟨i, hi, hn, hi'⟩
      exact hm (c.contests_inj hi hk hn ▸ hi')
  · intro w hw
    obtain ⟨i, -, hi, hn, hp, hnot⟩ := c.waiting_spec hw
    obtain ⟨j, hij, hj, hb⟩ := hpatience w.since i hi hn
    rcases Nat.lt_or_ge j k with hlt | hge
    · exact absurd (hj.trans hp) (hnot j hij hlt)
    · have := c.contests_mono hge
      omega

end Sys2Proof.Machine
end

