-- ==== Sys2Proof/Laws/Binary32.lean ====
section
/-! SUPPORT. binary32: rounding a quotient to the nearest natural, the real a word denotes in units of 2^-149, and
rounding between two reals that round to the same word. -/

namespace Sys2Proof.Machine

open Sys2Proof.Reference

/-! ### rneDiv -/

/-- The quotient is rounded down or up. -/
theorem rneDiv_cases (n d : Nat) : rneDiv n d = n / d ∨ rneDiv n d = n / d + 1 := by
  unfold rneDiv
  split <;> simp

/-- The rounded quotient is within half a unit: 2·n lies within d of 2·d·rneDiv. -/
theorem rneDiv_near (n : Nat) {d : Nat} (hd : 0 < d) :
    2 * n ≤ 2 * (d * rneDiv n d) + d ∧ 2 * (d * rneDiv n d) ≤ 2 * n + d := by
  have h := Nat.div_add_mod n d
  have hlt := Nat.mod_lt n hd
  unfold rneDiv
  split
  · rename_i hc
    rw [Nat.mul_add, Nat.mul_one]
    omega
  · rename_i hc
    rw [not_or] at hc
    omega

/-- A tie goes to the even natural. -/
theorem rneDiv_tie {n d : Nat} (hd : 0 < d) (h : 2 * n = 2 * (d * rneDiv n d) + d ∨ 2 * (d * rneDiv n d) = 2 * n + d) :
    rneDiv n d % 2 = 0 := by
  have h1 := Nat.div_add_mod n d
  have hlt := Nat.mod_lt n hd
  unfold rneDiv at *
  split
  · rename_i hc
    rw [if_pos hc, Nat.mul_add, Nat.mul_one] at h
    omega
  · rename_i hc
    rw [if_neg hc] at h
    rw [not_or, not_and] at hc
    omega

/-- A quotient that is a natural stays. -/
@[simp] theorem rneDiv_mul (m : Nat) {d : Nat} (hd : 0 < d) : rneDiv (m * d) d = m := by
  unfold rneDiv
  rw [Nat.mul_mod_left, Nat.mul_div_cancel m hd, if_neg (by omega)]

/-- Rounding keeps order. -/
theorem rneDiv_mono {n m d : Nat} (h : n ≤ m) : rneDiv n d ≤ rneDiv m d := by
  have hdiv := Nat.div_le_div_right (c := d) h
  rcases Nat.lt_or_ge (n / d) (m / d) with hlt | hge
  · rcases rneDiv_cases n d with h1 | h1 <;> rcases rneDiv_cases m d with h2 | h2 <;> omega
  · have he : n / d = m / d := by omega
    have h1 := Nat.div_add_mod n d
    have h2 := Nat.div_add_mod m d
    rw [he] at h1
    have hmod : n % d ≤ m % d := by omega
    unfold rneDiv
    rw [he]
    split
    · split
      · exact Nat.le_refl _
      · omega
    · split <;> omega

/-! ### The real a word denotes -/

/-- The magnitude of a word, subnormal or normal, in units of 2^-149. -/
theorem mag_eq (w : Word) :
    (if (w.extractLsb' 23 8).toNat = 0 then ((w.extractLsb' 0 23).toNat : ℝ) * 2 ^ (-149 : ℤ)
      else (2 ^ 23 + ((w.extractLsb' 0 23).toNat : ℝ)) * 2 ^ (((w.extractLsb' 23 8).toNat : ℤ) - 150)) =
    (f32Mag w : ℝ) / 2 ^ 149 := by
  unfold f32Mag f32Exp f32Frac
  split
  · rw [zpow_neg]
    norm_cast
  · rename_i h
    obtain ⟨e, he⟩ : ∃ e, (w.extractLsb' 23 8).toNat = e + 1 := ⟨_, (Nat.succ_pred h).symm⟩
    rw [he, show (((e + 1 : ℕ) : ℤ) - 150) = (e : ℤ) - ((149 : ℕ) : ℤ) by push_cast; ring,
      zpow_sub₀ (by norm_num : (2 : ℝ) ≠ 0), zpow_natCast, zpow_natCast, Nat.add_sub_cancel]
    push_cast
    ring

/-- The real of a word is its sign times its magnitude in units of 2^-149. -/
theorem val_eq (w : Word) : val w = (if f32Neg w then -1 else 1) * ((f32Mag w : ℝ) / 2 ^ 149) := by
  unfold val f32Neg
  rw [mag_eq]

/-! ### Rounding -/

/-- A real between two reals that round to a word rounds to it. -/
theorem isRne32_between {w : Word} {a b r : ℝ} (ha : IsRne32 w a) (hb : IsRne32 w b) (har : a ≤ r) (hrb : r ≤ b) :
    IsRne32 w r := by
  obtain ⟨hf, ha1, ha2, ha3, ha4⟩ := ha
  obtain ⟨-, hb1, hb2, hb3, hb4⟩ := hb
  have key : ∀ v : Word, Finite v → |val w - r| ≤ |val v - r| := by
    intro v hv
    have h1 := sq_le_sq.2 (ha1 v hv)
    have h2 := sq_le_sq.2 (hb1 v hv)
    apply sq_le_sq.1
    rcases le_total (val v) (val w) with h | h <;> nlinarith
  refine ⟨hf, key, fun v hv hne htie => ?_, fun h => hb3 (lt_of_lt_of_le h hrb), fun h => ha4 (lt_of_le_of_lt har h)⟩
  have h1 := sq_le_sq.2 (ha1 v hv)
  have h2 := sq_le_sq.2 (hb1 v hv)
  have h3 : (val v - r) ^ 2 = (val w - r) ^ 2 := by
    rw [← sq_abs (val v - r), ← sq_abs (val w - r), htie]
  have h4 : (val v - val w) * (val v + val w - 2 * r) = 0 := by nlinarith
  have h5 : val v + val w = 2 * r := by
    rcases mul_eq_zero.1 h4 with h | h
    · exact absurd (sub_eq_zero.1 h) hne
    · linarith
  rcases lt_or_gt_of_ne hne with h | h
  · have : r ≤ a := by nlinarith
    have e : r = a := le_antisymm this har
    exact ha2 v hv hne (by rw [← e]; exact htie)
  · have : b ≤ r := by nlinarith
    have e : r = b := le_antisymm hrb this
    exact hb2 v hv hne (by rw [← e]; exact htie)

end Sys2Proof.Machine
end

