-- ==== Sys2Proof/Laws/Ops.lean ====
section
/-! SUPPORT. What each shared operation does, said once: emitting, drawing TIME, raising and clearing errors, the clears
and the resets, field by field. -/

namespace Sys2Proof.Machine

/-! ### emitRsp -/

@[simp] theorem emitRsp_params (ws : List Word) (s : State) : (emitRsp ws s).params = s.params := rfl
@[simp] theorem emitRsp_err (ws : List Word) (s : State) : (emitRsp ws s).err = s.err := rfl
@[simp] theorem emitRsp_time (ws : List Word) (s : State) : (emitRsp ws s).time = s.time := rfl
@[simp] theorem emitRsp_tSnapHi (ws : List Word) (s : State) : (emitRsp ws s).tSnapHi = s.tSnapHi := rfl
@[simp] theorem emitRsp_mod (ws : List Word) (s : State) : (emitRsp ws s).mod = s.mod := rfl
@[simp] theorem emitRsp_tap (ws : List Word) (s : State) : (emitRsp ws s).tap = s.tap := rfl
@[simp] theorem emitRsp_conv (ws : List Word) (s : State) : (emitRsp ws s).conv = s.conv := rfl
@[simp] theorem emitRsp_out (ws : List Word) (s : State) : (emitRsp ws s).out = { s.out with rsp := s.out.rsp ++ ws } := rfl
@[simp] theorem emitRsp_cmd (ws : List Word) (s : State) : (emitRsp ws s).cmd = s.cmd := rfl
@[simp] theorem emitRsp_msg (ws : List Word) (s : State) : (emitRsp ws s).msg = s.msg := rfl
@[simp] theorem emitRsp_env (ws : List Word) (s : State) : (emitRsp ws s).env = s.env := rfl

/-! ### emitSamples -/

@[simp] theorem emitSamples_params (xs : List Sample) (s : State) : (emitSamples xs s).params = s.params := rfl
@[simp] theorem emitSamples_err (xs : List Sample) (s : State) : (emitSamples xs s).err = s.err := rfl
@[simp] theorem emitSamples_time (xs : List Sample) (s : State) : (emitSamples xs s).time = s.time := rfl
@[simp] theorem emitSamples_tSnapHi (xs : List Sample) (s : State) : (emitSamples xs s).tSnapHi = s.tSnapHi := rfl
@[simp] theorem emitSamples_mod (xs : List Sample) (s : State) : (emitSamples xs s).mod = s.mod := rfl
@[simp] theorem emitSamples_tap (xs : List Sample) (s : State) : (emitSamples xs s).tap = s.tap := rfl
@[simp] theorem emitSamples_conv (xs : List Sample) (s : State) : (emitSamples xs s).conv = s.conv := rfl
@[simp] theorem emitSamples_out (xs : List Sample) (s : State) : (emitSamples xs s).out = { s.out with samples := s.out.samples ++ xs } := rfl
@[simp] theorem emitSamples_cmd (xs : List Sample) (s : State) : (emitSamples xs s).cmd = s.cmd := rfl
@[simp] theorem emitSamples_msg (xs : List Sample) (s : State) : (emitSamples xs s).msg = s.msg := rfl
@[simp] theorem emitSamples_env (xs : List Sample) (s : State) : (emitSamples xs s).env = s.env := rfl

/-! ### emitBytes -/

@[simp] theorem emitBytes_params (bs : List Byte) (s : State) : (emitBytes bs s).params = s.params := rfl
@[simp] theorem emitBytes_err (bs : List Byte) (s : State) : (emitBytes bs s).err = s.err := rfl
@[simp] theorem emitBytes_time (bs : List Byte) (s : State) : (emitBytes bs s).time = s.time := rfl
@[simp] theorem emitBytes_tSnapHi (bs : List Byte) (s : State) : (emitBytes bs s).tSnapHi = s.tSnapHi := rfl
@[simp] theorem emitBytes_mod (bs : List Byte) (s : State) : (emitBytes bs s).mod = s.mod := rfl
@[simp] theorem emitBytes_tap (bs : List Byte) (s : State) : (emitBytes bs s).tap = s.tap := rfl
@[simp] theorem emitBytes_conv (bs : List Byte) (s : State) : (emitBytes bs s).conv = s.conv := rfl
@[simp] theorem emitBytes_out (bs : List Byte) (s : State) : (emitBytes bs s).out = { s.out with bytes := s.out.bytes ++ bs } := rfl
@[simp] theorem emitBytes_cmd (bs : List Byte) (s : State) : (emitBytes bs s).cmd = s.cmd := rfl
@[simp] theorem emitBytes_msg (bs : List Byte) (s : State) : (emitBytes bs s).msg = s.msg := rfl
@[simp] theorem emitBytes_env (bs : List Byte) (s : State) : (emitBytes bs s).env = s.env := rfl

/-! ### emitTags -/

@[simp] theorem emitTags_params (ts : List Tag) (s : State) : (emitTags ts s).params = s.params := rfl
@[simp] theorem emitTags_err (ts : List Tag) (s : State) : (emitTags ts s).err = s.err := rfl
@[simp] theorem emitTags_time (ts : List Tag) (s : State) : (emitTags ts s).time = s.time := rfl
@[simp] theorem emitTags_tSnapHi (ts : List Tag) (s : State) : (emitTags ts s).tSnapHi = s.tSnapHi := rfl
@[simp] theorem emitTags_mod (ts : List Tag) (s : State) : (emitTags ts s).mod = s.mod := rfl
@[simp] theorem emitTags_tap (ts : List Tag) (s : State) : (emitTags ts s).tap = s.tap := rfl
@[simp] theorem emitTags_conv (ts : List Tag) (s : State) : (emitTags ts s).conv = s.conv := rfl
@[simp] theorem emitTags_out (ts : List Tag) (s : State) : (emitTags ts s).out = { s.out with tags := s.out.tags ++ ts } := rfl
@[simp] theorem emitTags_cmd (ts : List Tag) (s : State) : (emitTags ts s).cmd = s.cmd := rfl
@[simp] theorem emitTags_msg (ts : List Tag) (s : State) : (emitTags ts s).msg = s.msg := rfl
@[simp] theorem emitTags_env (ts : List Tag) (s : State) : (emitTags ts s).env = s.env := rfl

/-! ### raiseError -/

@[simp] theorem raiseError_params (e : ErrorCode) (hdr : Word) (n : Nat) (s : State) : (raiseError e hdr n s).params = s.params := rfl
@[simp] theorem raiseError_err (e : ErrorCode) (hdr : Word) (n : Nat) (s : State) : (raiseError e hdr n s).err = recordError e hdr s.err := rfl
@[simp] theorem raiseError_time (e : ErrorCode) (hdr : Word) (n : Nat) (s : State) : (raiseError e hdr n s).time = s.time := rfl
@[simp] theorem raiseError_tSnapHi (e : ErrorCode) (hdr : Word) (n : Nat) (s : State) : (raiseError e hdr n s).tSnapHi = s.tSnapHi := rfl
@[simp] theorem raiseError_mod (e : ErrorCode) (hdr : Word) (n : Nat) (s : State) : (raiseError e hdr n s).mod = s.mod := rfl
@[simp] theorem raiseError_tap (e : ErrorCode) (hdr : Word) (n : Nat) (s : State) : (raiseError e hdr n s).tap = s.tap := rfl
@[simp] theorem raiseError_conv (e : ErrorCode) (hdr : Word) (n : Nat) (s : State) : (raiseError e hdr n s).conv = s.conv := rfl
@[simp] theorem raiseError_out (e : ErrorCode) (hdr : Word) (n : Nat) (s : State) : (raiseError e hdr n s).out = { s.out with rsp := s.out.rsp ++ List.replicate n 0x00000000#32 } := rfl
@[simp] theorem raiseError_cmd (e : ErrorCode) (hdr : Word) (n : Nat) (s : State) : (raiseError e hdr n s).cmd = s.cmd := rfl
@[simp] theorem raiseError_msg (e : ErrorCode) (hdr : Word) (n : Nat) (s : State) : (raiseError e hdr n s).msg = s.msg := rfl
@[simp] theorem raiseError_env (e : ErrorCode) (hdr : Word) (n : Nat) (s : State) : (raiseError e hdr n s).env = s.env := rfl

/-! ### raiseIn -/

@[simp] theorem raiseIn_params (e : ErrorCode) (i : Instr) (s : State) : (raiseIn e i s).params = s.params := rfl
@[simp] theorem raiseIn_err (e : ErrorCode) (i : Instr) (s : State) : (raiseIn e i s).err = recordError e i.header s.err := rfl
@[simp] theorem raiseIn_time (e : ErrorCode) (i : Instr) (s : State) : (raiseIn e i s).time = s.time := rfl
@[simp] theorem raiseIn_tSnapHi (e : ErrorCode) (i : Instr) (s : State) : (raiseIn e i s).tSnapHi = s.tSnapHi := rfl
@[simp] theorem raiseIn_mod (e : ErrorCode) (i : Instr) (s : State) : (raiseIn e i s).mod = s.mod := rfl
@[simp] theorem raiseIn_tap (e : ErrorCode) (i : Instr) (s : State) : (raiseIn e i s).tap = s.tap := rfl
@[simp] theorem raiseIn_conv (e : ErrorCode) (i : Instr) (s : State) : (raiseIn e i s).conv = s.conv := rfl
@[simp] theorem raiseIn_out (e : ErrorCode) (i : Instr) (s : State) : (raiseIn e i s).out = { s.out with rsp := s.out.rsp ++ List.replicate i.rspWords 0x00000000#32 } := rfl
@[simp] theorem raiseIn_cmd (e : ErrorCode) (i : Instr) (s : State) : (raiseIn e i s).cmd = s.cmd := rfl
@[simp] theorem raiseIn_msg (e : ErrorCode) (i : Instr) (s : State) : (raiseIn e i s).msg = s.msg := rfl
@[simp] theorem raiseIn_env (e : ErrorCode) (i : Instr) (s : State) : (raiseIn e i s).env = s.env := rfl

/-! ### clearErrors -/

@[simp] theorem clearErrors_params (s : State) : (clearErrors s).params = s.params := rfl
@[simp] theorem clearErrors_err (s : State) : (clearErrors s).err = ErrState.initial := rfl
@[simp] theorem clearErrors_time (s : State) : (clearErrors s).time = s.time := rfl
@[simp] theorem clearErrors_tSnapHi (s : State) : (clearErrors s).tSnapHi = s.tSnapHi := rfl
@[simp] theorem clearErrors_mod (s : State) : (clearErrors s).mod = s.mod := rfl
@[simp] theorem clearErrors_tap (s : State) : (clearErrors s).tap = s.tap := rfl
@[simp] theorem clearErrors_conv (s : State) : (clearErrors s).conv = s.conv := rfl
@[simp] theorem clearErrors_out (s : State) : (clearErrors s).out = s.out := rfl
@[simp] theorem clearErrors_cmd (s : State) : (clearErrors s).cmd = s.cmd := rfl
@[simp] theorem clearErrors_msg (s : State) : (clearErrors s).msg = s.msg := rfl
@[simp] theorem clearErrors_env (s : State) : (clearErrors s).env = s.env := rfl

/-! ### modClear -/

@[simp] theorem modClear_params (s : State) : (modClear s).params = s.params := rfl
@[simp] theorem modClear_err (s : State) : (modClear s).err = s.err := rfl
@[simp] theorem modClear_time (s : State) : (modClear s).time = s.time := rfl
@[simp] theorem modClear_tSnapHi (s : State) : (modClear s).tSnapHi = s.tSnapHi := rfl
@[simp] theorem modClear_mod (s : State) : (modClear s).mod = ModState.initial := rfl
@[simp] theorem modClear_tap (s : State) : (modClear s).tap = s.tap := rfl
@[simp] theorem modClear_conv (s : State) : (modClear s).conv = s.conv := rfl
@[simp] theorem modClear_out (s : State) : (modClear s).out = s.out := rfl
@[simp] theorem modClear_cmd (s : State) : (modClear s).cmd = s.cmd := rfl
@[simp] theorem modClear_msg (s : State) : (modClear s).msg = s.msg := rfl
@[simp] theorem modClear_env (s : State) : (modClear s).env = s.env := rfl

/-! ### convClear -/

@[simp] theorem convClear_params (s : State) : (convClear s).params = s.params := rfl
@[simp] theorem convClear_err (s : State) : (convClear s).err = s.err := rfl
@[simp] theorem convClear_time (s : State) : (convClear s).time = s.time := rfl
@[simp] theorem convClear_tSnapHi (s : State) : (convClear s).tSnapHi = s.tSnapHi := rfl
@[simp] theorem convClear_mod (s : State) : (convClear s).mod = s.mod := rfl
@[simp] theorem convClear_tap (s : State) : (convClear s).tap = s.tap := rfl
@[simp] theorem convClear_conv (s : State) : (convClear s).conv = ConvState.initial := rfl
@[simp] theorem convClear_out (s : State) : (convClear s).out = s.out := rfl
@[simp] theorem convClear_cmd (s : State) : (convClear s).cmd = s.cmd := rfl
@[simp] theorem convClear_msg (s : State) : (convClear s).msg = s.msg := rfl
@[simp] theorem convClear_env (s : State) : (convClear s).env = s.env := rfl

/-! ### tapForget -/

@[simp] theorem tapForget_params (s : State) : (tapForget s).params = s.params := rfl
@[simp] theorem tapForget_err (s : State) : (tapForget s).err = s.err := rfl
@[simp] theorem tapForget_time (s : State) : (tapForget s).time = s.time := rfl
@[simp] theorem tapForget_tSnapHi (s : State) : (tapForget s).tSnapHi = s.tSnapHi := rfl
@[simp] theorem tapForget_mod (s : State) : (tapForget s).mod = s.mod := rfl
@[simp] theorem tapForget_tap (s : State) : (tapForget s).tap = tapFill (Config.unspecifiedTap s.env.tapEpoch) s.params.nMax 0 := rfl
@[simp] theorem tapForget_conv (s : State) : (tapForget s).conv = s.conv := rfl
@[simp] theorem tapForget_out (s : State) : (tapForget s).out = s.out := rfl
@[simp] theorem tapForget_cmd (s : State) : (tapForget s).cmd = s.cmd := rfl
@[simp] theorem tapForget_msg (s : State) : (tapForget s).msg = s.msg := rfl
@[simp] theorem tapForget_env (s : State) : (tapForget s).env = { s.env with tapEpoch := s.env.tapEpoch + 1 } := rfl

/-! ### softReset -/

@[simp] theorem softReset_params (s : State) : (softReset s).params = s.params := rfl
@[simp] theorem softReset_err (s : State) : (softReset s).err = ErrState.initial := rfl
@[simp] theorem softReset_time (s : State) : (softReset s).time = s.time := rfl
@[simp] theorem softReset_tSnapHi (s : State) : (softReset s).tSnapHi = 0#32 := rfl
@[simp] theorem softReset_mod (s : State) : (softReset s).mod = ModState.initial := rfl
@[simp] theorem softReset_tap (s : State) : (softReset s).tap = tapFill (Config.unspecifiedTap s.env.tapEpoch) s.params.nMax 0 := rfl
@[simp] theorem softReset_conv (s : State) : (softReset s).conv = ConvState.initial := rfl
@[simp] theorem softReset_out (s : State) : (softReset s).out = s.out := rfl
@[simp] theorem softReset_cmd (s : State) : (softReset s).cmd = s.cmd := rfl
@[simp] theorem softReset_msg (s : State) : (softReset s).msg = s.msg := rfl
@[simp] theorem softReset_env (s : State) : (softReset s).env = { s.env with tapEpoch := s.env.tapEpoch + 1 } := rfl

/-! ### drawTime -/

/-- A draw that answers: TIME has advanced by the environment's or the free amount, without passing 2^64 - 1, and the
value read is the new TIME; nothing else changes but the model's own counters. -/
theorem drawTime_eq_some {s t : State} {v : BitVec 64} (h : drawTime s = some (v, t)) :
    v.toNat = s.time.toNat + nextAdvance s ∧
      t = (s.setTime v).setEnv { s.env with advances := s.env.advances.tail, draws := s.env.draws + 1 } := by
  unfold drawTime at h
  split at h
  · rename_i hlt
    simp only [Option.some.injEq, Prod.mk.injEq] at h
    obtain ⟨rfl, rfl⟩ := h
    exact ⟨by simpa using Nat.mod_eq_of_lt hlt, rfl⟩
  · cases h

/-- A draw is refused exactly when TIME would pass 2^64 - 1. -/
theorem drawTime_eq_none {s : State} : drawTime s = none ↔ 2 ^ 64 ≤ s.time.toNat + nextAdvance s := by
  unfold drawTime
  split <;> simp <;> omega

/-- A draw that does not wrap answers. -/
theorem drawTime_of_lt {s : State} (h : s.time.toNat + nextAdvance s < 2 ^ 64) :
    drawTime s = some (BitVec.ofNat 64 (s.time.toNat + nextAdvance s),
      (s.setTime (BitVec.ofNat 64 (s.time.toNat + nextAdvance s))).setEnv
        { s.env with advances := s.env.advances.tail, draws := s.env.draws + 1 }) := by
  unfold drawTime
  rw [if_pos h]

/-! ### recordError -/

/-- Every error is counted (60_exceptions.md R223). -/
@[simp] theorem recordError_count (e : ErrorCode) (hdr : Word) (x : ErrState) :
    (recordError e hdr x).count = x.count + 1#32 := by
  unfold recordError
  split <;> rfl

/-- ERR is 1 after any error. -/
@[simp] theorem recordError_err (e : ErrorCode) (hdr : Word) (x : ErrState) : (recordError e hdr x).err = true := by
  unfold recordError
  split
  · assumption
  · rfl

/-- The first error is recorded. -/
theorem recordError_first (e : ErrorCode) (hdr : Word) {x : ErrState} (h : x.err = false) :
    recordError e hdr x = { err := true, cause := e.code, info := hdr, count := x.count + 1#32 } := by
  unfold recordError
  simp [h]

/-- A later error is only counted. -/
theorem recordError_later (e : ErrorCode) (hdr : Word) {x : ErrState} (h : x.err = true) :
    recordError e hdr x = { x with count := x.count + 1#32 } := by
  unfold recordError
  simp [h]

end Sys2Proof.Machine
end

