-- ==== Sys2Proof/Laws/Converter.lean ====
section
/-! SUPPORT. MSG.DELIVER and the loop of CONV.REQUEST: what each pass and the whole loop can do, said once. -/

namespace Sys2Proof.Machine

/-- What no pass of the loop writes: the configuration, the timestamp, the written-item count and the message counters. -/
def ConvState.SameBase (c c' : ConvState) : Prop :=
  c' = { c with
    queue := c'.queue, curValid := c'.curValid, cur := c'.cur, pos := c'.pos, tagOff := c'.tagOff, tagCnt := c'.tagCnt }

theorem ConvState.SameBase.refl (c : ConvState) : c.SameBase c := rfl

theorem ConvState.SameBase.trans {a b c : ConvState} (h : a.SameBase b) (k : b.SameBase c) : a.SameBase c := by
  unfold ConvState.SameBase at *
  rw [k, h]

/-- A message changes the queue or one counter (42_converter.md R171). -/
theorem deliverTo_sameConfig (p : Params) (kind : BitVec 4) (len : Nat) (bytes : List Byte) (c : ConvState) :
    deliverTo p kind len bytes c = { c with
      queue := (deliverTo p kind len bytes c).queue
      msgOk := (deliverTo p kind len bytes c).msgOk
      dropMalformed := (deliverTo p kind len bytes c).dropMalformed
      dropFull := (deliverTo p kind len bytes c).dropFull
      dropLong := (deliverTo p kind len bytes c).dropLong } := by
  unfold deliverTo
  repeat' split
  all_goals rfl

/-- The queue after a message: as before, or one PDU longer where there was room and the PDU fits. -/
theorem deliverTo_queue (p : Params) (kind : BitVec 4) (len : Nat) (bytes : List Byte) (c : ConvState) :
    (deliverTo p kind len bytes c).queue = c.queue ∨
      (len ≤ p.pduMax ∧ c.queue.length ≠ p.qDepth ∧ (deliverTo p kind len bytes c).queue = c.queue ++ [bytes]) := by
  unfold deliverTo
  split
  · exact .inl rfl
  · split
    · exact .inl rfl
    · split
      · exact .inl rfl
      · exact .inr ⟨by omega, by assumption, rfl⟩

/-! ### The parts of a pass -/

/-- Step 2a (42_converter.md R181). -/
theorem clearExhausted_cases (c : ConvState) :
    (c.curValid = true ∧ c.pos.toNat = c.cur.length ∧
      clearExhausted c = { c with curValid := false, cur := [], pos := 0#20 }) ∨
    (¬ (c.curValid = true ∧ c.pos.toNat = c.cur.length) ∧ clearExhausted c = c) := by
  unfold clearExhausted
  split
  · rename_i h
    exact .inl ⟨h.1, h.2, rfl⟩
  · rename_i h
    exact .inr ⟨h, rfl⟩

/-- Step 2b (42_converter.md R182). -/
theorem popPdu_cases (produced : Nat) (c : ConvState) :
    (c.curValid = true ∧ popPdu produced c = c) ∨
    (c.curValid = false ∧ c.queue = [] ∧ popPdu produced c = c) ∨
    ∃ pdu rest, c.curValid = false ∧ c.queue = pdu :: rest ∧
      popPdu produced c =
        { c with queue := rest, cur := pdu, curValid := true, pos := 0#20, tagOff := BitVec.ofNat 24 produced } := by
  unfold popPdu
  cases hv : c.curValid
  · simp only [Bool.false_eq_true, if_false, false_and, false_or, true_and]
    cases hq : c.queue with
    | nil => exact .inl ⟨rfl, rfl⟩
    | cons pdu rest => exact .inr ⟨pdu, rest, rfl, rfl⟩
  · exact .inl ⟨rfl, by simp⟩

theorem clearExhausted_sameBase (c : ConvState) : c.SameBase (clearExhausted c) := by
  rcases clearExhausted_cases c with ⟨-, -, h⟩ | ⟨-, h⟩ <;> rw [h] <;> rfl

theorem popPdu_sameBase (produced : Nat) (c : ConvState) : c.SameBase (popPdu produced c) := by
  rcases popPdu_cases produced c with ⟨-, h⟩ | ⟨-, -, h⟩ | ⟨pdu, rest, -, -, h⟩ <;> rw [h] <;> rfl

/-- Step 2c emits no more than is left of the budget and of the PDU (42_converter.md R183). -/
theorem chunkOf_le (left : Nat) (c : ConvState) : chunkOf left c ≤ left ∧ chunkOf left c ≤ c.cur.length - c.pos.toNat := by
  unfold chunkOf
  split <;> omega

/-! ### The loop -/

/-- With the budget emitted the loop is over. -/
theorem drain_done {base : BitVec 64} {b produced : Nat} {c : ConvState} (fuel : Nat) (h : b ≤ produced) :
    drain base b fuel produced c = ⟨c, [], []⟩ := by
  cases fuel with
  | zero => rfl
  | succ fuel => simp [drain, Nat.not_lt.2 h]

/-- A pass with nothing to copy pads the rest of the budget (42_converter.md R187). -/
theorem drain_pad {base : BitVec 64} {b produced : Nat} {c : ConvState} (fuel : Nat) (hb : produced < b)
    (h : chunkOf (b - produced) (popPdu produced (clearExhausted c)) = 0) :
    drain base b (fuel + 1) produced c =
      ⟨popPdu produced (clearExhausted c), List.replicate (b - produced) padByte, []⟩ := by
  simp [drain, hb, h]

/-- A pass that copies: its bytes, its tag if it begins the PDU, and the passes after it (42_converter.md R184, R185). -/
theorem drain_copy {base : BitVec 64} {b produced : Nat} {c c1 : ConvState} (fuel : Nat) (hb : produced < b)
    (hc : c1 = popPdu produced (clearExhausted c)) (h : 0 < chunkOf (b - produced) c1) :
    drain base b (fuel + 1) produced c =
      let r := drain base b fuel (produced + chunkOf (b - produced) c1)
        { c1 with
          pos := c1.pos + BitVec.ofNat 20 (chunkOf (b - produced) c1)
          tagCnt := if c1.pos == 0#20 then c1.tagCnt + 1#32 else c1.tagCnt }
      ⟨r.conv, (c1.cur.drop c1.pos.toNat).take (chunkOf (b - produced) c1) ++ r.bytes,
        (if c1.pos == 0#20 then [tagOfCurrent base c1] else []) ++ r.tags⟩ := by
  subst hc
  simp [drain, hb, h]

/-- The loop leaves the configuration, the timestamp, the written-item count and the message counters alone. -/
theorem drain_sameBase (base : BitVec 64) (b fuel produced : Nat) (c : ConvState) :
    c.SameBase (drain base b fuel produced c).conv := by
  induction fuel generalizing produced c with
  | zero => rfl
  | succ fuel ih =>
    have h1 : c.SameBase (popPdu produced (clearExhausted c)) :=
      (clearExhausted_sameBase c).trans (popPdu_sameBase produced _)
    by_cases hb : produced < b
    · by_cases hc : 0 < chunkOf (b - produced) (popPdu produced (clearExhausted c))
      · rw [drain_copy fuel hb rfl hc]
        exact (h1.trans (by rfl)).trans (ih _ _)
      · rw [drain_pad fuel hb (by omega)]
        exact h1
    · rw [drain_done (fuel + 1) (by omega)]
      rfl

/-- The loop emits exactly the rest of the budget (42_converter.md R188, R197). -/
theorem drain_bytes_length (base : BitVec 64) {b fuel produced : Nat} (c : ConvState) (h : b - produced ≤ fuel) :
    (drain base b fuel produced c).bytes.length = b - produced := by
  induction fuel generalizing produced c with
  | zero =>
    simp only [drain, List.length_nil]
    omega
  | succ fuel ih =>
    by_cases hb : produced < b
    · by_cases hc : 0 < chunkOf (b - produced) (popPdu produced (clearExhausted c))
      · have hle := chunkOf_le (b - produced) (popPdu produced (clearExhausted c))
        rw [drain_copy fuel hb rfl hc]
        simp only [List.length_append, List.length_take, List.length_drop]
        rw [ih _ (by omega)]
        omega
      · rw [drain_pad fuel hb (by omega)]
        simp
    · rw [drain_done (fuel + 1) (by omega)]
      simp only [List.length_nil]
      omega

end Sys2Proof.Machine
end

