-- ==== Sys2Proof/Laws/Decode.lean ====
section
/-! SUPPORT. The small facts of decoding and encoding: the opcode map and its inverse, the fields of an encoded header,
and when a port holds enough words. -/

namespace Sys2Proof

/-- The opcode map reads every OPC it writes. -/
@[simp] theorem opcodeOfByte_code (op : Opcode) : opcodeOfByte op.code = some op := by cases op <;> rfl

/-- The opcode map reads a command only from that command's OPC. -/
theorem opcodeOfByte_eq_some {b : BitVec 8} {op : Opcode} (h : opcodeOfByte b = some op) : b = op.code := by
  apply BitVec.eq_of_toNat_eq
  unfold opcodeOfByte at h
  split at h <;> first | (cases h; assumption) | cases h

/-- The high part of a header is its OPC. -/
theorem extract_high {n m : Nat} (x : BitVec n) (y : BitVec m) : (x ++ y).extractLsb' m n = x := by
  apply BitVec.eq_of_getLsbD_eq
  intro i hi
  simp [BitVec.getLsbD_append, hi]

/-- The low part of a header is its ARG. -/
theorem extract_low {n m : Nat} (x : BitVec n) (y : BitVec m) : (x ++ y).extractLsb' 0 m = y := by
  apply BitVec.eq_of_getLsbD_eq
  intro i hi
  simp [BitVec.getLsbD_append, hi]

/-- A field that lies within the low part of two joined fields. -/
theorem extract_of_low {n m : Nat} (x : BitVec n) (y : BitVec m) {i k : Nat} (h : i + k ≤ m) :
    (x ++ y).extractLsb' i k = y.extractLsb' i k := by
  apply BitVec.eq_of_getLsbD_eq
  intro j hj
  have h1 : i + j < m := by omega
  simp [BitVec.getLsbD_append, hj, h1]

/-- A field that lies within the high part of two joined fields. -/
theorem extract_of_high {n m : Nat} (x : BitVec n) (y : BitVec m) {i k : Nat} (h : m ≤ i) :
    (x ++ y).extractLsb' i k = x.extractLsb' (i - m) k := by
  apply BitVec.eq_of_getLsbD_eq
  intro j hj
  have h1 : ¬ i + j < m := by omega
  have h2 : i + j - m = i - m + j := by omega
  simp [BitVec.getLsbD_append, hj, h1, h2]

@[simp] theorem opcField_header (i : Instr) : opcField i.header = i.opcode.code := extract_high _ _

@[simp] theorem argField_header (i : Instr) : argField i.header = i.arg := extract_low _ _

/-- A header is its OPC above its ARG. -/
theorem header_eq_append (hdr : Word) : opcField hdr ++ argField hdr = hdr := by
  apply BitVec.eq_of_getLsbD_eq
  intro i hi
  simp only [opcField, argField, BitVec.getLsbD_append, BitVec.getLsbD_extractLsb']
  by_cases h : i < 24
  · simp [h]
  · simp only [h, decide_false, Bool.false_and]
    have h1 : i - 24 < 8 := by omega
    have h2 : 24 + (i - 24) = i := by omega
    simp [h1, h2]

/-- An encoded header names its own command on CMD. -/
@[simp] theorem opcodeOn_cmd_header (i : Instr) : opcodeOn .cmd i.header = some i.opcode := by
  simp [opcodeOn, admits]

/-- An encoded header names its own command on a port that admits it. -/
theorem opcodeOn_header {p : Port} (i : Instr) :
    opcodeOn p i.header = if admits p i.opcode then some i.opcode else none := by
  simp [opcodeOn]

/-- What a port reads from a header is admitted there and has that header's OPC. -/
theorem opcodeOn_eq_some {p : Port} {hdr : Word} {op : Opcode} (h : opcodeOn p hdr = some op) :
    opcField hdr = op.code ∧ admits p op = true := by
  unfold opcodeOn at h
  split at h
  · rename_i o ho
    split at h
    · rename_i ha
      cases h
      exact ⟨opcodeOfByte_eq_some ho, ha⟩
    · cases h
  · cases h

/-- When a port holds enough words. -/
theorem hasWords_iff {n : Nat} {ws : List Word} : hasWords n ws = true ↔ n ≤ ws.length := by
  induction n generalizing ws with
  | zero => simp [hasWords]
  | succ n ih =>
    cases ws with
    | nil => simp [hasWords]
    | cons w ws => simp [hasWords, ih]

/-- The words of a command are its header and its payload. -/
@[simp] theorem encode_length (i : Instr) : (encode i).length = 1 + i.payload.length := by
  simp [encode, Nat.add_comm]

end Sys2Proof
end

