-- ==== Sys2Proof/Laws/Enclosure.lean ====
section
/-! SUPPORT. The enclosures of the tap generator hold the reals they stand for: the integer operations, the alternating
series of arctan, sin and cos with their remainders, π by Machin's formula, and sin(π·n/d) with its argument reduced. -/

namespace Sys2Proof.Machine

open Real

/-- The enclosure `e` at precision p holds the real x: lo ≤ x·2^p ≤ hi. -/
def Encloses (p : Nat) (x : ℝ) (e : Enclosure) : Prop := (e.lo : ℝ) ≤ x * 2 ^ p ∧ x * 2 ^ p ≤ (e.hi : ℝ)

/-! ### Integer division, outward -/

/-- Rounding down. -/
theorem ediv_le_div (n : Int) {d : Nat} (hd : 0 < d) : ((n / (d : Int) : Int) : ℝ) ≤ (n : ℝ) / d := by
  have h : (n / (d : Int)) * d ≤ n := Int.ediv_mul_le n (by omega)
  rw [le_div_iff₀ (by exact_mod_cast hd)]
  exact_mod_cast h

/-- Rounding up. -/
theorem div_le_ceilDiv (n : Int) {d : Nat} (hd : 0 < d) : (n : ℝ) / d ≤ (ceilDiv n d : ℝ) := by
  have h := ediv_le_div (-n) hd
  unfold ceilDiv
  push_cast at h ⊢
  have e : (-(n : ℝ)) / d = -((n : ℝ) / d) := neg_div _ _
  linarith

/-! ### The operations -/

theorem encloses_rat (p : Nat) (n : Int) {d : Nat} (hd : 0 < d) : Encloses p ((n : ℝ) / d) (encRat p n d) := by
  have h1 := ediv_le_div (n * 2 ^ p) hd
  have h2 := div_le_ceilDiv (n * 2 ^ p) hd
  have e : (n : ℝ) / d * 2 ^ p = ((n * 2 ^ p : Int) : ℝ) / d := by
    push_cast
    ring
  unfold Encloses encRat
  rw [e]
  exact ⟨h1, h2⟩

theorem encloses_add {p : Nat} {x y : ℝ} {a b : Enclosure} (hx : Encloses p x a) (hy : Encloses p y b) :
    Encloses p (x + y) (encAdd a b) := by
  unfold Encloses encAdd at *
  push_cast
  constructor <;> linarith [hx.1, hx.2, hy.1, hy.2]

theorem encloses_neg {p : Nat} {x : ℝ} {a : Enclosure} (hx : Encloses p x a) : Encloses p (-x) (encNeg a) := by
  unfold Encloses encNeg at *
  push_cast
  constructor <;> linarith [hx.1, hx.2]

theorem encloses_sub {p : Nat} {x y : ℝ} {a b : Enclosure} (hx : Encloses p x a) (hy : Encloses p y b) :
    Encloses p (x - y) (encSub a b) := by
  unfold Encloses encSub at *
  push_cast
  constructor <;> linarith [hx.1, hx.2, hy.1, hy.2]

theorem encloses_scale {p : Nat} {x : ℝ} {a : Enclosure} (hx : Encloses p x a) (n : Int) {d : Nat} (hd : 0 < d) :
    Encloses p (x * ((n : ℝ) / d)) (encScale a n d) := by
  have hd' : (0 : ℝ) < d := by exact_mod_cast hd
  have e : x * ((n : ℝ) / d) * 2 ^ p = x * 2 ^ p * n / d := by ring
  unfold Encloses encScale
  rw [e]
  split
  · rename_i hn
    have hn' : (0 : ℝ) ≤ n := by exact_mod_cast hn
    refine ⟨(ediv_le_div _ hd).trans ?_, le_trans ?_ (div_le_ceilDiv _ hd)⟩
    · push_cast
      gcongr
      exact hx.1
    · push_cast
      gcongr
      exact hx.2
  · rename_i hn
    have hn' : (n : ℝ) ≤ 0 := by exact_mod_cast (not_le.1 hn).le
    refine ⟨(ediv_le_div _ hd).trans ?_, le_trans ?_ (div_le_ceilDiv _ hd)⟩
    · push_cast
      exact div_le_div_of_nonneg_right (mul_le_mul_of_nonpos_right hx.2 hn') hd'.le
    · push_cast
      exact div_le_div_of_nonneg_right (mul_le_mul_of_nonpos_right hx.1 hn') hd'.le

theorem encloses_mulPos {p : Nat} {c x : ℝ} {a b : Enclosure} (hc : Encloses p c a) (hx : Encloses p x b)
    (h0 : 0 ≤ a.lo) : Encloses p (c * x) (encMulPos p a b) := by
  have h2 : (0 : ℝ) < 2 ^ p := by positivity
  have hp : 0 < 2 ^ p := by positivity
  have h0' : (0 : ℝ) ≤ a.lo := by exact_mod_cast h0
  obtain ⟨hc1, hc2⟩ := hc
  obtain ⟨hx1, hx2⟩ := hx
  have e : c * x * 2 ^ p = (c * 2 ^ p) * (x * 2 ^ p) / ((2 ^ p : Nat) : ℝ) := by
    push_cast
    field_simp
  unfold Encloses encMulPos
  rw [e]
  constructor
  · have h := ediv_le_div (if 0 ≤ b.lo then a.lo * b.lo else a.hi * b.lo) hp
    push_cast at h ⊢
    refine h.trans (div_le_div_of_nonneg_right ?_ h2.le)
    split
    · rename_i hb
      have hb' : (0 : ℝ) ≤ b.lo := by exact_mod_cast hb
      exact mul_le_mul hc1 hx1 hb' (h0'.trans hc1)
    · rename_i hb
      have hb' : (b.lo : ℝ) ≤ 0 := by exact_mod_cast (not_le.1 hb).le
      calc (a.hi : ℝ) * b.lo ≤ c * 2 ^ p * b.lo := mul_le_mul_of_nonpos_right hc2 hb'
        _ ≤ c * 2 ^ p * (x * 2 ^ p) := mul_le_mul_of_nonneg_left hx1 (h0'.trans hc1)
  · have h := div_le_ceilDiv (if 0 ≤ b.hi then a.hi * b.hi else a.lo * b.hi) hp
    push_cast at h ⊢
    refine le_trans (div_le_div_of_nonneg_right ?_ h2.le) h
    split
    · rename_i hb
      have hb' : (0 : ℝ) ≤ b.hi := by exact_mod_cast hb
      calc c * 2 ^ p * (x * 2 ^ p) ≤ c * 2 ^ p * b.hi := mul_le_mul_of_nonneg_left hx2 (h0'.trans hc1)
        _ ≤ a.hi * b.hi := mul_le_mul_of_nonneg_right hc2 hb'
    · rename_i hb
      have hb' : (b.hi : ℝ) ≤ 0 := by exact_mod_cast (not_le.1 hb).le
      calc c * 2 ^ p * (x * 2 ^ p) ≤ c * 2 ^ p * b.hi := mul_le_mul_of_nonneg_left hx2 (h0'.trans hc1)
        _ ≤ a.lo * b.hi := mul_le_mul_of_nonpos_right hc1 hb'

/-- A product of enclosures of reals that are not negative has no negative lower end. -/
theorem encMulPos_lo_nonneg {p : Nat} {a b : Enclosure} (ha : 0 ≤ a.lo) (hb : 0 ≤ b.lo) : 0 ≤ (encMulPos p a b).lo := by
  unfold encMulPos
  simp only [hb, if_true]
  exact Int.ediv_nonneg (Int.mul_nonneg ha hb) (by positivity)

/-- A scaling by a number that is not negative keeps a lower end that is not negative. -/
theorem encScale_lo_nonneg {a : Enclosure} {n : Int} {d : Nat} (ha : 0 ≤ a.lo) (hn : 0 ≤ n) : 0 ≤ (encScale a n d).lo := by
  unfold encScale
  rw [if_pos hn]
  exact Int.ediv_nonneg (Int.mul_nonneg ha hn) (by positivity)

/-! ### Alternating series -/

/-- l is the alternating sum f 0 - f 1 + f 2 - … of terms that do not grow. -/
def AlternatingSum (f : ℕ → ℝ) (l : ℝ) : Prop :=
  Antitone f ∧ Filter.Tendsto (fun n => ∑ i ∈ Finset.range n, (-1) ^ i * f i) Filter.atTop (nhds l)

/-- The sum lies between 0 and its first term. -/
theorem AlternatingSum.bounds {f : ℕ → ℝ} {l : ℝ} (h : AlternatingSum f l) : 0 ≤ l ∧ l ≤ f 0 := by
  have h1 := h.1.alternating_series_le_tendsto h.2 0
  have h2 := h.1.tendsto_le_alternating_series h.2 0
  simpa using And.intro h1 h2

/-- What follows the first term is again an alternating sum. -/
theorem AlternatingSum.tail {f : ℕ → ℝ} {l : ℝ} (h : AlternatingSum f l) :
    AlternatingSum (fun k => f (k + 1)) (f 0 - l) := by
  refine ⟨fun a b hab => h.1 (Nat.add_le_add_right hab 1), ?_⟩
  have h1 := (Filter.tendsto_add_atTop_iff_nat 1).2 h.2
  have h2 := (tendsto_const_nhds (x := f 0)).sub h1
  refine h2.congr fun n => ?_
  rw [Finset.sum_range_succ']
  simp [pow_succ, Finset.sum_neg_distrib]

/-! ### arctan(1/m) and π -/

/-- The terms of arctan(1/m) from the term of exponent i on. -/
theorem encloses_arctanInv (p : Nat) {m : Nat} (hm : 0 < m) (fuel : Nat) {i : Nat} (hi : 0 < i) {l : ℝ}
    (h : AlternatingSum (fun k => 1 / (((i + 2 * k : Nat) : ℝ) * (m : ℝ) ^ (i + 2 * k))) l) :
    Encloses p l (encArctanInv p m fuel i (m ^ i)) := by
  induction fuel generalizing i l with
  | zero =>
    obtain ⟨h0, h1⟩ := h.bounds
    have hpos : 0 < i * m ^ i := by positivity
    have hc := div_le_ceilDiv (2 ^ p) hpos
    unfold Encloses encArctanInv
    push_cast at hc h1 ⊢
    refine ⟨by positivity, le_trans ?_ hc⟩
    simp only [add_zero] at h1
    calc l * 2 ^ p ≤ 1 / ((i : ℝ) * (m : ℝ) ^ i) * 2 ^ p := by gcongr
      _ = 2 ^ p / ((i : ℝ) * (m : ℝ) ^ i) := by ring
  | succ fuel ih =>
    have ht := h.tail
    have hpos : 0 < i * m ^ i := by positivity
    have h2 := ih (i := i + 2) (by omega) (l := 1 / (((i + 2 * 0 : Nat) : ℝ) * (m : ℝ) ^ (i + 2 * 0)) - l) (by
      refine ⟨?_, ?_⟩
      · convert ht.1 using 2 with k
        rw [show i + 2 + 2 * k = i + 2 * (k + 1) by ring]
      · convert ht.2 using 5 with n k
        show 1 / (((i + 2 + 2 * k : Nat) : ℝ) * (m : ℝ) ^ (i + 2 + 2 * k)) = _
        rw [show i + 2 + 2 * k = i + 2 * (k + 1) by ring])
    have h1 := encloses_rat p 1 hpos
    have h3 := encloses_sub h1 h2
    unfold encArctanInv
    rw [show m ^ i * (m * m) = m ^ (i + 2) by ring]
    convert h3 using 1
    push_cast
    simp

/-- arctan(1/m) is an alternating sum. -/
theorem alternatingSum_arctan {m : Nat} (hm : 1 < m) :
    AlternatingSum (fun k => 1 / (((1 + 2 * k : Nat) : ℝ) * (m : ℝ) ^ (1 + 2 * k))) (arctan (m : ℝ)⁻¹) := by
  have hm' : (1 : ℝ) < m := by exact_mod_cast hm
  constructor
  · intro a b hab
    have h0 : (0 : ℝ) < ((1 + 2 * a : Nat) : ℝ) := by positivity
    have h1 : ((1 + 2 * a : Nat) : ℝ) ≤ ((1 + 2 * b : Nat) : ℝ) := by exact_mod_cast (by omega)
    have h2 : (m : ℝ) ^ (1 + 2 * a) ≤ (m : ℝ) ^ (1 + 2 * b) := pow_le_pow_right₀ hm'.le (by omega)
    exact one_div_le_one_div_of_le (by positivity) (mul_le_mul h1 h2 (by positivity) (by positivity))
  · have hlt : ‖(m : ℝ)⁻¹‖ < 1 := by
      rw [norm_inv, Real.norm_natCast]
      exact inv_lt_one_of_one_lt₀ hm'
    refine (Real.hasSum_arctan hlt).tendsto_sum_nat.congr fun n => Finset.sum_congr rfl fun k _ => ?_
    show _ = (-1) ^ k * (1 / (((1 + 2 * k : Nat) : ℝ) * (m : ℝ) ^ (1 + 2 * k)))
    rw [show 1 + 2 * k = 2 * k + 1 by ring, inv_pow]
    field_simp

/-- π by Machin's formula. -/
theorem encloses_pi (p : Nat) : Encloses p π (encPi p) := by
  have h5 := encloses_arctanInv p (m := 5) (by norm_num) (p / 4) one_pos (alternatingSum_arctan (by norm_num))
  have h239 := encloses_arctanInv p (m := 239) (by norm_num) (p / 15 + 1) one_pos (alternatingSum_arctan (by norm_num))
  have h := encloses_sub (encloses_scale h5 16 one_pos) (encloses_scale h239 4 one_pos)
  have hpi := Real.four_mul_arctan_inv_5_sub_arctan_inv_239
  have e : π = arctan ((5 : ℕ) : ℝ)⁻¹ * (((16 : Int) : ℝ) / ((1 : ℕ) : ℝ))
      - arctan ((239 : ℕ) : ℝ)⁻¹ * (((4 : Int) : ℝ) / ((1 : ℕ) : ℝ)) := by
    push_cast
    linarith
  rw [e]
  exact h

/-! ### sin and cos -/

/-- The alternating sum from the term t at j on, each next term the one before times xx over the next two integers. -/
theorem encloses_alternating (p : Nat) {xx : Enclosure} {y : ℝ} (hxx : Encloses p y xx) (hxx0 : 0 ≤ xx.lo)
    (fuel : Nat) {j : Nat} {t : ℝ} {te : Enclosure} (ht : Encloses p t te) (ht0 : 0 ≤ te.lo) {l : ℝ}
    (h : AlternatingSum (fun k => t * y ^ k * (j.factorial : ℝ) / ((j + 2 * k).factorial : ℝ)) l) :
    Encloses p l (encAlternating p xx fuel j te) := by
  have base : ∀ {j : Nat} {t : ℝ} {te : Enclosure} {l : ℝ}, Encloses p t te →
      AlternatingSum (fun k => t * y ^ k * (j.factorial : ℝ) / ((j + 2 * k).factorial : ℝ)) l →
      Encloses p l ⟨0, te.hi⟩ := by
    intro j t te l ht h
    obtain ⟨h0, h1⟩ := h.bounds
    have hf : (j.factorial : ℝ) ≠ 0 := by positivity
    have h1 : l ≤ t := by simpa [hf] using h1
    refine ⟨by push_cast; positivity, le_trans ?_ ht.2⟩
    gcongr
  induction fuel generalizing j t te l with
  | zero => exact base ht h
  | succ fuel ih =>
    unfold encAlternating
    split
    · exact base ht h
    · have hj : 0 < (j + 1) * (j + 2) := by positivity
      have hm := encloses_scale (encloses_mulPos ht hxx ht0) 1 hj
      have hs : ((j + 2).factorial : ℝ) = ((j : ℝ) + 2) * ((j : ℝ) + 1) * (j.factorial : ℝ) := by
        rw [Nat.factorial_succ, Nat.factorial_succ]
        push_cast
        ring
      have hf : (j.factorial : ℝ) ≠ 0 := by positivity
      have hfun : (fun k => t * y * (((1 : Int) : ℝ) / (((j + 1) * (j + 2) : Nat) : ℝ)) * y ^ k * ((j + 2).factorial : ℝ) /
            ((j + 2 + 2 * k).factorial : ℝ)) =
          fun k => t * y ^ (k + 1) * (j.factorial : ℝ) / ((j + 2 * (k + 1)).factorial : ℝ) := by
        funext k
        rw [show j + 2 + 2 * k = j + 2 * (k + 1) by ring, hs]
        push_cast
        field_simp
        ring
      have htail := h.tail
      rw [← hfun] at htail
      have := ih hm (encScale_lo_nonneg (encMulPos_lo_nonneg ht0 hxx0) (by norm_num)) htail
      have h3 := encloses_sub ht this
      convert h3 using 1
      simp [hf]

/-- The terms of the sine or the cosine of a number in [0, 1] do not grow. -/
theorem antitone_terms {t y : ℝ} (ht : 0 ≤ t) (hy0 : 0 ≤ y) (hy1 : y ≤ 1) (j : Nat) :
    Antitone fun k => t * y ^ k * (j.factorial : ℝ) / ((j + 2 * k).factorial : ℝ) := by
  intro a b hab
  have h1 : y ^ b ≤ y ^ a := pow_le_pow_of_le_one hy0 hy1 hab
  have h2 : ((j + 2 * a).factorial : ℝ) ≤ ((j + 2 * b).factorial : ℝ) := by
    exact_mod_cast Nat.factorial_le (by omega)
  have h3 : t * y ^ b * (j.factorial : ℝ) ≤ t * y ^ a * (j.factorial : ℝ) := by gcongr
  exact div_le_div₀ (by positivity) h3 (by positivity) h2

theorem alternatingSum_sin {x : ℝ} (h0 : 0 ≤ x) (h1 : x ≤ 1) :
    AlternatingSum (fun k => x * (x * x) ^ k * ((1 : Nat).factorial : ℝ) / ((1 + 2 * k).factorial : ℝ)) (sin x) := by
  refine ⟨antitone_terms h0 (mul_nonneg h0 h0) (by nlinarith) 1, ?_⟩
  refine (Real.hasSum_sin x).tendsto_sum_nat.congr fun n => Finset.sum_congr rfl fun k _ => ?_
  show _ = (-1) ^ k * (x * (x * x) ^ k * ((1 : Nat).factorial : ℝ) / ((1 + 2 * k).factorial : ℝ))
  rw [show 1 + 2 * k = 2 * k + 1 by ring, ← pow_two, ← pow_mul, Nat.factorial_one]
  push_cast
  ring

theorem alternatingSum_cos {x : ℝ} (h0 : 0 ≤ x) (h1 : x ≤ 1) :
    AlternatingSum (fun k => 1 * (x * x) ^ k * ((0 : Nat).factorial : ℝ) / ((0 + 2 * k).factorial : ℝ)) (cos x) := by
  refine ⟨antitone_terms zero_le_one (mul_nonneg h0 h0) (by nlinarith) 0, ?_⟩
  refine (Real.hasSum_cos x).tendsto_sum_nat.congr fun n => Finset.sum_congr rfl fun k _ => ?_
  show _ = (-1) ^ k * (1 * (x * x) ^ k * ((0 : Nat).factorial : ℝ) / ((0 + 2 * k).factorial : ℝ))
  rw [← pow_two, ← pow_mul, Nat.factorial_zero, Nat.zero_add]
  push_cast
  ring

/-- sin(π·m/d) for 0 ≤ m/d ≤ 1/2. -/
theorem encloses_sinQuarter {p : Nat} {pi : Enclosure} (hpi : Encloses p π pi) (hpi0 : 0 ≤ pi.lo) {m d : Nat} (hd : 0 < d)
    (hm : 2 * m ≤ d) : Encloses p (sin (π * ((m : ℝ) / d))) (encSinQuarter p pi m d) := by
  have hd' : (0 : ℝ) < d := by exact_mod_cast hd
  have hpi4 := Real.pi_le_four
  have hpipos := Real.pi_pos
  unfold encSinQuarter
  split
  · rename_i h4
    have h4' : 4 * (m : ℝ) ≤ d := by exact_mod_cast h4
    have hx := encloses_scale hpi (m : Int) hd
    have hx0 : 0 ≤ (encScale pi (m : Int) d).lo := encScale_lo_nonneg hpi0 (by positivity)
    have h0 : 0 ≤ π * ((m : ℝ) / d) := by positivity
    have hq : (m : ℝ) / d ≤ 1 / 4 := by
      rw [div_le_div_iff₀ hd' (by norm_num)]
      linarith
    have h1 : π * ((m : ℝ) / d) ≤ 1 := by nlinarith [show (0 : ℝ) ≤ (m : ℝ) / d by positivity]
    simp only [Int.cast_natCast] at hx
    exact encloses_alternating p (encloses_mulPos hx hx hx0) (encMulPos_lo_nonneg hx0 hx0) _ hx hx0
      (alternatingSum_sin h0 h1)
  · rename_i h4
    have h4' : (d : ℝ) < 4 * (m : ℝ) := by exact_mod_cast (not_le.1 h4)
    have hm' : 2 * (m : ℝ) ≤ d := by exact_mod_cast hm
    have hd2 : 0 < 2 * d := by omega
    have hx := encloses_scale hpi ((d - 2 * m : Nat) : Int) hd2
    have hx0 : 0 ≤ (encScale pi ((d - 2 * m : Nat) : Int) (2 * d)).lo := encScale_lo_nonneg hpi0 (by positivity)
    have hcast : ((((d - 2 * m : Nat) : Int) : ℝ)) = (d : ℝ) - 2 * m := by
      rw [Int.cast_natCast, Nat.cast_sub hm]
      push_cast
      ring
    have harg : π * (((((d - 2 * m : Nat) : Int) : ℝ)) / ((2 * d : Nat) : ℝ)) = π / 2 - π * ((m : ℝ) / d) := by
      rw [hcast]
      push_cast
      field_simp
    have hq1 : (1 : ℝ) / 4 ≤ (m : ℝ) / d := by
      rw [div_le_div_iff₀ (by norm_num) hd']
      linarith
    have hq2 : (m : ℝ) / d ≤ 1 / 2 := by
      rw [div_le_div_iff₀ hd' (by norm_num)]
      linarith
    have h0 : 0 ≤ π * (((((d - 2 * m : Nat) : Int) : ℝ)) / ((2 * d : Nat) : ℝ)) := by
      rw [harg]
      nlinarith
    have h1 : π * (((((d - 2 * m : Nat) : Int) : ℝ)) / ((2 * d : Nat) : ℝ)) ≤ 1 := by
      rw [harg]
      nlinarith
    have hone : Encloses p 1 ⟨2 ^ p, 2 ^ p⟩ := by
      unfold Encloses
      push_cast
      simp
    have h := encloses_alternating p (encloses_mulPos hx hx hx0) (encMulPos_lo_nonneg hx0 hx0) (p / 8 + 8)
      hone (by positivity) (alternatingSum_cos h0 h1)
    rw [harg, Real.cos_pi_div_two_sub] at h
    exact h

/-- sin(π·m/d) for 0 ≤ m/d ≤ 1. -/
theorem encloses_sinHalf {p : Nat} {pi : Enclosure} (hpi : Encloses p π pi) (hpi0 : 0 ≤ pi.lo) {m d : Nat} (hd : 0 < d)
    (hm : m ≤ d) : Encloses p (sin (π * ((m : ℝ) / d))) (encSinHalf p pi m d) := by
  have hd' : (d : ℝ) ≠ 0 := by exact_mod_cast hd.ne'
  unfold encSinHalf
  split
  · exact encloses_sinQuarter hpi hpi0 hd (by assumption)
  · have h := encloses_sinQuarter hpi hpi0 (m := d - m) hd (by omega)
    rw [Nat.cast_sub hm, sub_div, div_self hd', mul_sub, mul_one, Real.sin_pi_sub] at h
    exact h

/-- sin(π·n/d). -/
theorem encloses_sinPi {p : Nat} {pi : Enclosure} (hpi : Encloses p π pi) (hpi0 : 0 ≤ pi.lo) (n : Nat) {d : Nat}
    (hd : 0 < d) : Encloses p (sin (π * ((n : ℝ) / d))) (encSinPi p pi n d) := by
  have hd' : (d : ℝ) ≠ 0 := by exact_mod_cast hd.ne'
  have hlt : n % (2 * d) < 2 * d := Nat.mod_lt _ (by omega)
  have hn : sin (π * ((n : ℝ) / d)) = sin (π * (((n % (2 * d) : Nat) : ℝ) / d)) := by
    have h : π * ((n : ℝ) / d) = π * (((n % (2 * d) : Nat) : ℝ) / d) + ((n / (2 * d) : Nat) : ℝ) * (2 * π) := by
      have e : (n : ℝ) = ((n % (2 * d) : Nat) : ℝ) + ((2 * d : Nat) : ℝ) * ((n / (2 * d) : Nat) : ℝ) := by
        exact_mod_cast (Nat.mod_add_div n (2 * d)).symm
      rw [e]
      push_cast
      field_simp
    rw [h, Real.sin_add_nat_mul_two_pi]
  rw [hn]
  unfold encSinPi
  simp only
  split
  · rename_i hge
    have h := encloses_neg (encloses_sinHalf hpi hpi0 (m := n % (2 * d) - d) hd (by omega))
    rw [Nat.cast_sub hge, sub_div, div_self hd', mul_sub, mul_one, Real.sin_sub_pi, neg_neg] at h
    exact h
  · exact encloses_sinHalf hpi hpi0 hd (by omega)

/-- cos(π·n/d). -/
theorem encloses_cosPi {p : Nat} {pi : Enclosure} (hpi : Encloses p π pi) (hpi0 : 0 ≤ pi.lo) (n : Nat) {d : Nat}
    (hd : 0 < d) : Encloses p (cos (π * ((n : ℝ) / d))) (encCosPi p pi n d) := by
  have hd' : (d : ℝ) ≠ 0 := by exact_mod_cast hd.ne'
  have h := encloses_sinPi hpi hpi0 (2 * n + d) (d := 2 * d) (by omega)
  have e : π * (((2 * n + d : Nat) : ℝ) / ((2 * d : Nat) : ℝ)) = π * ((n : ℝ) / d) + π / 2 := by
    push_cast
    field_simp
  rw [e, Real.sin_add_pi_div_two] at h
  exact h

end Sys2Proof.Machine
end

