-- ==== Sys2Proof/Laws/Exact.lean ====
section
/-! SUPPORT. RNE32 of a real is one word: there is a nearest word for every real, and no second one. Magnitudes are
taken by their place among the magnitudes of all words, bits [30:0], which they follow strictly. -/

namespace Sys2Proof.Machine

open Sys2Proof.Reference

/-! ### Magnitudes by place -/

/-- The magnitude of the word whose bits [30:0] are `n`, in units of 2^-149; at 0x7F800000 it goes on as if the exponent
did. -/
def magAt (n : Nat) : Nat := if n / 2 ^ 23 = 0 then n % 2 ^ 23 else (2 ^ 23 + n % 2 ^ 23) * 2 ^ (n / 2 ^ 23 - 1)

/-- The next word is larger. -/
theorem magAt_lt_succ (n : Nat) : magAt n < magAt (n + 1) := by
  unfold magAt
  have hn := Nat.div_add_mod n (2 ^ 23)
  have hm := Nat.mod_lt n (show 0 < 2 ^ 23 by norm_num)
  by_cases hc : n % 2 ^ 23 + 1 = 2 ^ 23
  · have h1 : (n + 1) / 2 ^ 23 = n / 2 ^ 23 + 1 := by omega
    have h2 : (n + 1) % 2 ^ 23 = 0 := by omega
    rw [h1, h2, if_neg (Nat.succ_ne_zero _), Nat.add_sub_cancel]
    split
    · rename_i h0
      rw [h0]
      omega
    · obtain ⟨e, he⟩ := Nat.exists_eq_succ_of_ne_zero ‹_›
      rw [he, Nat.succ_eq_add_one, Nat.add_sub_cancel, Nat.pow_succ 2 e]
      have := Nat.two_pow_pos e
      nlinarith
  · have h1 : (n + 1) / 2 ^ 23 = n / 2 ^ 23 := by omega
    have h2 : (n + 1) % 2 ^ 23 = n % 2 ^ 23 + 1 := by omega
    rw [h1, h2]
    split
    · omega
    · have := Nat.two_pow_pos (n / 2 ^ 23 - 1)
      nlinarith

theorem magAt_strictMono : StrictMono magAt := strictMono_nat_of_lt_succ magAt_lt_succ

/-- The place of a word: its bits [30:0]. -/
def placeOf (w : Word) : Nat := w.toNat % 2 ^ 31

theorem frac_eq_place (w : Word) : (w.extractLsb' 0 23).toNat = placeOf w % 2 ^ 23 := by
  unfold placeOf
  rw [BitVec.extractLsb'_toNat, Nat.shiftRight_zero]
  omega

theorem exp_eq_place (w : Word) : (w.extractLsb' 23 8).toNat = placeOf w / 2 ^ 23 := by
  unfold placeOf
  rw [BitVec.extractLsb'_toNat, Nat.shiftRight_eq_div_pow]
  omega

theorem f32Mag_eq_magAt (w : Word) : f32Mag w = magAt (placeOf w) := by
  unfold f32Mag magAt f32Exp f32Frac
  rw [frac_eq_place, exp_eq_place]

theorem finite_iff_place (w : Word) : Sys2Proof.Reference.Finite w ↔ placeOf w < 0x7F800000 := by
  unfold Sys2Proof.Reference.Finite
  rw [exp_eq_place]
  unfold placeOf
  omega

/-- The word of a sign and a place. -/
def wordAt (neg : Bool) (n : Nat) : Word := BitVec.ofNat 32 ((if neg then 2 ^ 31 else 0) + n)

theorem wordAt_place (neg : Bool) {n : Nat} (h : n < 2 ^ 31) : placeOf (wordAt neg n) = n := by
  unfold placeOf wordAt
  rw [BitVec.toNat_ofNat]
  split <;> omega

theorem wordAt_neg (neg : Bool) {n : Nat} (h : n < 2 ^ 31) : f32Neg (wordAt neg n) = neg := by
  unfold f32Neg wordAt
  rw [← BitVec.msb_eq_getLsbD_last (w := 32), BitVec.msb_eq_decide, BitVec.toNat_ofNat]
  cases neg <;> simp <;> omega

/-- A word is its sign and its place. -/
theorem word_ext {v w : Word} (hs : f32Neg v = f32Neg w) (hp : placeOf v = placeOf w) : v = w := by
  unfold f32Neg at hs
  rw [← BitVec.msb_eq_getLsbD_last (w := 32), ← BitVec.msb_eq_getLsbD_last (w := 32), BitVec.msb_eq_decide,
    BitVec.msb_eq_decide, decide_eq_decide] at hs
  unfold placeOf at hp
  apply BitVec.eq_of_toNat_eq
  have := v.isLt
  have := w.isLt
  omega

/-- The real a word denotes, by sign and place. -/
theorem val_eq_magAt (w : Word) : val w = (if f32Neg w then -1 else 1) * ((magAt (placeOf w) : ℝ) / 2 ^ 149) := by
  rw [val_eq, f32Mag_eq_magAt]

/-! ### The nearest place -/

/-- The overflow threshold in units of 2^-149, doubled, is the sum of the last finite magnitude and the next. -/
theorem magAt_overflow : (magAt 0x7F7FFFFF : ℝ) + magAt 0x7F800000 = 2 * ((2 ^ 128 - 2 ^ 103) * 2 ^ 149) := by
  have h : magAt 0x7F7FFFFF + magAt 0x7F800000 + 2 ^ 104 * 2 ^ 149 = 2 ^ 129 * 2 ^ 149 := by decide +kernel
  generalize magAt 0x7F7FFFFF = a at h ⊢
  generalize magAt 0x7F800000 = b at h ⊢
  have h' : (a : ℝ) + b + 2 ^ 104 * 2 ^ 149 = 2 ^ 129 * 2 ^ 149 := by exact_mod_cast h
  linarith

/-- Every real below the threshold has a nearest place, and it is even on a tie. -/
theorem exists_nearest_place {x : ℝ} (h0 : 0 ≤ x) (h1 : x < (2 ^ 128 - 2 ^ 103) * 2 ^ 149) :
    ∃ c < 0x7F800000, (∀ j, |(magAt c : ℝ) - x| ≤ |(magAt j : ℝ) - x|) ∧
      ∀ j, magAt j ≠ magAt c → |(magAt j : ℝ) - x| = |(magAt c : ℝ) - x| → c % 2 = 0 := by
  have hex : ∃ m, x < magAt m := by
    refine ⟨0x7F800000, ?_⟩
    have h := magAt_overflow
    have hlt : (magAt 0x7F7FFFFF : ℝ) < magAt 0x7F800000 := by exact_mod_cast magAt_lt_succ 0x7F7FFFFF
    linarith
  classical
  -- k is the last place not above x
  obtain ⟨k, hk⟩ : ∃ k, Nat.find hex = k + 1 := by
    refine Nat.exists_eq_succ_of_ne_zero fun h => ?_
    have := Nat.find_spec hex
    rw [h] at this
    have h0' : (magAt 0 : ℝ) = 0 := by norm_num [magAt]
    linarith
  have hhi : x < magAt (k + 1) := hk ▸ Nat.find_spec hex
  have hlo : (magAt k : ℝ) ≤ x := not_lt.1 (Nat.find_min hex (m := k) (by omega))
  have hkmax : k < 0x7F800000 := by
    by_contra h
    have h2 : Nat.find hex ≤ 0x7F800000 := Nat.find_min' hex (by
      have h := magAt_overflow
      have hlt : (magAt 0x7F7FFFFF : ℝ) < magAt 0x7F800000 := by exact_mod_cast magAt_lt_succ 0x7F7FFFFF
      linarith)
    omega
  have below : ∀ j, j ≤ k → (magAt j : ℝ) ≤ magAt k := fun j h => by exact_mod_cast magAt_strictMono.monotone h
  have above : ∀ j, k + 1 ≤ j → (magAt (k + 1) : ℝ) ≤ magAt j := fun j h => by
    exact_mod_cast magAt_strictMono.monotone h
  have dk : |(magAt k : ℝ) - x| = x - magAt k := by rw [abs_of_nonpos (by linarith)]; ring
  have dk1 : |(magAt (k + 1) : ℝ) - x| = magAt (k + 1) - x := abs_of_pos (by linarith)
  -- every place is at least as far as k or as k + 1
  have dist : ∀ j, (j ≤ k ∧ x - magAt k ≤ |(magAt j : ℝ) - x| ∧ (|(magAt j : ℝ) - x| = x - magAt k → magAt j = magAt k)) ∨
      (k + 1 ≤ j ∧ magAt (k + 1) - x ≤ |(magAt j : ℝ) - x| ∧
        (|(magAt j : ℝ) - x| = magAt (k + 1) - x → magAt j = magAt (k + 1))) := by
    intro j
    rcases Nat.lt_or_ge k j with h | h
    · right
      have := above j h
      have e : |(magAt j : ℝ) - x| = magAt j - x := abs_of_pos (by linarith)
      refine ⟨h, by rw [e]; linarith, fun he => ?_⟩
      have : (magAt j : ℝ) = magAt (k + 1) := by linarith
      exact_mod_cast this
    · left
      have := below j h
      have e : |(magAt j : ℝ) - x| = x - magAt j := by rw [abs_of_nonpos (by linarith)]; ring
      refine ⟨h, by rw [e]; linarith, fun he => ?_⟩
      have : (magAt j : ℝ) = magAt k := by linarith
      exact_mod_cast this
  rcases lt_trichotomy (2 * x) (magAt k + magAt (k + 1)) with hx | hx | hx
  · refine ⟨k, hkmax, fun j => ?_, fun j hne he => ?_⟩
    · rw [dk]
      rcases dist j with ⟨-, h, -⟩ | ⟨-, h, -⟩ <;> linarith
    · rw [dk] at he
      rcases dist j with ⟨-, -, h⟩ | ⟨-, h, -⟩
      · exact absurd (h he) hne
      · linarith
  · -- a tie: the last finite place is not in one
    have hk1 : k + 1 < 0x7F800000 := by
      rcases Nat.lt_or_ge (k + 1) 0x7F800000 with h | h
      · exact h
      · have e : k = 0x7F7FFFFF := by omega
        have := magAt_overflow
        rw [e] at hx
        norm_num at hx this
        linarith
    rcases Nat.mod_two_eq_zero_or_one k with hp | hp
    · refine ⟨k, hkmax, fun j => ?_, fun _ _ _ => hp⟩
      rw [dk]
      rcases dist j with ⟨-, h, -⟩ | ⟨-, h, -⟩ <;> linarith
    · refine ⟨k + 1, hk1, fun j => ?_, fun _ _ _ => by omega⟩
      rw [dk1]
      rcases dist j with ⟨-, h, -⟩ | ⟨-, h, -⟩ <;> linarith
  · have hk1 : k + 1 < 0x7F800000 := by
      rcases Nat.lt_or_ge (k + 1) 0x7F800000 with h | h
      · exact h
      · have e : k = 0x7F7FFFFF := by omega
        have := magAt_overflow
        rw [e] at hx
        norm_num at hx this
        linarith
    refine ⟨k + 1, hk1, fun j => ?_, fun j hne he => ?_⟩
    · rw [dk1]
      rcases dist j with ⟨-, h, -⟩ | ⟨-, h, -⟩ <;> linarith
    · rw [dk1] at he
      rcases dist j with ⟨-, h, -⟩ | ⟨-, -, h⟩
      · linarith
      · exact absurd (h he) hne

/-! ### The nearest word -/

/-- How far a word is from a real, in units of 2^-149: a word of the real's sign by its place, and one of the other sign
no nearer than 0. -/
theorem dist_word (v : Word) (r : ℝ) (neg : Bool) (hr : if neg then r ≤ 0 else 0 ≤ r) :
    (f32Neg v = neg → |val v - r| * 2 ^ 149 = |(magAt (placeOf v) : ℝ) - |r| * 2 ^ 149|) ∧
    (f32Neg v ≠ neg → |val v - r| * 2 ^ 149 = magAt (placeOf v) + |r| * 2 ^ 149) := by
  have h2 : (0 : ℝ) < 2 ^ 149 := by positivity
  have hm : (0 : ℝ) ≤ magAt (placeOf v) := by positivity
  have key : |val v - r| * 2 ^ 149 = |(if f32Neg v then -1 else 1) * (magAt (placeOf v) : ℝ) - r * 2 ^ 149| := by
    rw [val_eq_magAt, ← abs_of_pos h2, ← abs_mul, abs_of_pos h2]
    congr 1
    field_simp
  rw [key]
  cases neg <;> cases hv : f32Neg v <;> simp only [Bool.false_eq_true, if_false, if_true] at hr ⊢
  · rw [abs_of_nonneg hr]
    simp
  · rw [abs_of_nonneg hr]
    refine ⟨fun h => by simp at h, fun _ => ?_⟩
    rw [abs_of_nonpos (by nlinarith)]
    ring
  · rw [abs_of_nonpos hr]
    refine ⟨fun h => by simp at h, fun _ => ?_⟩
    rw [abs_of_nonneg (by nlinarith)]
    ring
  · rw [abs_of_nonpos hr, ← abs_neg]
    refine ⟨fun _ => by congr 1; ring, fun h => by simp at h⟩

/-- A word at the nearest place with the sign of a real is its RNE32. -/
theorem isRne32_of_place {r : ℝ} {w : Word} (hr : if f32Neg w then r ≤ 0 else 0 ≤ r) (hw : placeOf w < 0x7F800000)
    (h1 : ∀ j, |(magAt (placeOf w) : ℝ) - |r| * 2 ^ 149| ≤ |(magAt j : ℝ) - |r| * 2 ^ 149|)
    (h2 : ∀ j, magAt j ≠ magAt (placeOf w) → |(magAt j : ℝ) - |r| * 2 ^ 149| = |(magAt (placeOf w) : ℝ) - |r| * 2 ^ 149| →
      placeOf w % 2 = 0)
    (hs : (0 < r → f32Neg w = false) ∧ (r < 0 → f32Neg w = true)) : IsRne32 w r := by
  have hpos : (0 : ℝ) < 2 ^ 149 := by positivity
  have hw0 := (dist_word w r (f32Neg w) hr).1 rfl
  have hx : 0 ≤ |r| * 2 ^ 149 := by positivity
  have hz : |(magAt 0 : ℝ) - |r| * 2 ^ 149| = |r| * 2 ^ 149 := by
    rw [show (magAt 0 : ℝ) = 0 by norm_num [magAt], zero_sub, abs_neg, abs_of_nonneg hx]
  refine ⟨(finite_iff_place w).2 hw, fun v _ => ?_, fun v _ hne he => ?_, hs.1, hs.2⟩
  · refine le_of_mul_le_mul_right ?_ hpos
    rw [hw0]
    by_cases hv : f32Neg v = f32Neg w
    · rw [(dist_word v r _ hr).1 hv]
      exact h1 _
    · rw [(dist_word v r _ hr).2 hv]
      have := h1 0
      have : (0 : ℝ) ≤ magAt (placeOf v) := by positivity
      linarith
  · have he' : |val v - r| * 2 ^ 149 = |val w - r| * 2 ^ 149 := by rw [he]
    rw [hw0] at he'
    rw [frac_eq_place, Nat.mod_mod_of_dvd _ (by norm_num : 2 ∣ 2 ^ 23)]
    by_cases hv : f32Neg v = f32Neg w
    · rw [(dist_word v r _ hr).1 hv] at he'
      refine h2 _ (fun hm => hne ?_) he'
      rw [val_eq_magAt, val_eq_magAt, hv, hm]
    · rw [(dist_word v r _ hr).2 hv] at he'
      have h0 := h1 0
      have hm : (0 : ℝ) ≤ magAt (placeOf v) := by positivity
      have hm0 : (magAt (placeOf v) : ℝ) = 0 := by linarith
      refine h2 0 (fun hm' => hne ?_) (by linarith)
      have hw0' : (magAt (placeOf w) : ℝ) = 0 := by
        rw [← hm']
        norm_num [magAt]
      rw [val_eq_magAt, val_eq_magAt, hm0, hw0']
      simp

/-- Every real has a nearest word. -/
theorem exists_isNearestWord (r : ℝ) : ∃ w, IsNearestWord w r := by
  rcases lt_or_ge |r| (2 ^ 128 - 2 ^ 103) with hlt | hge
  · have hpos : (0 : ℝ) < 2 ^ 149 := by positivity
    obtain ⟨c, hc, h1, h2⟩ := exists_nearest_place (x := |r| * 2 ^ 149) (by positivity)
      (mul_lt_mul_of_pos_right hlt hpos)
    by_cases h0 : r = 0
    · subst h0
      refine ⟨zeroTapWord, fun _ => rfl, fun _ => ?_, fun h => absurd h (not_le.2 hlt)⟩
      have hp : placeOf zeroTapWord = 0 := by
        unfold zeroTapWord
        split <;> rfl
      refine isRne32_of_place (by simp) (by rw [hp]; norm_num) (fun j => ?_) (fun j _ _ => by rw [hp])
        ⟨fun h => absurd h (lt_irrefl _), fun h => absurd h (lt_irrefl _)⟩
      rw [hp]
      simp [magAt]
    · have hp : ∀ neg, placeOf (wordAt neg c) = c := fun neg => wordAt_place neg (by omega)
      have hn : ∀ neg, f32Neg (wordAt neg c) = neg := fun neg => wordAt_neg neg (by omega)
      refine ⟨wordAt (decide (r < 0)) c, fun h => absurd h h0, fun _ => ?_, fun h => absurd h (not_le.2 hlt)⟩
      refine isRne32_of_place ?_ (by rw [hp]; exact hc) (by rw [hp]; exact h1) (by rw [hp]; exact h2)
        ⟨fun h => ?_, fun h => ?_⟩
      · rw [hn]
        by_cases h : r < 0
        · simp [h, h.le]
        · simpa [h] using not_lt.1 h
      · rw [hn]
        simp [h.le]
      · rw [hn]
        simp [h]
  · have h0 : r ≠ 0 := by
      rintro rfl
      norm_num at hge
    exact ⟨_, fun h => absurd h h0, fun h => absurd h (not_lt.2 hge), fun _ => rfl⟩

/-- The nearest word is one word. -/
theorem isNearestWord_unique {v w : Word} {r : ℝ} (hv : IsNearestWord v r) (hw : IsNearestWord w r) : v = w := by
  rcases lt_or_ge |r| (2 ^ 128 - 2 ^ 103) with hlt | hge
  · by_cases h0 : r = 0
    · rw [hv.1 h0, hw.1 h0]
    · obtain ⟨hvf, hv1, hv2, hv3, hv4⟩ := hv.2.1 hlt
      obtain ⟨hwf, hw1, hw2, hw3, hw4⟩ := hw.2.1 hlt
      have hsv : f32Neg v = decide (r < 0) := by
        rcases lt_or_gt_of_ne h0 with h | h
        · simpa [f32Neg, h] using hv4 h
        · simpa [f32Neg, h.le, not_lt.2 h.le] using hv3 h
      have hsw : f32Neg w = decide (r < 0) := by
        rcases lt_or_gt_of_ne h0 with h | h
        · simpa [f32Neg, h] using hw4 h
        · simpa [f32Neg, h.le, not_lt.2 h.le] using hw3 h
      have hr : if decide (r < 0) then r ≤ 0 else 0 ≤ r := by
        by_cases h : r < 0
        · simp [h, h.le]
        · simpa [h] using not_lt.1 h
      refine word_ext (hsv.trans hsw.symm) ?_
      by_contra hne
      have hvne : val v ≠ val w := by
        intro h
        rw [val_eq_magAt, val_eq_magAt, hsv, hsw] at h
        apply hne
        apply magAt_strictMono.injective
        have hs : (if decide (r < 0) = true then (-1 : ℝ) else 1) ≠ 0 := by split <;> norm_num
        have h149 : (2 : ℝ) ^ 149 ≠ 0 := by positivity
        have := mul_left_cancel₀ hs h
        have : (magAt (placeOf v) : ℝ) = magAt (placeOf w) := by field_simp at this; exact this
        exact_mod_cast this
      have he : |val v - r| = |val w - r| := le_antisymm (hv1 w hwf) (hw1 v hvf)
      have hpe : placeOf v % 2 = 0 ∧ placeOf w % 2 = 0 := by
        have e1 := hv2 w hwf (Ne.symm hvne) he.symm
        have e2 := hw2 v hvf hvne he
        rw [frac_eq_place, Nat.mod_mod_of_dvd _ (by norm_num : 2 ∣ 2 ^ 23)] at e1 e2
        exact ⟨e1, e2⟩
      -- a word strictly between two equidistant ones is nearer
      have between : ∀ {a b : Word}, Sys2Proof.Reference.Finite b → f32Neg a = decide (r < 0) → f32Neg b = decide (r < 0) →
          placeOf a < placeOf b → placeOf a % 2 = 0 → placeOf b % 2 = 0 → |val a - r| = |val b - r| →
          (∀ u : Word, Sys2Proof.Reference.Finite u → |val a - r| ≤ |val u - r|) → False := by
        intro a b hbf ha hb hab hpa hpb hd hmin
        have hbp := (finite_iff_place b).1 hbf
        have hu := wordAt_place (decide (r < 0)) (n := placeOf a + 1) (by omega)
        have hun := wordAt_neg (decide (r < 0)) (n := placeOf a + 1) (by omega)
        have hm := hmin (wordAt (decide (r < 0)) (placeOf a + 1)) ((finite_iff_place _).2 (by rw [hu]; omega))
        have hpos : (0 : ℝ) < 2 ^ 149 := by positivity
        have hm' := mul_le_mul_of_nonneg_right hm hpos.le
        have hd' : |val a - r| * 2 ^ 149 = |val b - r| * 2 ^ 149 := by rw [hd]
        rw [(dist_word a r _ hr).1 ha] at hm' hd'
        rw [(dist_word _ r _ hr).1 hun, hu] at hm'
        rw [(dist_word b r _ hr).1 hb] at hd'
        have l1 : (magAt (placeOf a) : ℝ) < magAt (placeOf a + 1) := by
          exact_mod_cast magAt_strictMono (Nat.lt_succ_self _)
        have l2 : (magAt (placeOf a + 1) : ℝ) < magAt (placeOf b) := by
          exact_mod_cast magAt_strictMono (by omega : placeOf a + 1 < placeOf b)
        have s1 := sq_le_sq.2 hm'
        have s2 := (sq_eq_sq_iff_abs_eq_abs _ _).2 hd'
        generalize (magAt (placeOf a) : ℝ) = A at *
        generalize (magAt (placeOf b) : ℝ) = B at *
        generalize |r| * 2 ^ 149 = X at *
        have hmid : A + B - 2 * X = 0 := by
          have h0 : (A - B) * (A + B - 2 * X) = 0 := by linarith
          rcases mul_eq_zero.1 h0 with h | h <;> linarith
        nlinarith
      rcases Nat.lt_or_gt_of_ne hne with h | h
      · exact between hwf hsv hsw h hpe.1 hpe.2 he hv1
      · exact between hvf hsw hsv h hpe.2 hpe.1 he.symm hw1
  · rw [hv.2.2 hge, hw.2.2 hge]

/-! ### The operations on exact reals -/

/-- `nearestWordOf` is RNE32. -/
theorem nearestWordOf_spec (r : ℝ) : IsNearestWord (nearestWordOf (Erased.mk r)) r := by
  have h : IsNearestWord (nearestWordOf (Erased.mk r)) (Erased.mk r).out :=
    (@determined Word _ (nearestWord_nonempty (Erased.mk r).out)).property (exists_isNearestWord _)
  rwa [Erased.out_mk] at h

/-- A word that is nearest to a real is the one `nearestWordOf` gives. -/
theorem nearestWordOf_eq {w : Word} {r : ℝ} (h : IsNearestWord w r) : nearestWordOf (Erased.mk r) = w :=
  isNearestWord_unique (nearestWordOf_spec r) h

@[simp] theorem realIsZero_iff (r : ℝ) : realIsZero (Erased.mk r) = true ↔ r = 0 := by
  have h : realIsZero (Erased.mk r) = true ↔ (Erased.mk r).out = 0 :=
    (@determined Bool _ (isZero_nonempty (Erased.mk r).out)).property
  rwa [Erased.out_mk] at h

end Sys2Proof.Machine
end

