-- ==== Sys2Proof/Laws/Fetch.lean ====
section
/-! SUPPORT. What finding the next command can do, said once: which agent moves, what it takes from its port, and so what
one step is. -/

namespace Sys2Proof.Machine

/-! ### Decoding a port -/

/-- A command is decoded exactly when the header names one on the port and its payload is all there; what it is and what
follows it. -/
theorem decode_eq_command {p : Port} {ws rest : List Word} {i : Instr} :
    decode p ws = .command i rest ↔
      ∃ hdr tl op, ws = hdr :: tl ∧ opcodeOn p hdr = some op ∧ payloadWords op hdr ≤ tl.length ∧
        i = assembleInstr op hdr (tl.take (payloadWords op hdr)) ∧ rest = tl.drop (payloadWords op hdr) := by
  cases ws with
  | nil => simp [decode]
  | cons hdr tl =>
    cases h : opcodeOn p hdr with
    | none => simp [decode, h]
    | some op =>
      by_cases hw : payloadWords op hdr ≤ tl.length
      · simp only [decode, h, hasWords_iff.2 hw, if_true, Decoded.command.injEq, List.cons.injEq]
        constructor
        · rintro ⟨rfl, rfl⟩
          exact ⟨hdr, tl, op, ⟨rfl, rfl⟩, h, hw, rfl, rfl⟩
        · rintro ⟨hdr', tl', op', ⟨rfl, rfl⟩, h', -, rfl, rfl⟩
          rw [h] at h'
          cases h'
          exact ⟨rfl, rfl⟩
      · simp only [decode, h, mt hasWords_iff.1 hw, if_false, Bool.false_eq_true, reduceCtorEq, false_iff, not_exists]
        rintro hdr' tl' op' ⟨he, h', hle, -⟩
        cases he
        rw [h] at h'
        cases h'
        exact hw hle

/-- A header is illegal exactly when it names no command on the port; it is one word long. -/
theorem decode_eq_illegal {p : Port} {ws rest : List Word} {hdr : Word} :
    decode p ws = .illegal hdr rest ↔ ws = hdr :: rest ∧ opcodeOn p hdr = none := by
  cases ws with
  | nil => simp [decode]
  | cons h0 tl =>
    cases h : opcodeOn p h0 with
    | none =>
      simp only [decode, h, Decoded.illegal.injEq, List.cons.injEq]
      constructor
      · rintro ⟨rfl, rfl⟩
        exact ⟨⟨rfl, rfl⟩, h⟩
      · rintro ⟨⟨rfl, rfl⟩, -⟩
        exact ⟨rfl, rfl⟩
    | some op =>
      have : ¬ (h0 :: tl = hdr :: rest ∧ opcodeOn p hdr = none) := by
        rintro ⟨he, hn⟩
        cases he
        rw [h] at hn
        cases hn
      simp only [decode, h, this, iff_false]
      split <;> simp

/-- A decoded command is as many words as its header decides, and what follows it is what is left. -/
theorem decode_command_length {p : Port} {ws rest : List Word} {i : Instr} (h : decode p ws = .command i rest) :
    ∃ hdr tl, ws = hdr :: tl ∧ rest = ws.drop (commandLength p hdr) ∧ commandLength p hdr ≤ ws.length := by
  obtain ⟨hdr, tl, op, rfl, ho, hle, -, rfl⟩ := decode_eq_command.1 h
  refine ⟨hdr, tl, rfl, ?_, ?_⟩
  · simp [commandLength, ho, Nat.add_comm 1]
  · simp only [commandLength, ho, List.length_cons]
    omega

/-! ### Which agent moves -/

/-- The arbitration changes only the model's own fields, and the agent it picks has a step. -/
theorem choosePort_eq_some {s s1 : State} {p : Port} (h : choosePort s = some (p, s1)) :
    portReady p s = true ∧ s1 = s.setEnv s1.env := by
  unfold choosePort at h
  split at h <;> simp only [Option.some.injEq, Prod.mk.injEq, reduceCtorEq] at h
  · rename_i h1 h2
    obtain ⟨rfl, rfl⟩ := h
    exact ⟨by cases nextGrant s <;> assumption, rfl⟩
  · obtain ⟨rfl, rfl⟩ := h
    exact ⟨by assumption, rfl⟩
  · obtain ⟨rfl, rfl⟩ := h
    exact ⟨by assumption, rfl⟩

/-- No agent moves exactly when neither has a step. -/
theorem choosePort_eq_none {s : State} :
    choosePort s = none ↔ portReady .cmd s = false ∧ portReady .msg s = false := by
  unfold choosePort
  split <;> simp_all

/-- A port has no step exactly when no command on it is fully received. -/
theorem portReady_eq_false {p : Port} {s : State} :
    portReady p s = false ↔ decode p (s.port p).words = .incomplete := by
  unfold portReady
  split <;> simp_all

/-! ### What one step is -/

/-- A fetched command was decoded at the front of the port of the agent that moved, whose position advances by the
command's length. -/
theorem fetch_eq_command {s t : State} {i : Instr} (h : fetch s = .command i t) :
    ∃ p s1 rest, choosePort s = some (p, s1) ∧ decode p (s.port p).words = .command i rest ∧ t = consume p rest s1 := by
  unfold fetch at h
  split at h
  · rename_i p s1 hc
    have hw : s1.port p = s.port p := by
      rw [(choosePort_eq_some hc).2]
      simp
    unfold fetchOn at h
    rw [hw] at h
    split at h <;> cases h
    rename_i rest hd
    exact ⟨p, s1, rest, hc, hd, rfl⟩
  · cases h

/-- A fetched illegal header has raised ILLEGAL_OPCODE and was one word long. -/
theorem fetch_eq_illegal {s t : State} (h : fetch s = .illegal t) :
    ∃ p s1 hdr rest, choosePort s = some (p, s1) ∧ decode p (s.port p).words = .illegal hdr rest ∧
      t = raiseError .illegalOpcode hdr 0 (consume p rest s1) := by
  unfold fetch at h
  split at h
  · rename_i p s1 hc
    have hw : s1.port p = s.port p := by
      rw [(choosePort_eq_some hc).2]
      simp
    unfold fetchOn at h
    rw [hw] at h
    split at h <;> cases h
    rename_i hdr rest hd
    exact ⟨p, s1, hdr, rest, hc, hd, rfl⟩
  · cases h

/-- A step that answers a next state has executed one decoded command or raised ILLEGAL_OPCODE, with legal parameters. -/
theorem step_eq_next {s t : State} (h : step s = .next t) :
    s.params.legal ∧
      ((∃ i s1, fetch s = .command i s1 ∧ exec i s1 = .next t) ∨ fetch s = .illegal t) := by
  unfold step at h
  split at h
  · rename_i hl
    refine ⟨hl, ?_⟩
    split at h
    · rename_i i s1 hf
      exact .inl ⟨i, s1, hf, h⟩
    · rename_i s1 hf
      cases h
      exact .inr hf
    · cases h
  · cases h

end Sys2Proof.Machine
end

