-- ==== Sys2Proof/Laws/Modulator.lean ====
section
/-! SUPPORT. The loop of MOD.REQUEST: what starting a symbol, moving past a sample and the whole loop can do, said once. -/

namespace Sys2Proof.Machine

/-- The configuration of two modulators is the same. -/
def ModState.SameConfig (m m' : ModState) : Prop :=
  m'.cfg = m.cfg ∧ m'.dbg = m.dbg ∧ m'.sps = m.sps ∧ m'.alpha = m.alpha ∧ m'.nTaps = m.nTaps

theorem ModState.SameConfig.refl (m : ModState) : m.SameConfig m := ⟨rfl, rfl, rfl, rfl, rfl⟩

theorem ModState.SameConfig.trans {a b c : ModState} (h : a.SameConfig b) (k : b.SameConfig c) : a.SameConfig c :=
  ⟨k.1.trans h.1, k.2.1.trans h.2.1, k.2.2.1.trans h.2.2.1, k.2.2.2.1.trans h.2.2.2.1,
    k.2.2.2.2.trans h.2.2.2.2⟩

/-! ### mapNext -/

@[simp] theorem mapNext_act (m : ModState) : (mapNext m).act = true := rfl
@[simp] theorem mapNext_k (m : ModState) : (mapNext m).k = 0#16 := rfl
@[simp] theorem mapNext_bits (m : ModState) : (mapNext m).bits = m.bits - 2#4 := rfl
@[simp] theorem mapNext_byte (m : ModState) : (mapNext m).byte = m.byte := rfl
@[simp] theorem mapNext_inFifo (m : ModState) : (mapNext m).inFifo = m.inFifo := rfl
@[simp] theorem mapNext_symcnt (m : ModState) : (mapNext m).symcnt = m.symcnt := rfl
@[simp] theorem mapNext_sps (m : ModState) : (mapNext m).sps = m.sps := rfl
theorem mapNext_sameConfig (m : ModState) : m.SameConfig (mapNext m) := ⟨rfl, rfl, rfl, rfl, rfl⟩

/-! ### ensureSymbol -/

/-- No symbol can start exactly when none is in progress, no pair is left and no byte waits (41_modulator.md R150). -/
theorem ensureSymbol_eq_none {m : ModState} :
    ensureSymbol m = none ↔ m.act = false ∧ m.bits = 0#4 ∧ m.inFifo = [] := by
  unfold ensureSymbol
  cases m.act <;> by_cases hb : m.bits = 0#4 <;> cases m.inFifo <;> simp [hb]

/-- The three ways a symbol is in progress: already, from the current byte, or from a byte just pulled. -/
theorem ensureSymbol_cases {m m' : ModState} {pulled : Nat} (h : ensureSymbol m = some (m', pulled)) :
    (m.act = true ∧ m' = m ∧ pulled = 0) ∨
    (m.act = false ∧ m.bits ≠ 0#4 ∧ m' = mapNext m ∧ pulled = 0) ∨
    ∃ b rest, m.act = false ∧ m.bits = 0#4 ∧ m.inFifo = b :: rest ∧
      m' = mapNext { m with inFifo := rest, byte := b, bits := 8#4 } ∧ pulled = 1 := by
  unfold ensureSymbol at h
  split at h
  · rename_i ha
    cases h
    exact .inl ⟨ha, rfl, rfl⟩
  · rename_i ha
    have ha : m.act = false := by simpa using ha
    split at h
    · rename_i hb
      split at h
      · cases h
      · rename_i b rest hf
        cases h
        exact .inr (.inr ⟨b, rest, ha, hb, hf, rfl, rfl⟩)
    · rename_i hb
      cases h
      exact .inr (.inl ⟨ha, hb, rfl, rfl⟩)

/-- A symbol is in progress afterwards, in the same configuration, the bytes pulled taken from the front. -/
theorem ensureSymbol_spec {m m' : ModState} {pulled : Nat} (h : ensureSymbol m = some (m', pulled)) :
    m'.act = true ∧ m.SameConfig m' ∧ m'.symcnt = m.symcnt ∧ pulled ≤ m.inFifo.length ∧
      m'.inFifo = m.inFifo.drop pulled := by
  rcases ensureSymbol_cases h with ⟨ha, rfl, rfl⟩ | ⟨-, -, rfl, rfl⟩ | ⟨b, rest, -, -, hf, rfl, rfl⟩
  · exact ⟨ha, .refl _, rfl, Nat.zero_le _, rfl⟩
  · exact ⟨rfl, mapNext_sameConfig _, rfl, Nat.zero_le _, rfl⟩
  · exact ⟨rfl, ⟨rfl, rfl, rfl, rfl, rfl⟩, rfl, by simp [hf], by simp [hf]⟩

/-! ### advanceSample -/

/-- The last sample of a symbol ends it. -/
theorem advanceSample_last {m : ModState} (h : m.k.toNat + 1 = m.sps.toNat) :
    advanceSample m = { m with act := false, k := 0#16, symcnt := m.symcnt + 1#64 } := by
  unfold advanceSample
  rw [if_pos h]

/-- Any other sample moves to the next. -/
theorem advanceSample_more {m : ModState} (h : m.k.toNat + 1 ≠ m.sps.toNat) :
    advanceSample m = { m with k := m.k + 1#16 } := by
  unfold advanceSample
  rw [if_neg h]

theorem advanceSample_sameConfig (m : ModState) : m.SameConfig (advanceSample m) := by
  unfold advanceSample
  split <;> exact ⟨rfl, rfl, rfl, rfl, rfl⟩

@[simp] theorem advanceSample_inFifo (m : ModState) : (advanceSample m).inFifo = m.inFifo := by
  unfold advanceSample
  split <;> rfl

/-! ### fillSamples -/

@[simp] theorem fillSamples_zero (p : Params) (tap : TapMemory) (m : ModState) :
    fillSamples p tap 0 m = ⟨m, [], 0⟩ := rfl

/-- With the input exhausted the loop ends (41_modulator.md R150). -/
theorem fillSamples_exhausted {p : Params} {tap : TapMemory} {m : ModState} (n : Nat) (h : ensureSymbol m = none) :
    fillSamples p tap n m = ⟨m, [], 0⟩ := by
  cases n <;> simp [fillSamples, h]

/-- One pass of the loop. -/
theorem fillSamples_succ {p : Params} {tap : TapMemory} {m m' : ModState} {pulled : Nat} (n : Nat)
    (h : ensureSymbol m = some (m', pulled)) :
    fillSamples p tap (n + 1) m =
      ⟨(fillSamples p tap n (advanceSample m')).mod,
        sampleNow p tap m' :: (fillSamples p tap n (advanceSample m')).samples,
        pulled + (fillSamples p tap n (advanceSample m')).consumed⟩ := by
  simp [fillSamples, h]

/-- The loop emits at most as many samples as asked for, keeps the configuration, and pulls its bytes from the front. -/
theorem fillSamples_spec (p : Params) (tap : TapMemory) (n : Nat) (m : ModState) :
    (fillSamples p tap n m).samples.length ≤ n ∧ m.SameConfig (fillSamples p tap n m).mod ∧
      (fillSamples p tap n m).consumed ≤ m.inFifo.length ∧
      (fillSamples p tap n m).mod.inFifo = m.inFifo.drop (fillSamples p tap n m).consumed := by
  induction n generalizing m with
  | zero => exact ⟨Nat.le_refl _, .refl m, Nat.zero_le _, rfl⟩
  | succ n ih =>
    cases h : ensureSymbol m with
    | none =>
      rw [fillSamples_exhausted (n + 1) h]
      exact ⟨Nat.zero_le _, .refl m, Nat.zero_le _, rfl⟩
    | some r =>
      obtain ⟨m', pulled⟩ := r
      obtain ⟨-, hc, -, hle, hd⟩ := ensureSymbol_spec h
      obtain ⟨h1, h2, h3, h4⟩ := ih (advanceSample m')
      rw [fillSamples_succ n h]
      simp only [advanceSample_inFifo, hd, List.length_drop, List.drop_drop] at h3 h4
      exact ⟨by simpa using h1, (hc.trans (advanceSample_sameConfig m')).trans h2, by simp only; omega, h4⟩

/-- The loop for a + b samples is the loop for a and then the loop for b. -/
theorem fillSamples_add (p : Params) (tap : TapMemory) (a b : Nat) (m : ModState) :
    fillSamples p tap (a + b) m =
      ⟨(fillSamples p tap b (fillSamples p tap a m).mod).mod,
        (fillSamples p tap a m).samples ++ (fillSamples p tap b (fillSamples p tap a m).mod).samples,
        (fillSamples p tap a m).consumed + (fillSamples p tap b (fillSamples p tap a m).mod).consumed⟩ := by
  induction a generalizing m with
  | zero => simp
  | succ a ih =>
    cases h : ensureSymbol m with
    | none => simp [fillSamples_exhausted _ h]
    | some r =>
      obtain ⟨m', pulled⟩ := r
      rw [Nat.succ_add_eq_add_succ, Nat.add_succ, Nat.succ_eq_add_one, fillSamples_succ (a + b) h, ih,
        fillSamples_succ a h]
      simp [Nat.add_assoc]

end Sys2Proof.Machine
end

