-- ==== Sys2Proof/Laws/Operands.lean ====
section
/-! SUPPORT. Packed bytes: how many there are, and unpacking what was packed. -/

namespace Sys2Proof.Machine

@[simp] theorem wordBytes_length (w : Word) : (wordBytes w).length = 4 := rfl

/-- The words of a payload hold four bytes each. -/
@[simp] theorem flatMap_wordBytes_length (ws : List Word) : (ws.flatMap wordBytes).length = 4 * ws.length := by
  induction ws with
  | nil => rfl
  | cons w ws ih =>
    rw [List.flatMap_cons, List.length_append, ih, wordBytes_length, List.length_cons]
    ring

/-- Unpacking gives the bytes asked for, as far as the words hold them. -/
theorem unpackBytes_length_eq_min (len : Nat) (ws : List Word) : (unpackBytes len ws).length = min len (4 * ws.length) := by
  rw [unpackBytes, List.length_take, flatMap_wordBytes_length]

/-- Unpacking never gives more bytes than asked for. -/
theorem unpackBytes_length_le (len : Nat) (ws : List Word) : (unpackBytes len ws).length ≤ len := by
  rw [unpackBytes_length_eq_min]
  exact Nat.min_le_left _ _

/-- With enough words, unpacking gives exactly the bytes asked for (20_memory.md R75). -/
theorem unpackBytes_length_of_wordsFor {len : Nat} {ws : List Word} (h : wordsFor len ≤ ws.length) :
    (unpackBytes len ws).length = len := by
  rw [unpackBytes_length_eq_min]
  unfold wordsFor at h
  omega

/-- Packing takes as many words as the length says. -/
theorem packBytes_length (bs : List Byte) : (packBytes bs).length = wordsFor bs.length := by
  induction bs using packBytes.induct with
  | case1 => rfl
  | case2 => simp [packBytes, wordsFor]
  | case3 => simp [packBytes, wordsFor]
  | case4 => simp [packBytes, wordsFor]
  | case5 a b c d rest ih =>
    simp only [packBytes, List.length_cons, ih, wordsFor]
    omega

/-- The bytes of a word put together from four bytes. -/
theorem wordBytes_append (a b c d : Byte) : wordBytes (d ++ c ++ b ++ a) = [a, b, c, d] := by
  have h0 : (d ++ c ++ b ++ a : Word).extractLsb' 0 8 = a := extract_low (n := 24) _ a
  have h1 : (d ++ c ++ b ++ a : Word).extractLsb' 8 8 = b :=
    (extract_of_high (n := 24) (m := 8) _ a (i := 8) (by omega)).trans (extract_low (n := 16) _ b)
  have h2 : (d ++ c ++ b ++ a : Word).extractLsb' 16 8 = c :=
    ((extract_of_high (n := 24) (m := 8) _ a (i := 16) (by omega)).trans
      (extract_of_high (n := 16) (m := 8) _ b (i := 8) (by omega))).trans (extract_low (n := 8) _ c)
  have h3 : (d ++ c ++ b ++ a : Word).extractLsb' 24 8 = d :=
    ((extract_of_high (n := 24) (m := 8) _ a (i := 24) (by omega)).trans
      (extract_of_high (n := 16) (m := 8) _ b (i := 16) (by omega))).trans (extract_high (n := 8) d c)
  unfold wordBytes
  rw [h0, h1, h2, h3]

/-- Unpacking what was packed gives it back. -/
theorem unpackBytes_packBytes (bs : List Byte) : unpackBytes bs.length (packBytes bs) = bs := by
  induction bs using packBytes.induct with
  | case1 => rfl
  | case2 a =>
    have h : (0x000000#24 ++ a : Word).extractLsb' 0 8 = a := extract_low (n := 24) _ a
    simp [unpackBytes, packBytes, wordBytes, h]
  | case3 a b =>
    have h := wordBytes_append a b 0#8 0#8
    have e : (0x0000#16 ++ b ++ a : Word) = 0#8 ++ 0#8 ++ b ++ a := rfl
    simp [unpackBytes, packBytes, e, h]
  | case4 a b c =>
    have h := wordBytes_append a b c 0#8
    simp [unpackBytes, packBytes, h]
  | case5 a b c d rest ih =>
    unfold unpackBytes at ih ⊢
    simp [packBytes, wordBytes_append, ih]

end Sys2Proof.Machine
end

