-- ==== Sys2Proof/Laws/PerInstr.lean ====
section
/-! SUPPORT. Facts about every command as syntax, one lemma per constructor of `Instr`.

EncodeLength: a well-formed command is as long as its header says, on the port that admits every command
(30_encoding.md R93). -/

namespace Sys2Proof.Laws.EncodeLength

/-- The words of a well-formed command are as many as its header decides. -/
def Statement (i : Instr) : Prop := i.wf = true → (encode i).length = commandLength .cmd i.header

/-- The length field of a CONV.CONFIG header. -/
theorem convConfig_len (dbg : Bool) (reserved : BitVec 15) (len : BitVec 8) (rateLo rateHi : Word) (name : List Word) :
    (Instr.convConfig dbg reserved len rateLo rateHi name).header.extractLsb' 0 8 = len :=
  (extract_of_low (n := 8) (m := 24) _ _ (by omega)).trans (extract_low (n := 1 + 15) _ _)

/-- The length field of a MSG.DELIVER header. -/
theorem msgDeliver_len (kind : BitVec 4) (len : BitVec 20) (payload : List Word) :
    (Instr.msgDeliver kind len payload).header.extractLsb' 0 20 = len :=
  (extract_of_low (n := 8) (m := 24) _ _ (by omega)).trans (extract_low (n := 4) _ _)

theorem nop (ignored : BitVec 24) : Statement (.nop ignored) := fun _ => by
  simp [commandLength, payloadWords, Instr.payload, Instr.opcode]

theorem reset (reserved : BitVec 24) : Statement (.reset reserved) := fun _ => by
  simp [commandLength, payloadWords, Instr.payload, Instr.opcode]

theorem csrRead (reserved : BitVec 16) (idx : BitVec 8) : Statement (.csrRead reserved idx) := fun _ => by
  simp [commandLength, payloadWords, Instr.payload, Instr.opcode]

theorem errClear (reserved : BitVec 24) : Statement (.errClear reserved) := fun _ => by
  simp [commandLength, payloadWords, Instr.payload, Instr.opcode]

theorem modConfig (dbg : Bool) (reserved : BitVec 7) (sps : BitVec 16) (alpha : Word) :
    Statement (.modConfig dbg reserved sps alpha) := fun _ => by
  simp [commandLength, payloadWords, Instr.payload, Instr.opcode]

theorem modFeed (reserved : BitVec 16) (byte : Byte) : Statement (.modFeed reserved byte) := fun _ => by
  simp [commandLength, payloadWords, Instr.payload, Instr.opcode]

theorem modRequest (n : BitVec 24) : Statement (.modRequest n) := fun _ => by
  simp [commandLength, payloadWords, Instr.payload, Instr.opcode]

theorem tapRead (reserved : BitVec 8) (i : BitVec 16) : Statement (.tapRead reserved i) := fun _ => by
  simp [commandLength, payloadWords, Instr.payload, Instr.opcode]

theorem convConfig (dbg : Bool) (reserved : BitVec 15) (len : BitVec 8) (rateLo rateHi : Word) (name : List Word) :
    Statement (.convConfig dbg reserved len rateLo rateHi name) := fun h => by
  have hl : name.length = wordsFor len.toNat := by simpa [Instr.wf] using h
  simp [commandLength, payloadWords, convConfig_len, Instr.payload, Instr.opcode, hl]
  omega

theorem msgDeliver (kind : BitVec 4) (len : BitVec 20) (payload : List Word) :
    Statement (.msgDeliver kind len payload) := fun h => by
  have hl : payload.length = wordsFor len.toNat := by simpa [Instr.wf] using h
  simp [commandLength, payloadWords, msgDeliver_len, Instr.payload, Instr.opcode, hl]

theorem convRequest (n : BitVec 24) : Statement (.convRequest n) := fun _ => by
  simp [commandLength, payloadWords, Instr.payload, Instr.opcode]

end Sys2Proof.Laws.EncodeLength
end

