-- ==== Sys2Proof/Laws/TapGen.lean ====
section
/-! SUPPORT. The tap generator: the enclosures of the raw taps hold π·rrc of 40_configuration.md R125, their sum holds
π·Σ rrc (R126), and the lists of words have the length and the symmetry of R124 and R128. -/

namespace Sys2Proof.Machine

open Real Sys2Proof.Reference

/-! ### The raw taps -/

/-- The three branches of 40_configuration.md R125 are even in t, so a tap depends on its distance from the centre. -/
theorem rrc_of_distance (sps : ℕ) (α : ℝ) {i d : ℕ} (h : (i : ℝ) - 4 * sps = d ∨ (i : ℝ) - 4 * sps = -d) :
    rrc sps α i = rrc sps α (4 * sps + d) := by
  rcases h with h | h
  · have : i = 4 * sps + d := by
      have : (i : ℝ) = 4 * sps + d := by linarith
      exact_mod_cast this
    rw [this]
  · unfold rrc
    rw [h]
    push_cast
    rw [show 4 * (sps : ℝ) + d - 4 * sps = d by ring, neg_div]
    simp only [neg_eq_zero, abs_neg]
    split
    · rfl
    · split
      · rfl
      · rw [show π * -(↑d / ↑sps) * (1 - α) = -(π * (↑d / ↑sps) * (1 - α)) by ring, Real.sin_neg,
          show π * -((d : ℝ) / sps) * (1 + α) = -(π * (d / sps) * (1 + α)) by ring, Real.cos_neg,
          show (4 * α * -((d : ℝ) / sps)) ^ 2 = (4 * α * (d / sps)) ^ 2 by ring,
          show -sin (π * (↑d / ↑sps) * (1 - α)) + 4 * α * -((d : ℝ) / sps) * cos (π * (d / sps) * (1 + α)) =
            -(sin (π * (d / sps) * (1 - α)) + 4 * α * (d / sps) * cos (π * (d / sps) * (1 + α))) by ring,
          show π * -((d : ℝ) / sps) * (1 - (4 * α * (d / sps)) ^ 2) =
            -(π * (d / sps) * (1 - (4 * α * (d / sps)) ^ 2)) by ring, neg_div_neg_eq]

/-- The enclosure of a raw tap holds π·rrc, for a precision whose π and sin(π/4) are known to be 2 or more and not
negative. -/
theorem encloses_rawTap {p : Nat} {pi : Enclosure} (hpi : Encloses p π pi) (hpi2 : 2 * 2 ^ p ≤ pi.lo)
    (hsin : 0 ≤ (encSinPi p pi 1 4).lo) {sps an : Nat} (hs : 0 < sps) (ha : 0 < an) (ha1 : an ≤ 2 ^ 149) (d : Nat) :
    Encloses p (π * rrc sps ((an : ℝ) / 2 ^ 149) (4 * sps + d)) (encRawTap p pi sps an d) := by
  have hpi0 : 0 ≤ pi.lo := le_trans (by positivity) hpi2
  have hs' : (0 : ℝ) < sps := by exact_mod_cast hs
  have ha' : (0 : ℝ) < an := by exact_mod_cast ha
  have hpos := Real.pi_pos
  have hR : (2 : ℝ) ^ 149 = ((2 ^ 149 : ℕ) : ℝ) := by norm_num
  have hone : 0 < 2 ^ 149 := by positivity
  rw [hR]
  unfold encRawTap
  simp only
  generalize (2 : ℕ) ^ 149 = one at ha1 hone ⊢
  have hone' : (0 : ℝ) < one := by exact_mod_cast hone
  have hsub : (((one - an : Nat) : Int) : ℝ) = one - an := by
    rw [Int.cast_natCast, Nat.cast_sub ha1]
  split
  · -- the centre tap
    rename_i hd
    subst hd
    have h := encloses_add (encloses_scale hpi ((one - an : Nat) : Int) hone)
      (encloses_rat p ((4 * an : Nat) : Int) hone)
    have e : π * rrc sps ((an : ℝ) / one) (4 * sps + 0) =
        π * ((((one - an : Nat) : Int) : ℝ) / (one : ℝ))
          + (((4 * an : Nat) : Int) : ℝ) / (one : ℝ) := by
      have ht : (((4 * sps + 0 : ℕ) : ℝ) - 4 * sps) / sps = 0 := by
        push_cast
        ring
      unfold rrc
      simp only [ht, if_true]
      rw [hsub]
      push_cast
      field_simp
    rw [e]
    exact h
  · rename_i hd
    have hd' : (0 : ℝ) < d := by exact_mod_cast Nat.pos_of_ne_zero hd
    have ht : (((4 * sps + d : ℕ) : ℝ) - 4 * sps) / sps = d / sps := by
      push_cast
      ring
    have ht0 : (d : ℝ) / sps ≠ 0 := by positivity
    have htpos : (0 : ℝ) < d / sps := by positivity
    have habs : |(d : ℝ) / sps| = d / sps := abs_of_pos htpos
    have hdd : 0 < sps * one := by positivity
    -- the singular branch is the integer equality the generator tests
    have hsing : |(d : ℝ) / sps| = 1 / (4 * ((an : ℝ) / one)) ↔ 4 * an * d = sps * one := by
      rw [habs]
      constructor
      · intro h
        have h' : 4 * (an : ℝ) * d = sps * one := by
          field_simp at h
          linarith
        exact_mod_cast h'
      · intro h
        have h' : 4 * (an : ℝ) * d = sps * one := by exact_mod_cast h
        field_simp
        linarith
    split
    · -- |t| = 1/(4α)
      rename_i hq
      have hb := hsing.2 hq
      have h4a : 0 < 4 * an := by positivity
      have htwo : Encloses p 2 ⟨2 * 2 ^ p, 2 * 2 ^ p⟩ := by
        unfold Encloses
        push_cast
        simp
      have hadd0 : 0 ≤ (encAdd pi ⟨2 * 2 ^ p, 2 * 2 ^ p⟩).lo := by
        unfold encAdd
        positivity
      have hsub0 : 0 ≤ (encSub pi ⟨2 * 2 ^ p, 2 * 2 ^ p⟩).lo := by
        unfold encSub
        simpa using hpi2
      have h1 := encloses_mulPos (encloses_add hpi htwo) (encloses_sinPi hpi hpi0 (one) h4a) hadd0
      have h2 := encloses_mulPos (encloses_sub hpi htwo) (encloses_cosPi hpi hpi0 (one) h4a) hsub0
      have h3 := encloses_scale (encloses_mulPos (encloses_sinPi hpi hpi0 1 (d := 4) (by norm_num)) (encloses_add h1 h2)
        hsin) (an : Int) hone
      have hq4 : sin (π * (((1 : ℕ) : ℝ) / ((4 : ℕ) : ℝ))) = 1 / √2 := by
        rw [show π * (((1 : ℕ) : ℝ) / ((4 : ℕ) : ℝ)) = π / 4 by push_cast; ring, Real.sin_pi_div_four]
        have h2 : √(2 : ℝ) * √2 = 2 := Real.mul_self_sqrt (by norm_num)
        field_simp
        linarith
      have harg : π * ((one : ℝ) / ((4 * an : ℕ) : ℝ)) = π / (4 * ((an : ℝ) / one)) := by
        push_cast
        field_simp
      have e : π * rrc sps ((an : ℝ) / one) (4 * sps + d) =
          sin (π * (((1 : ℕ) : ℝ) / ((4 : ℕ) : ℝ))) *
            ((π + 2) * sin (π * ((one : ℝ) / ((4 * an : ℕ) : ℝ)))
              + (π - 2) * cos (π * ((one : ℝ) / ((4 * an : ℕ) : ℝ))))
            * (((an : Int) : ℝ) / (one : ℝ)) := by
        unfold rrc
        simp only [ht, if_neg ht0, if_pos hb]
        rw [hq4, harg]
        have : (0 : ℝ) < √2 := by positivity
        push_cast
        field_simp
      rw [e]
      exact h3
    · -- the general branch
      rename_i hq
      have hb : ¬ |(d : ℝ) / sps| = 1 / (4 * ((an : ℝ) / one)) := fun h => hq (hsing.1 h)
      have h1 := encloses_sinPi hpi hpi0 (d * (one - an)) hdd
      have h2 := encloses_cosPi hpi hpi0 (d * (one + an)) hdd
      have hnum := encloses_add h1 (encloses_scale h2 ((4 * an * d : Nat) : Int) hdd)
      have ha1s : π * (((d * (one - an) : ℕ) : ℝ) / ((sps * one : ℕ) : ℝ)) =
          π * (d / sps) * (1 - (an : ℝ) / one) := by
        rw [Nat.cast_mul d, Nat.cast_sub ha1]
        push_cast
        field_simp
      have ha2s : π * (((d * (one + an) : ℕ) : ℝ) / ((sps * one : ℕ) : ℝ)) =
          π * (d / sps) * (1 + (an : ℝ) / one) := by
        push_cast
        field_simp
      have hcoef : ((((4 * an * d : Nat) : Int) : ℝ) / ((sps * one : ℕ) : ℝ)) =
          4 * ((an : ℝ) / one) * (d / sps) := by
        push_cast
        field_simp
      rw [ha1s, ha2s, hcoef, mul_comm (cos _)] at hnum
      have hne : (1 : ℝ) - (4 * ((an : ℝ) / one) * (d / sps)) ^ 2 ≠ 0 := by
        intro h0
        apply hb
        rw [habs]
        have h1 : (4 * ((an : ℝ) / one) * (d / sps)) ^ 2 = 1 := by linarith
        have h2 : 0 < 4 * ((an : ℝ) / one) * (d / sps) := by positivity
        have h3 : 4 * ((an : ℝ) / one) * (d / sps) = 1 := by nlinarith
        rw [eq_div_iff (by positivity)]
        linarith
      have e : ∀ c : ℝ, c = sps * (sps * one) ^ 2 / (d * ((sps * one) ^ 2 - (4 * an * d) ^ 2)) →
          π * rrc sps ((an : ℝ) / one) (4 * sps + d) =
          (sin (π * (d / sps) * (1 - (an : ℝ) / one))
            + 4 * ((an : ℝ) / one) * (d / sps) * cos (π * (d / sps) * (1 + (an : ℝ) / one))) * c := by
        intro c hc
        have hD : ((sps : ℝ) * one) ^ 2 - (4 * an * d) ^ 2 ≠ 0 := by
          intro h0
          apply hne
          have : (4 * ((an : ℝ) / one) * (d / sps)) ^ 2 = (4 * an * d) ^ 2 / (sps * one) ^ 2 := by
            field_simp
          rw [this, show (4 * (an : ℝ) * d) ^ 2 = ((sps : ℝ) * one) ^ 2 by linarith, div_self (by positivity)]
          ring
        have hfac : (1 : ℝ) - (4 * ((an : ℝ) / one) * (d / sps)) ^ 2 =
            ((sps * one) ^ 2 - (4 * an * d) ^ 2) / (sps * one) ^ 2 := by
          field_simp
        unfold rrc
        simp only [ht, if_neg ht0, if_neg hb]
        rw [hfac, hc]
        generalize sin (π * (d / sps) * (1 - (an : ℝ) / one))
            + 4 * ((an : ℝ) / one) * (d / sps) * cos (π * (d / sps) * (1 + (an : ℝ) / one)) = n
        generalize ((sps : ℝ) * one) ^ 2 - (4 * an * d) ^ 2 = D at hD
        field_simp
      split
      · rename_i hlt
        have hsq : 4 * an * d * (4 * an * d) < sps * one * (sps * one) := Nat.mul_self_lt_mul_self hlt
        have hden : 0 < d * (sps * one * (sps * one) - 4 * an * d * (4 * an * d)) :=
          Nat.mul_pos (Nat.pos_of_ne_zero hd) (by omega)
        have h := encloses_scale hnum ((sps * (sps * one * (sps * one)) : Nat) : Int) hden
        rw [e _ ?_]
        · exact h
        · rw [Nat.cast_mul d, Nat.cast_sub hsq.le]
          push_cast
          ring
      · rename_i hge
        have hgt : sps * one < 4 * an * d := lt_of_le_of_ne (Nat.le_of_not_lt hge) (Ne.symm hq)
        have hsq : sps * one * (sps * one) < 4 * an * d * (4 * an * d) := Nat.mul_self_lt_mul_self hgt
        have hden : 0 < d * (4 * an * d * (4 * an * d) - sps * one * (sps * one)) :=
          Nat.mul_pos (Nat.pos_of_ne_zero hd) (by omega)
        have h := encloses_scale hnum (-((sps * (sps * one * (sps * one)) : Nat) : Int)) hden
        rw [e _ ?_]
        · exact h
        · rw [Nat.cast_mul d, Nat.cast_sub hsq.le]
          push_cast
          rw [neg_div, ← div_neg]
          congr 1
          · ring
          · ring

/-! ### π at the precisions in use -/

/-- What the raw taps ask of π at each precision tried. -/
theorem pi_at_precisions : ∀ p ∈ tapPrecisions,
    2 * 2 ^ p ≤ (encPi p).lo ∧ 0 ≤ (encSinPi p (encPi p) 1 4).lo := by
  decide +kernel

/-- The raw taps at each precision tried. -/
theorem encloses_rawTap_at {p : Nat} (hp : p ∈ tapPrecisions) {sps an : Nat} (hs : 0 < sps) (ha : 0 < an)
    (ha1 : an ≤ 2 ^ 149) (d : Nat) :
    Encloses p (π * rrc sps ((an : ℝ) / 2 ^ 149) (4 * sps + d)) (encRawTap p (encPi p) sps an d) :=
  encloses_rawTap (encloses_pi p) (pi_at_precisions p hp).1 (pi_at_precisions p hp).2 hs ha ha1 d

/-! ### The sum -/

/-- The fold of `encSum`: each further raw tap counts twice. -/
theorem encloses_foldl {p : Nat} (rs : List Enclosure) (f : ℕ → ℝ) (k : ℕ) {x : ℝ} {acc : Enclosure}
    (hacc : Encloses p x acc) (h : ∀ j e, rs[j]? = some e → Encloses p (f (k + j)) e) :
    Encloses p (x + 2 * ∑ j ∈ Finset.range rs.length, f (k + j)) (rs.foldl (fun a y => encAdd a (encAdd y y)) acc) := by
  induction rs generalizing k x acc with
  | nil => simpa using hacc
  | cons r rs ih =>
    have h0 : Encloses p (f k) r := h 0 r rfl
    have h1 := ih (k + 1) (encloses_add hacc (encloses_add h0 h0)) fun j e he => by
      have := h (j + 1) e (by simpa using he)
      rwa [show k + (j + 1) = k + 1 + j by ring] at this
    have e : x + 2 * ∑ j ∈ Finset.range (r :: rs).length, f (k + j) =
        x + (f k + f k) + 2 * ∑ j ∈ Finset.range rs.length, f (k + 1 + j) := by
      rw [List.length_cons, Finset.sum_range_succ']
      simp only [Nat.add_zero, Nat.add_assoc, Nat.add_comm 1]
      ring
    rw [e]
    exact h1

/-- `encSum` holds r_0 + 2·(r_1 + r_2 + …). -/
theorem encloses_sum {p : Nat} (rs : List Enclosure) (f : ℕ → ℝ) {n : ℕ} (hn : rs.length = n + 1)
    (h : ∀ j e, rs[j]? = some e → Encloses p (f j) e) :
    Encloses p (f 0 + 2 * ∑ j ∈ Finset.range n, f (j + 1)) (encSum rs) := by
  cases rs with
  | nil => simp at hn
  | cons r rs =>
    have hl : rs.length = n := by simpa using hn
    have h1 := encloses_foldl rs f 1 (h 0 r rfl) fun j e he => by
      have := h (j + 1) e (by simpa using he)
      rwa [Nat.add_comm] at this
    rw [hl] at h1
    simpa only [encSum, Nat.add_comm 1] using h1

/-- The exact sum of all N = 8S+1 raw values, from the centre outwards (40_configuration.md R126, R128). -/
theorem rrcSum_eq (sps : ℕ) (α : ℝ) :
    rrcSum sps α = rrc sps α (4 * sps) + 2 * ∑ j ∈ Finset.range (4 * sps), rrc sps α (4 * sps + (j + 1)) := by
  have h1 : rrcSum sps α = ∑ i ∈ Finset.range (4 * sps), rrc sps α i
      + ∑ j ∈ Finset.range (4 * sps + 1), rrc sps α (4 * sps + j) := by
    unfold rrcSum
    rw [show 8 * sps + 1 = 4 * sps + (4 * sps + 1) by ring, Finset.sum_range_add]
  have h2 : ∑ i ∈ Finset.range (4 * sps), rrc sps α i =
      ∑ j ∈ Finset.range (4 * sps), rrc sps α (4 * sps + (j + 1)) := by
    rw [← Finset.sum_range_reflect]
    refine Finset.sum_congr rfl fun j hj => ?_
    have hj := Finset.mem_range.1 hj
    refine rrc_of_distance sps α (d := j + 1) (.inr ?_)
    rw [Nat.sub_sub, Nat.cast_sub (by omega)]
    push_cast
    ring
  rw [h1, h2, Finset.sum_range_succ']
  simp only [Nat.add_zero]
  ring

/-! ### From enclosures to a tap -/

/-- The exact quotient of two enclosed reals, the divisor positive, lies between the ends `nearestTap` rounds. -/
theorem quotient_bounds {p : Nat} {x y : ℝ} {sum raw : Enclosure} (hx : Encloses p x sum) (hy : Encloses p y raw)
    (h0 : 0 < sum.lo) :
    (raw.lo : ℝ) / (if 0 ≤ raw.lo then sum.hi else sum.lo : Int) ≤ y / x ∧
      y / x ≤ (raw.hi : ℝ) / (if 0 ≤ raw.hi then sum.lo else sum.hi : Int) := by
  have h2 : (0 : ℝ) < 2 ^ p := by positivity
  have h0' : (0 : ℝ) < sum.lo := by exact_mod_cast h0
  have hx0 : 0 < x * 2 ^ p := lt_of_lt_of_le h0' hx.1
  have hh : (0 : ℝ) < sum.hi := lt_of_lt_of_le hx0 hx.2
  have e : y / x = (y * 2 ^ p) / (x * 2 ^ p) := by field_simp
  rw [e]
  constructor
  · split
    · rename_i h
      have h' : (0 : ℝ) ≤ raw.lo := by exact_mod_cast h
      exact div_le_div₀ (h'.trans hy.1) hy.1 hx0 hx.2
    · rename_i h
      have h' : (raw.lo : ℝ) ≤ 0 := by exact_mod_cast (not_le.1 h).le
      rw [div_le_div_iff₀ h0' hx0]
      nlinarith [hx.1, hy.1]
  · split
    · rename_i h
      have h' : (0 : ℝ) ≤ raw.hi := by exact_mod_cast h
      exact div_le_div₀ h' hy.2 h0' hx.1
    · rename_i h
      have h' : (raw.hi : ℝ) ≤ 0 := by exact_mod_cast (not_le.1 h).le
      rw [div_le_div_iff₀ hx0 hh]
      nlinarith [hx.2, hy.2]

/-! ### The search -/

/-- A word of merged findings comes from one of the two. -/
theorem mergeWords_getElem? {old new : List (Option Word)} {d : Nat} {w : Word}
    (h : (mergeWords old new)[d]? = some (some w)) : old[d]? = some (some w) ∨ new[d]? = some (some w) := by
  induction old generalizing new d with
  | nil => exact .inr h
  | cons o old ih =>
    cases new with
    | nil =>
      left
      cases o <;> simpa [mergeWords] using h
    | cons n new =>
      cases o with
      | none =>
        cases d with
        | zero => exact .inr (by simpa [mergeWords] using h)
        | succ d => simpa using ih (by simpa [mergeWords] using h)
      | some o =>
        cases d with
        | zero => exact .inl (by simpa [mergeWords] using h)
        | succ d => simpa using ih (by simpa [mergeWords] using h)

@[simp] theorem mergeWords_length {old new : List (Option Word)} (h : old.length = new.length) :
    (mergeWords old new).length = new.length := by
  induction old generalizing new with
  | nil => rfl
  | cons o old ih =>
    cases new with
    | nil => simp at h
    | cons n new => cases o <;> simp [mergeWords, ih (by simpa using h)]

/-- An attempt answers as many words as there are distances. -/
theorem tapAttempt_length {p sps an : Nat} {ws : List (Option Word)} (h : tapAttempt p sps an = .words ws) :
    ws.length = 4 * sps + 1 := by
  unfold tapAttempt tapAttemptOf at h
  simp only at h
  split at h
  · cases h
    simp
  · split at h
    · cases h
      simp
    · split at h <;> cases h

/-- Every word the search settles was settled by an attempt at one of its precisions, or was settled before it. -/
theorem searchTaps_words {sps an : Nat} {ps : List Nat} {best : TapAttempt} {ws : List (Option Word)}
    (hbest : ∀ old, best = .words old → old.length = 4 * sps + 1) (h : searchTaps sps an ps best = .words ws) :
    ws.length = 4 * sps + 1 ∧ ∀ (d : Nat) (w : Word), ws[d]? = some (some w) →
      (∃ old, best = .words old ∧ old[d]? = some (some w)) ∨
      ∃ p ∈ ps, ∃ new, tapAttempt p sps an = .words new ∧ new[d]? = some (some w) := by
  induction ps generalizing best with
  | nil =>
    unfold searchTaps at h
    exact ⟨hbest ws h, fun d w hw => .inl ⟨ws, h, hw⟩⟩
  | cons p ps ih =>
    have lift : ∀ {d : Nat} {w : Word},
        (∃ q ∈ ps, ∃ new, tapAttempt q sps an = .words new ∧ new[d]? = some (some w)) →
        ∃ q ∈ p :: ps, ∃ new, tapAttempt q sps an = .words new ∧ new[d]? = some (some w) :=
      fun ⟨q, hq, r⟩ => ⟨q, List.mem_cons_of_mem _ hq, r⟩
    unfold searchTaps at h
    split at h
    · cases h
    · obtain ⟨h1, h2⟩ := ih hbest h
      exact ⟨h1, fun d w hw => (h2 d w hw).imp_right lift⟩
    · rename_i new hnew
      have hlen := tapAttempt_length hnew
      have fresh : ∀ {best' : TapAttempt}, (∀ old, best' ≠ .words old) →
          (if new.all Option.isSome then TapAttempt.words new else searchTaps sps an ps (.words new)) = .words ws →
          ws.length = 4 * sps + 1 ∧ ∀ (d : Nat) (w : Word), ws[d]? = some (some w) →
            (∃ old, best' = .words old ∧ old[d]? = some (some w)) ∨
            ∃ q ∈ p :: ps, ∃ new, tapAttempt q sps an = .words new ∧ new[d]? = some (some w) := by
        intro best' _ h
        split at h
        · cases h
          exact ⟨hlen, fun d w hw => .inr ⟨p, List.mem_cons_self, _, hnew, hw⟩⟩
        · obtain ⟨h1, h2⟩ := ih (best := .words new) (fun old e => by cases e; exact hlen) h
          refine ⟨h1, fun d w hw => .inr ?_⟩
          rcases h2 d w hw with ⟨old, e, ho⟩ | r
          · cases e
            exact ⟨p, List.mem_cons_self, _, hnew, ho⟩
          · exact lift r
      split at h
      · rename_i old
        have holen := hbest old rfl
        have hml : (mergeWords old new).length = 4 * sps + 1 := by
          rw [mergeWords_length (by omega), hlen]
        have from_merge : ∀ {d : Nat} {w : Word}, (mergeWords old new)[d]? = some (some w) →
            (∃ old', TapAttempt.words old = .words old' ∧ old'[d]? = some (some w)) ∨
            ∃ q ∈ p :: ps, ∃ new, tapAttempt q sps an = .words new ∧ new[d]? = some (some w) := by
          intro d w hw
          rcases mergeWords_getElem? hw with ho | hn
          · exact .inl ⟨old, rfl, ho⟩
          · exact .inr ⟨p, List.mem_cons_self, new, hnew, hn⟩
        split at h
        · cases h
          exact ⟨hml, fun d w hw => from_merge hw⟩
        · obtain ⟨h1, h2⟩ := ih (best := .words (mergeWords old new)) (fun o e => by cases e; exact hml) h
          refine ⟨h1, fun d w hw => ?_⟩
          rcases h2 d w hw with ⟨o, e, ho⟩ | r
          · cases e
            exact from_merge ho
          · exact .inr (lift r)
      · exact fresh (fun _ e => by cases e) h
      · exact fresh (fun _ e => by cases e) h

/-- Every word the generator settles was settled by an attempt at one of its precisions. -/
theorem tapFindings_words {sps : Nat} {alpha : Word} {ws : List (Option Word)} (h : tapFindings sps alpha = .words ws) :
    ws.length = 4 * sps + 1 ∧ ∀ (d : Nat) (w : Word), ws[d]? = some (some w) →
      ∃ p ∈ tapPrecisions, ∃ new, tapAttempt p sps (f32Mag alpha) = .words new ∧ new[d]? = some (some w) := by
  obtain ⟨h1, h2⟩ := searchTaps_words (best := .undecided) (fun _ e => by cases e) h
  refine ⟨h1, fun d w hw => ?_⟩
  rcases h2 d w hw with ⟨_, e, -⟩ | r
  · cases e
  · exact r

/-- The search answers that the sum is 0 only where an attempt does. -/
theorem searchTaps_zeroSum {sps an : Nat} {ps : List Nat} {best : TapAttempt} (hbest : best ≠ .zeroSum)
    (h : searchTaps sps an ps best = .zeroSum) : ∃ p ∈ ps, tapAttempt p sps an = .zeroSum := by
  induction ps generalizing best with
  | nil => exact absurd h hbest
  | cons p ps ih =>
    have lift : (∃ q ∈ ps, tapAttempt q sps an = .zeroSum) → ∃ q ∈ p :: ps, tapAttempt q sps an = .zeroSum :=
      fun ⟨q, hq, r⟩ => ⟨q, List.mem_cons_of_mem _ hq, r⟩
    unfold searchTaps at h
    split at h
    · exact ⟨p, List.mem_cons_self, by assumption⟩
    · exact lift (ih hbest h)
    · split at h
      · split at h
        · cases h
        · exact lift (ih (by simp) h)
      · exact absurd rfl hbest
      · split at h
        · cases h
        · exact lift (ih (by simp) h)

/-- The search answers with words only where an attempt does. -/
theorem searchTaps_some {sps an : Nat} {ps : List Nat} {best : TapAttempt} {ws : List (Option Word)}
    (hbest : ∀ old, best ≠ .words old) (h : searchTaps sps an ps best = .words ws) :
    ∃ p ∈ ps, ∃ new, tapAttempt p sps an = .words new := by
  induction ps generalizing best with
  | nil => exact absurd h (hbest ws)
  | cons p ps ih =>
    unfold searchTaps at h
    split at h
    · cases h
    · obtain ⟨q, hq, r⟩ := ih hbest h
      exact ⟨q, List.mem_cons_of_mem _ hq, r⟩
    · exact ⟨p, List.mem_cons_self, _, by assumption⟩

/-! ### The stored set -/

@[simp] theorem fillOpen_length (sps : Nat) (alpha : Word) (d : Nat) (ws : List (Option Word)) :
    (fillOpen sps alpha d ws).length = ws.length := by
  induction ws generalizing d with
  | nil => rfl
  | cons w ws ih => simp [fillOpen, ih]

/-- A settled word is stored as it is, and one left open is RNE32 of the exact tap. -/
theorem fillOpen_getElem? (sps : Nat) (alpha : Word) (e d : Nat) (ws : List (Option Word)) :
    (fillOpen sps alpha e ws)[d]? = ws[d]?.map fun w => w.getD (nearestWordOf (exactTap sps alpha (e + d))) := by
  induction ws generalizing d e with
  | nil => simp [fillOpen]
  | cons v ws ih =>
    cases d with
    | zero => simp [fillOpen]
    | succ d => simp [fillOpen, ih, Nat.add_assoc, Nat.add_comm 1]

/-- The words found have a place for each distance 0, 1, …, 4S. -/
theorem settledWords_length {sps : Nat} {alpha : Word} {ws : List (Option Word)}
    (h : settledWords sps alpha = some ws) : ws.length = 4 * sps + 1 := by
  unfold settledWords at h
  split at h
  · cases h
  · rename_i hw
    cases h
    exact (tapFindings_words hw).1
  · split at h <;> cases h
    simp

/-- Half of a tap set: the words found, the open ones filled in, or P_TAP_ROUND of each exact tap. -/
theorem halfTaps_spec {r : TapRound} {sps : Nat} {alpha : Word} {half : List Word}
    (h : halfTaps r sps alpha = some half) :
    ∃ ws, settledWords sps alpha = some ws ∧
      (r = .rne32 → half = fillOpen sps alpha 0 ws) ∧
      ∀ n, r = .other n → half = (List.range (4 * sps + 1)).map fun d => tapRound r (exactTap sps alpha d) := by
  unfold halfTaps at h
  obtain ⟨ws, hws, rfl⟩ := Option.map_eq_some_iff.1 h
  cases r with
  | rne32 => exact ⟨ws, hws, fun _ => rfl, nofun⟩
  | other n => exact ⟨ws, hws, nofun, fun _ _ => rfl⟩

/-- Half of a tap set has a word for each distance 0, 1, …, 4S. -/
theorem halfTaps_length {r : TapRound} {sps : Nat} {alpha : Word} {half : List Word}
    (h : halfTaps r sps alpha = some half) : half.length = 4 * sps + 1 := by
  obtain ⟨ws, hws, h1, h2⟩ := halfTaps_spec h
  cases r with
  | rne32 => rw [h1 rfl, fillOpen_length, settledWords_length hws]
  | other n => simp [h2 n rfl]

/-- There is no tap set exactly where no words are found (40_configuration.md R126). -/
@[simp] theorem tapSet_eq_none (r : TapRound) (sps : Nat) (alpha : Word) :
    tapSet r sps alpha = none ↔ settledWords sps alpha = none := by
  simp [tapSet, halfTaps]

/-- The tap set has N = 8S+1 words (40_configuration.md R124), the word at distance d from the centre on both sides. -/
theorem tapSet_spec {r : TapRound} {sps : Nat} {alpha : Word} {taps : List Word} (h : tapSet r sps alpha = some taps) :
    taps.length = 8 * sps + 1 ∧ ∃ half, halfTaps r sps alpha = some half ∧ half.length = 4 * sps + 1 ∧
      ∀ d, d ≤ 4 * sps → taps[4 * sps + d]? = half[d]? ∧ taps[4 * sps - d]? = half[d]? := by
  unfold tapSet at h
  obtain ⟨half, hh, rfl⟩ := Option.map_eq_some_iff.1 h
  have hl := halfTaps_length hh
  refine ⟨by simp [hl]; omega, half, hh, hl, fun d hd => ⟨?_, ?_⟩⟩
  · cases d with
    | zero =>
      rw [List.getElem?_append_left (by simp [hl]), List.getElem?_reverse (by omega)]
      congr 1
      simp [hl]
    | succ d =>
      rw [List.getElem?_append_right (by simp [hl]), List.getElem?_tail]
      congr 1
      simp only [List.length_reverse, hl]
      omega
  · rw [List.getElem?_append_left (by simp [hl]), List.getElem?_reverse (by omega)]
    congr 1
    omega

end Sys2Proof.Machine
end

