-- ==== Sys2Proof/Laws/TapMemory.lean ====
section
/-! SUPPORT. The tap memory: every operation keeps the canonical form, a read after a write, and what a write leaves
alone. -/

namespace Sys2Proof.Machine

/-- In a canonical memory every entry after the first has a larger index. -/
theorem TapMemory.wf_cons_iff {i : Nat} {w : Word} {m : TapMemory} :
    TapMemory.wf ((i, w) :: m) = true ↔
      w ≠ tapDefault ∧ (∀ c ∈ m, i < c.1) ∧ TapMemory.wf m = true := by
  induction m generalizing i w with
  | nil => simp [TapMemory.wf]
  | cons c m ih =>
    obtain ⟨j, v⟩ := c
    have hj := @ih j v
    simp only [TapMemory.wf, Bool.and_eq_true, bne_iff_ne, ne_eq, decide_eq_true_eq, List.mem_cons, forall_eq_or_imp]
    constructor
    · rintro ⟨⟨h1, h2⟩, h3⟩
      exact ⟨h1, ⟨h2, fun c hc => lt_trans h2 ((hj.1 h3).2.1 c hc)⟩, h3⟩
    · rintro ⟨h1, ⟨h2, -⟩, h3⟩
      exact ⟨⟨h1, h2⟩, h3⟩

/-- An index below every listed one reads the default. -/
theorem tapRead_of_lt {m : TapMemory} {i : Nat} (h : ∀ c ∈ m, i < c.1) : tapRead m i = tapDefault := by
  induction m with
  | nil => rfl
  | cons c m ih =>
    obtain ⟨j, v⟩ := c
    have hj : i < j := h (j, v) (by simp)
    simp only [tapRead, if_neg (Nat.ne_of_lt hj)]
    exact ih fun c hc => h c (by simp [hc])

/-- The indices of a memory after a write are its own and the one written. -/
theorem mem_tapWrite {m : TapMemory} {i : Nat} {w : Word} {c : Nat × Word} (h : c ∈ tapWrite m i w) :
    c = (i, w) ∨ c ∈ m := by
  induction m with
  | nil =>
    simp only [tapWrite] at h
    split at h <;> simp_all
  | cons d m ih =>
    obtain ⟨j, v⟩ := d
    simp only [tapWrite] at h
    split at h
    · split at h <;> simp_all
    · split at h
      · rename_i hij
        split at h
        · simp [h]
        · rcases List.mem_cons.1 h with rfl | h
          · simp [hij]
          · simp [h]
      · rcases List.mem_cons.1 h with rfl | h
        · simp
        · rcases ih h with h | h <;> simp [h]

/-- A write keeps the canonical form. -/
theorem tapWrite_wf {m : TapMemory} (h : TapMemory.wf m = true) (i : Nat) (w : Word) :
    TapMemory.wf (tapWrite m i w) = true := by
  induction m with
  | nil =>
    simp only [tapWrite]
    split
    · rfl
    · simpa [TapMemory.wf] using ‹_›
  | cons d m ih =>
    obtain ⟨j, v⟩ := d
    obtain ⟨hv, hlt, hm⟩ := TapMemory.wf_cons_iff.1 h
    simp only [tapWrite]
    split
    · rename_i hij
      split
      · exact h
      · rename_i hw
        refine TapMemory.wf_cons_iff.2 ⟨hw, ?_, h⟩
        intro c hc
        rcases List.mem_cons.1 hc with rfl | hc
        · exact hij
        · exact lt_trans hij (hlt c hc)
    · split
      · rename_i hij
        split
        · exact hm
        · rename_i hw
          exact TapMemory.wf_cons_iff.2 ⟨hw, fun c hc => hij ▸ hlt c hc, hm⟩
      · rename_i h1 h2
        refine TapMemory.wf_cons_iff.2 ⟨hv, ?_, ih hm⟩
        intro c hc
        rcases mem_tapWrite hc with rfl | hc
        · exact lt_of_le_of_ne (Nat.le_of_not_lt h1) (fun e => h2 e.symm)
        · exact hlt c hc

/-- A read after a write: the word written at its index, the old word everywhere else. -/
theorem tapRead_tapWrite {m : TapMemory} (h : TapMemory.wf m = true) (i k : Nat) (w : Word) :
    tapRead (tapWrite m i w) k = if k = i then w else tapRead m k := by
  induction m with
  | nil =>
    simp only [tapWrite]
    split <;> simp_all [tapRead]
  | cons d m ih =>
    obtain ⟨j, v⟩ := d
    obtain ⟨hv, hlt, hm⟩ := TapMemory.wf_cons_iff.1 h
    simp only [tapWrite]
    split
    · rename_i hij
      split
      · rename_i hw
        by_cases hk : k = i
        · subst hk
          have : ∀ c ∈ (j, v) :: m, k < c.1 := by
            intro c hc
            rcases List.mem_cons.1 hc with rfl | hc
            · exact hij
            · exact lt_trans hij (hlt c hc)
          rw [tapRead_of_lt this, if_pos rfl, hw]
        · rw [if_neg hk]
      · simp [tapRead]
    · split
      · rename_i h1 h2
        subst h2
        split
        · rename_i hw
          by_cases hk : k = i
          · subst hk
            rw [tapRead_of_lt hlt, if_pos rfl, hw]
          · simp [tapRead, hk]
        · by_cases hk : k = i <;> simp [tapRead, hk]
      · rename_i h1 h2
        by_cases hk : k = j
        · subst hk
          simp [tapRead, Ne.symm h2]
        · simp [tapRead, hk, ih hm]

/-- Writing a run of words keeps the canonical form. -/
theorem tapWriteFrom_wf {m : TapMemory} (h : TapMemory.wf m = true) (ws : List Word) (i : Nat) :
    TapMemory.wf (tapWriteFrom m i ws) = true := by
  induction ws generalizing i with
  | nil => exact h
  | cons w ws ih => exact tapWrite_wf (ih (i + 1)) i w

/-- A read after writing a run: the words of the run at its indices, the old words everywhere else. -/
theorem tapRead_tapWriteFrom {m : TapMemory} (h : TapMemory.wf m = true) (ws : List Word) (i k : Nat) :
    tapRead (tapWriteFrom m i ws) k =
      if i ≤ k then (match ws[k - i]? with | some w => w | none => tapRead m k) else tapRead m k := by
  induction ws generalizing i with
  | nil => simp [tapWriteFrom]
  | cons w ws ih =>
    rw [tapWriteFrom, tapRead_tapWrite (tapWriteFrom_wf h ws (i + 1)), ih (i + 1)]
    by_cases hk : k = i
    · subst hk
      simp
    · rw [if_neg hk]
      by_cases hik : i ≤ k
      · have h1 : i + 1 ≤ k := by omega
        obtain ⟨d, rfl⟩ : ∃ d, k = i + 1 + d := ⟨k - (i + 1), by omega⟩
        have h2 : i + 1 + d - (i + 1) = d := by omega
        have h3 : i + 1 + d - i = d + 1 := by omega
        rw [if_pos h1, if_pos hik, h2, h3, List.getElem?_cons_succ]
      · have h1 : ¬ i + 1 ≤ k := by omega
        rw [if_neg h1, if_neg hik]

/-- Writing a run touches no index from its end on. -/
theorem tapWriteFrom_below {m : TapMemory} {n : Nat} (h : TapMemory.below n m = true) (ws : List Word) (i : Nat)
    (hn : i + ws.length ≤ n) : TapMemory.below n (tapWriteFrom m i ws) = true := by
  induction ws generalizing i with
  | nil => exact h
  | cons w ws ih =>
    have hlen : i + 1 + ws.length ≤ n := by simp only [List.length_cons] at hn; omega
    have hi := ih (i + 1) hlen
    simp only [TapMemory.below, List.all_eq_true, decide_eq_true_eq] at hi ⊢
    intro c hc
    rcases mem_tapWrite hc with rfl | hc
    · show i < n
      omega
    · exact hi c hc

/-- Every index of a filled memory is in the range filled. -/
theorem mem_tapFill {f : Nat → Word} {n i : Nat} {c : Nat × Word} (h : c ∈ tapFill f n i) : i ≤ c.1 ∧ c.1 < i + n := by
  induction n generalizing i with
  | zero => simp [tapFill] at h
  | succ n ih =>
    simp only [tapFill] at h
    split at h
    · have := ih h
      omega
    · rcases List.mem_cons.1 h with rfl | h
      · simp
      · have := ih h
        omega

/-- A filled memory is canonical. -/
theorem tapFill_wf (f : Nat → Word) (n i : Nat) : TapMemory.wf (tapFill f n i) = true := by
  induction n generalizing i with
  | zero => rfl
  | succ n ih =>
    simp only [tapFill]
    split
    · exact ih (i + 1)
    · rename_i hw
      exact TapMemory.wf_cons_iff.2 ⟨hw, fun c hc => by have := mem_tapFill hc; omega, ih (i + 1)⟩

/-- A filled memory reads as its function in the range filled. -/
theorem tapRead_tapFill (f : Nat → Word) (n i k : Nat) :
    tapRead (tapFill f n i) k = if i ≤ k ∧ k < i + n then f k else tapDefault := by
  induction n generalizing i with
  | zero =>
    rw [if_neg (by omega)]
    rfl
  | succ n ih =>
    simp only [tapFill]
    split
    · rename_i hw
      rw [ih]
      by_cases hk : k = i
      · subst hk
        rw [if_neg (by omega), if_pos (by omega), hw]
      · congr 1
        simp only [eq_iff_iff]
        omega
    · by_cases hk : k = i
      · subst hk
        simp [tapRead]
      · rw [tapRead, if_neg hk, ih]
        congr 1
        simp only [eq_iff_iff]
        omega

/-- A filled memory lists only the range filled. -/
theorem tapFill_below (f : Nat → Word) (n : Nat) : TapMemory.below n (tapFill f n 0) = true := by
  simp only [TapMemory.below, List.all_eq_true, decide_eq_true_eq]
  intro c hc
  have := mem_tapFill hc
  omega

/-- TAP at reset is canonical. -/
theorem reset_tap_wf : TapMemory.wf State.reset.tap = true := rfl

end Sys2Proof.Machine
end

