-- ==== Sys2Proof/Tests/Slice0.lean ====
section
/-! SUPPORT. Tests: ill-formed terms refused, words written out from the spec's encodings, single steps whose results stand
in spec/95_test_vectors.md, and for every statement with hypotheses a witness that meets them. -/

namespace Sys2Proof.Tests

open Sys2Proof.Machine Sys2Proof.Reference

/-! ## Helpers -/

/-- The state a step or a command answers, if it does. -/
def after (o : Host.Outcome State Fault Refusal) : Option State :=
  match o with
  | .next t => some t
  | .fault _ => none
  | .refused _ => none

/-- The error state (ERR_CAUSE, ERR_INFO, ERR_COUNT) a command leaves, if it leaves one with ERR = 1. -/
def errAfter (o : Host.Outcome State Fault Refusal) : Option (BitVec 8 × Word × BitVec 32) :=
  match after o with
  | some t => if t.err.err then some (t.err.cause, t.err.info, t.err.count) else none
  | none => none

/-- The machine after reset with words received on a port. -/
def withWords (p : Port) (ws : List Word) : State := State.reset.receive p ws

/-- The machine after reset with the environment's next advances of TIME. -/
def withTime (as : List Nat) : State := State.reset.setEnv { Env.initial with advances := as }

/-- TAP[0 .. 5] of table T-s4a35. -/
def taps35 : TapMemory :=
  tapWriteFrom [] 0 [0x3A051320#32, 0x3B58E8BA#32, 0x3B1BE0C2#32, 0xBB1B7FA4#32, 0xBBCF3EE4#32, 0xBB7099D3#32]

/-- The modulator of CFG35, holding some bytes. -/
def mod35 (bytes : List Byte) : ModState :=
  { constructedMod false 4#16 0x3EB33333#32 with inFifo := bytes }

/-- The machine after CFG35, holding some bytes. -/
def cfg35 (bytes : List Byte) : State := (State.reset.setMod (mod35 bytes)).setTap taps35

/-- The machine after CCFG1000 at TIME 0, holding some PDUs, with the next advances of TIME. -/
def ccfg1000 (pdus : List (List Byte)) (as : List Nat) : State :=
  (withTime as).setConv
    { constructedConv false 0x000003E800000000#64 3#8 [0x6C#8, 0x65#8, 0x6E#8] 0#64 with queue := pdus }

/-! ## Well-formedness: one ill-formed term for each check -/

theorem test_wf_refuses_short_name : (Instr.convConfig false 0#15 3#8 0#32 1#32 []).wf = false := by decide
theorem test_wf_refuses_long_name : (Instr.convConfig false 0#15 4#8 0#32 1#32 [0#32, 0#32]).wf = false := by decide
theorem test_wf_refuses_short_payload : (Instr.msgDeliver 0#4 5#20 [0#32]).wf = false := by decide
theorem test_wf_refuses_payload_of_nothing : (Instr.msgDeliver 0#4 0#20 [0#32]).wf = false := by decide
theorem test_wf_accepts_whole_payload : (Instr.msgDeliver 0#4 5#20 [0#32, 0#32]).wf = true := by decide

/-! ## Decoding: words written out from 30_encoding.md R90-R97 and 95_test_vectors.md section 2 -/

-- V-E10: OPC 0x00, 24 ignored bits.
theorem test_decode_nop : decode .msg [0x00ABCDEF#32] = .command (.nop 0xABCDEF#24) [] := by decide
-- OPC 0x01, 24 reserved bits.
theorem test_decode_reset : decode .cmd [0x01000000#32] = .command (.reset 0#24) [] := by decide
-- OPC 0x02, reserved [23:8], idx [7:0]; and V-K7's reserved bit 8.
theorem test_decode_csrRead : decode .cmd [0x0200001B#32, 7#32] = .command (.csrRead 0#16 0x1B#8) [7#32] := by decide
theorem test_decode_csrRead_reserved : decode .cmd [0x02000100#32] = .command (.csrRead 1#16 0#8) [] := by decide
-- OPC 0x03.
theorem test_decode_errClear : decode .cmd [0x03000001#32] = .command (.errClear 1#24) [] := by decide
-- V-E2: DBG is bit 23; V-G12: reserved bit 16 is the lowest of [22:16].
theorem test_decode_modConfig :
    decode .cmd [0x10800004#32, 0x3EB33333#32] = .command (.modConfig true 0#7 4#16 0x3EB33333#32) [] := by decide
theorem test_decode_modConfig_reserved :
    decode .cmd [0x10010004#32, 0x3E800000#32] = .command (.modConfig false 1#7 4#16 0x3E800000#32) [] := by decide
-- V-M15: reserved bit 8.
theorem test_decode_modFeed : decode .cmd [0x1100011B#32] = .command (.modFeed 1#16 0x1B#8) [] := by decide
theorem test_decode_modRequest : decode .cmd [0x12000010#32] = .command (.modRequest 16#24) [] := by decide
-- V-M17: reserved bit 16.
theorem test_decode_tapRead : decode .cmd [0x13010010#32] = .command (.tapRead 1#8 16#16) [] := by decide
-- V-E4: name "hello" in two words; V-G23: reserved bit 8 is the lowest of [22:8].
theorem test_decode_convConfig :
    decode .cmd [0x20000005#32, 0x00000000#32, 0x00000001#32, 0x6C6C6568#32, 0x0000006F#32] =
      .command (.convConfig false 0#15 5#8 0#32 1#32 [0x6C6C6568#32, 0x0000006F#32]) [] := by decide
theorem test_decode_convConfig_reserved :
    decode .cmd [0x20800100#32, 0#32, 0x3E8#32] = .command (.convConfig true 1#15 0#8 0#32 0x3E8#32 []) [] := by decide
-- V-E5 on both ports, and V-C10's KIND 2.
theorem test_decode_msgDeliver :
    decode .msg [0x21000005#32, 0x04030201#32, 0x00000005#32] =
      .command (.msgDeliver 0#4 5#20 [0x04030201#32, 0x00000005#32]) [] := by decide
theorem test_decode_msgDeliver_kind :
    decode .cmd [0x21200002#32, 0x00000201#32] = .command (.msgDeliver 2#4 2#20 [0x00000201#32]) [] := by decide
-- V-E9.
theorem test_decode_convRequest : decode .cmd [0x22FFFFFF#32] = .command (.convRequest 0xFFFFFF#24) [] := by decide
-- V-E12: not admitted on MSG, one word long.
theorem test_decode_illegal_on_msg :
    decode .msg [0x10000004#32, 0x3EB33333#32] = .illegal 0x10000004#32 [0x3EB33333#32] := by decide
-- V-E11.
theorem test_decode_undefined : decode .cmd [0x3EB33333#32] = .illegal 0x3EB33333#32 [] := by decide
-- 20_memory.md R75: not fully received.
theorem test_decode_partial : decode .cmd [0x20000005#32, 0#32, 1#32, 0x6C6C6568#32] = .incomplete := by decide

-- The table's numbering of bits: the second word is bits 63..32; the words above are zeros.
theorem test_table_two_words :
    decodeTableWord 64 0x3EB3333310000004 = some (.modConfig false 0#7 4#16 0x3EB33333#32) := by decide
theorem test_table_operands_zero :
    decodeTableWord 32 0x20000005 = some (.convConfig false 0#15 5#8 0#32 0#32 [0#32, 0#32]) := by decide
theorem test_table_undefined : decodeTableWord 32 0x23000000 = none := by decide

-- The words placed for a fetch are the ones the next step runs.
theorem test_fetch_placed :
    (after (step (State.reset.withFetchWord 32 0x02000000))).map (fun t => (t.out.rsp, t.cmd.pos, t.cmd.words)) =
      some ([0x4F510007#32], 1, []) := by decide
theorem test_fetch_placed_beside_msg :
    (after (step ((withWords .msg [0#32]).withFetchWord 32 0x01000001))).map (fun t => (t.err.info, t.msg.pos)) =
      some (0x01000001#32, 0) := by decide

/-! ## binary32 and the tap generator (95_test_vectors.md section 3.3) -/

-- P_FMUL(A, TAP[0]) of T-s4a35, and V-M12's negative zero.
theorem test_fmul_p0 : fmul .rne32 ampPos 0x3A051320#32 = 0x39BC3230#32 := by decide +kernel
theorem test_fmul_negative_zero : fmul .rne32 ampNeg 0x00000000#32 = 0x80000000#32 := by decide +kernel
-- T-s1a100: TAP[0 .. 8] of S = 1, α = 1.
theorem test_taps_s1a100 :
    tapSet .rne32 1 0x3F800000#32 =
      some [0xBB9E0A8D#32, 0xBC0CE92F#32, 0xBC9FEC33#32, 0xBDA7EB35#32, 0x3F9D6C82#32, 0xBDA7EB35#32, 0xBC9FEC33#32,
        0xBC0CE92F#32, 0xBB9E0A8D#32] := by decide +kernel
-- T-s2a50: TAP[7] is on the branch |t| = 1/(4α), TAP[8] on t = 0.
theorem test_taps_s2a50 :
    (tapSet .rne32 2 0x3F000000#32).map (fun ts => (ts[7]?, ts[8]?, ts[16]?)) =
      some (some 0x3E949770#32, some 0x3F11F0D4#32, some 0xBBA613D9#32) := by decide +kernel
-- V-G11: α = 2^-149, whose taps at integer t round to zeros of either sign.
theorem test_taps_subnormal_alpha :
    (tapSet .rne32 4 0x00000001#32).map (fun ts => (ts[0]?, ts[1]?, ts[4]?, ts[16]?)) =
      some (some 0x00000000#32, some 0xBC810B35#32, some 0x80000000#32, some 0x3E865F96#32) := by decide +kernel

/-! ## One step of each command -/

-- V-K1.
theorem test_nop : after (exec (.nop 0x123456#24) State.reset) = some State.reset := by decide
-- V-K9 and V-K10.
theorem test_reset :
    (after (exec (.reset 0#24) ((ccfg1000 [[1#8, 2#8]] []).setTime 7#64))).map
      (fun t => (statusWord t, t.conv.queue, t.time)) = some (0#32, [], 7#64) := by decide
theorem test_reset_reserved :
    errAfter (exec (.reset 1#24) (cfg35 [1#8])) = some (0x02#8, 0x01000001#32, 1#32) := by decide
-- V-K3: TIME_LO latches, and V-K6.
theorem test_csrRead_time :
    (after (exec (.csrRead 0#16 0x1B#8) (withTime [0x100000005]))).map (fun t => (t.out.rsp, t.tSnapHi)) =
      some ([0x00000005#32], 0x00000001#32) := by decide
theorem test_csrRead_undefined :
    errAfter (exec (.csrRead 0#16 0x05#8) State.reset) = some (0x08#8, 0x02000005#32, 1#32) := by decide
-- V-K11 and V-K12.
theorem test_errClear :
    (after (exec (.errClear 0#24) (raiseError .illegalOpcode 0xFF000000#32 0 State.reset))).map (fun t => t.err) =
      some ErrState.initial := by decide
theorem test_errClear_reserved :
    errAfter (exec (.errClear 1#24) (raiseError .illegalOpcode 0xFF000000#32 0 State.reset)) =
      some (0x01#8, 0xFF000000#32, 2#32) := by decide
-- T-s1a100 through MOD.CONFIG, and V-G14: BAD_SPS before BAD_ALPHA.
theorem test_modConfig :
    (after (exec (.modConfig true 0#7 1#16 0x3F800000#32) (cfg35 [0x55#8]))).map
      (fun t => (statusWord t, t.mod.nTaps, t.mod.inFifo, tapRead t.tap 4)) =
      some (0x021#32, 9#16, [], 0x3F9D6C82#32) := by decide +kernel
theorem test_modConfig_bad_sps :
    errAfter (exec (.modConfig false 0#7 0#16 0#32) (cfg35 [0x55#8])) = some (0x04#8, 0x10000000#32, 1#32) := by decide
-- V-M4's feed, and V-M13 with P_IN_DEPTH = 2.
theorem test_modFeed :
    (after (exec (.modFeed 0#16 0xE4#8) (cfg35 [0x1B#8]))).map (fun t => t.mod.inFifo) = some [0x1B#8, 0xE4#8] := by decide
theorem test_modFeed_full :
    errAfter (exec (.modFeed 0#16 3#8)
      { cfg35 [1#8, 2#8] with params := { Params.default with inDepth := 2 } }) =
      some (0x0A#8, 0x11000003#32, 1#32) := by decide
-- V-M3 (E4): three samples of the first symbol of 0x1B, and M_CURSOR.
theorem test_modRequest :
    (after (exec (.modRequest 3#24) (cfg35 [0x1B#8]))).map (fun t => (t.out.samples, t.out.rsp, cursorWord t.mod)) =
      some ([0x3ADC71D939BC3230#64, 0xBADBE8813B1960BD#64, 0xBB928B793ADC71D9#64], [3#32, 1#32], 0x0003161B#32) := by
  decide +kernel
-- V-M11: five samples reach the second symbol, v = 1, whose I rail is negated.
theorem test_modRequest_second_symbol :
    (after (exec (.modRequest 5#24) (cfg35 [0x1B#8, 0xE4#8]))).map
      (fun t => (t.out.samples.drop 4, t.out.rsp, cursorWord t.mod, t.mod.symcnt)) =
      some ([0x3ADC71D9B9BC3230#64], [5#32, 1#32], 0x0001341B#32, 1#64) := by
  decide +kernel
-- V-M17.
theorem test_tapRead :
    (after (exec (.tapRead 0#8 5#16) (cfg35 []))).map (fun t => t.out.rsp) = some [0xBB7099D3#32] := by decide
theorem test_tapRead_out_of_range :
    errAfter (exec (.tapRead 0#8 33#16) (cfg35 [])) = some (0x09#8, 0x13000021#32, 1#32) := by decide
-- CCFG1000 at TIME 10, discarding a queued PDU, and V-G20.
theorem test_convConfig :
    (after (exec (.convConfig false 0#15 3#8 0#32 0x3E8#32 [0x006E656C#32]) (ccfg1000 [[1#8]] [10]))).map
      (fun t => (t.conv.rate, t.conv.tagName, t.conv.lastT, t.conv.queue)) =
      some (0x000003E800000000#64, [0x6C#8, 0x65#8, 0x6E#8], 10#64, []) := by decide
theorem test_convConfig_bad_rate :
    errAfter (exec (.convConfig false 0#15 3#8 0#32 0#32 [0x006E656C#32]) (ccfg1000 [[1#8]] [])) =
      some (0x06#8, 0x20000003#32, 1#32) := by decide
-- V-E6: the unused high bytes are ignored; V-C10: a malformed message.
theorem test_msgDeliver :
    (after (exec (.msgDeliver 0#4 5#20 [0x04030201#32, 0xFFFFFF05#32]) (ccfg1000 [] []))).map
      (fun t => (t.conv.queue, t.conv.msgOk)) = some ([[1#8, 2#8, 3#8, 4#8, 5#8]], 1#32) := by decide
theorem test_msgDeliver_malformed :
    (after (exec (.msgDeliver 1#4 2#20 [0x00000201#32]) (ccfg1000 [] []))).map
      (fun t => (t.conv.queue, t.conv.dropMalformed, t.err.err)) = some ([], 1#32, false) := by decide
-- V-C6: two PDUs back to back, then padding; the second draw is 2 ms later (V-C14's kind of gap).
theorem test_convRequest :
    (after (exec (.convRequest 100#24) (ccfg1000 [[0x0A#8, 0x0B#8, 0x0C#8], [0x0D#8, 0x0E#8]] [7000000, 2000000]))).map
      (fun t => (t.out.bytes, t.out.tags.map (fun g => (g.offset, g.value)), t.out.rsp, t.conv.lastT)) =
      some ([0x0A#8, 0x0B#8, 0x0C#8, 0x0D#8, 0x0E#8, 1#8, 1#8], [(0#64, 3#64), (3#64, 2#64)], [7#32], 9000000#64) := by
  decide +kernel
-- V-C7: an empty PDU pads the rest of its request.
theorem test_convRequest_empty_pdu :
    (after (exec (.convRequest 100#24) (ccfg1000 [[], [7#8, 8#8]] [5000000, 0]))).map
      (fun t => (t.out.bytes, t.out.tags, t.conv.queue, t.conv.curValid)) =
      some ([1#8, 1#8, 1#8, 1#8, 1#8], [], [[7#8, 8#8]], true) := by decide +kernel
-- V-X3 and V-X1: not admitted on MSG, undefined on CMD; no response word.
theorem test_illegal_on_msg :
    (after (step (withWords .msg [0x12000001#32]))).map (fun t => (t.err.cause, t.err.info, t.out.rsp, t.msg.pos)) =
      some (0x01#8, 0x12000001#32, [], 1) := by decide
theorem test_second_error_counts :
    (after (step ((withWords .cmd [0xFF000000#32]).setErr
      { err := true, cause := 0x03#8, info := 0x1100001B#32, count := 1#32 }))).map (fun t => t.err) =
      some { err := true, cause := 0x03#8, info := 0x1100001B#32, count := 2#32 } := by decide

/-! ## Assembler text (30_encoding.md R102-R104) -/

theorem test_asm_modConfig :
    assembleWords "MOD.CONFIG 4, 0x3EB33333 ; CFG35".toList = some (.cmd, [0x10000004#32, 0x3EB33333#32]) := by
  decide +kernel
theorem test_asm_convConfig :
    assembleWords "CONV.CONFIG 0x000003E800000000, \"len\"".toList =
      some (.cmd, [0x20000003#32, 0#32, 0x3E8#32, 0x006E656C#32]) := by decide +kernel
theorem test_asm_convConfigHz :
    assembleWords "CONV.CONFIGHZ 1.5, \"x\", dbg".toList =
      some (.cmd, [0x20800001#32, 0x80000000#32, 0x00000001#32, 0x00000078#32]) := by decide +kernel
theorem test_asm_refuses_wide_operand : assembleWords "MOD.FEED 256".toList = none := by decide +kernel

/-! ## Witnesses: for every statement with hypotheses, states and operands that meet them -/

/-! ### Encoding -/

theorem witness_CmdPortDecodesEveryEncodedCommand :
    (Instr.msgDeliver 15#4 5#20 [0x04030201#32, 0xFFFFFF05#32]).wf = true ∧
    (Instr.convConfig true 0x7FFF#15 0xFF#8 0#32 1#32 (List.replicate 64 0#32)).wf = true ∧
    (Instr.nop 0xFFFFFF#24).wf = true := by decide

theorem witness_MsgPortDecodesOnlyNopAndDeliver :
    (Instr.msgDeliver 0#4 0#20 []).wf = true ∧ (Instr.convRequest 0#24).wf = true ∧
    (Instr.msgDeliver 0#4 0#20 []).opcode = .msgDeliver ∧
    ¬ ((Instr.convRequest 0#24).opcode = .nop ∨ (Instr.convRequest 0#24).opcode = .msgDeliver) := by decide

theorem witness_DecodedCommandsEncodeBack :
    decode .msg [0x21000001#32, 0xFFFFFF05#32, 7#32] = .command (.msgDeliver 0#4 1#20 [0xFFFFFF05#32]) [7#32] ∧
    decode .cmd [0x22000001#32] = .command (.convRequest 1#24) [] := by decide

-- One header for each clause, at both ends of its length field, and one sequence for each outcome.
theorem witness_HeaderDecidesLength :
    (0x10000004#32).extractLsb' 24 8 = 0x10#8 ∧ (0x20000000#32).extractLsb' 24 8 = 0x20#8 ∧
    (0x200000FF#32).extractLsb' 24 8 = 0x20#8 ∧ (0x21000000#32).extractLsb' 24 8 = 0x21#8 ∧
    (0x21FFFFFF#32).extractLsb' 24 8 = 0x21#8 ∧ (0x23000000#32).extractLsb' 24 8 ≠ 0x10#8 ∧
    (0x23000000#32).extractLsb' 24 8 ≠ 0x20#8 ∧ (0x23000000#32).extractLsb' 24 8 ≠ 0x21#8 ∧
    (0x10000004#32).extractLsb' 24 8 ≠ 0x21#8 ∧
    decode .cmd (0x10000004#32 :: []) = .incomplete ∧ 0 + 1 < commandLength .cmd 0x10000004#32 ∧
    decode .cmd (0x10000004#32 :: [1#32]) = .command (.modConfig false 0#7 4#16 1#32) [] ∧
    decode .msg (0x10000004#32 :: [1#32]) = .illegal 0x10000004#32 [1#32] := by decide

-- Both ends of every range of undefined OPC, and one not admitted on MSG.
theorem witness_OtherOpcodesAreIllegal :
    State.reset.params.legal ∧
    (∀ opc ∈ [0x04#8, 0x0F#8, 0x14#8, 0x1F#8, 0x23#8, 0xFF#8],
      (0x04#8 ≤ opc ∧ opc ≤ 0x0F#8) ∨ (0x14#8 ≤ opc ∧ opc ≤ 0x1F#8) ∨ 0x23#8 ≤ opc) ∧
    choosePort (withWords .cmd [0x04000000#32]) = some (.cmd, withWords .cmd [0x04000000#32]) ∧
    ((withWords .cmd [0x04000000#32]).port .cmd).words = [0x04000000#32] ∧
    choosePort (withWords .msg [0x22000000#32]) = some (.msg, withWords .msg [0x22000000#32]) ∧
    (0x22000000#32).extractLsb' 24 8 ≠ 0x00#8 ∧ (0x22000000#32).extractLsb' 24 8 ≠ 0x21#8 := by decide

theorem witness_PackedBytesAreLittleEndian :
    wordsFor 5 ≤ [0x04030201#32, 0xFFFFFF05#32].length ∧ 4 < 5 ∧ wordsFor 0 ≤ ([] : List Word).length := by decide

/-! ### Steps and ports -/

theorem witness_StepRunsTheDecodedCommand :
    State.reset.params.legal ∧
    choosePort (withWords .cmd [0x22000064#32, 7#32]) = some (.cmd, withWords .cmd [0x22000064#32, 7#32]) ∧
    decode .cmd ((withWords .cmd [0x22000064#32, 7#32]).port .cmd).words = .command (.convRequest 100#24) [7#32] := by
  decide

-- Both sides: nothing received, and a command received.
theorem witness_OnlyIncompletePortsAreStuck :
    State.reset.params.legal ∧ decode .cmd State.reset.cmd.words = .incomplete ∧
    decode .msg State.reset.msg.words = .incomplete ∧ (withWords .cmd [0#32]).params.legal ∧
    decode .cmd (withWords .cmd [0#32]).cmd.words = .command (.nop 0#24) [] := by decide

/-- Both ports hold a command, and the environment grants the MSG agent. -/
def contested : State :=
  ((withWords .cmd [0#32]).receive .msg [0#32]).setEnv { Env.initial with grants := [.msg] }

/-- A run in which the host presents a NOP before every step: move 2k presents it, move 2k+1 executes it. -/
def nopRun (n : Nat) : State :=
  State.reset.setPort .cmd { words := if n % 2 = 0 then [] else [0#32], pos := n / 2 }

theorem nopRun_even (k : Nat) : nopRun (2 * k + 1) = (nopRun (2 * k)).receive .cmd [0#32] := by
  have h1 : (2 * k + 1) % 2 = 1 := by omega
  have h2 : (2 * k + 1) / 2 = k := by omega
  have h3 : 2 * k / 2 = k := by omega
  simp only [nopRun, h1, h2, h3, Nat.mul_mod_right]
  rfl

theorem nopRun_odd (k : Nat) : Executes .cmd (nopRun (2 * k + 1)) (nopRun (2 * k + 1 + 1)) := by
  have h1 : (2 * k + 1) % 2 = 1 := by omega
  have h2 : (2 * k + 1) / 2 = k := by omega
  have h3 : (2 * k + 1 + 1) / 2 = k + 1 := by omega
  have h4 : (2 * k + 1 + 1) % 2 = 0 := by omega
  have h5 : commandLength .cmd 0#32 = 1 := by decide
  unfold nopRun
  rw [h1, h2, h3, h4, ← h5]
  exact ⟨rfl, _, rfl⟩

theorem witness_EitherAgentMayMoveAndNoneStarves :
    (portReady .cmd contested = true ∧ portReady .msg contested = true ∧ contested.env.grants = .msg :: []) ∧
    (portReady .cmd (withWords .cmd [0#32]) = true ∧ portReady .msg (withWords .cmd [0#32]) = false) ∧
    (portReady .cmd (withWords .msg [0#32]) = false ∧ portReady .msg (withWords .msg [0#32]) = true) ∧
    Run nopRun ∧ KeepsStepping nopRun ∧ portReady .cmd (nopRun 1) = true := by
  refine ⟨by decide, by decide, by decide, fun n => ?_, fun n => ⟨2 * n + 1, by omega, _, nopRun_odd n⟩, by decide⟩
  rcases Nat.even_or_odd' n with ⟨k, rfl | rfl⟩
  · rw [nopRun_even]
    exact .receive _ _ _
  · exact .step (nopRun_odd k).1

theorem witness_PositionsAdvanceByCommandLength :
    (∃ t, step (withWords .cmd [0x01000000#32]) = .next t) ∧ (∃ t, step (withWords .msg [0xFF000000#32]) = .next t) ∧
    (∃ t, step contested = .next t) := ⟨⟨_, rfl⟩, ⟨_, rfl⟩, ⟨_, rfl⟩⟩

theorem witness_IllegalParametersAreRefused :
    8191 < ({ Params.default with spsMax := 8192 } : Params).spsMax ∧
    2 ^ 20 - 1 < ({ Params.default with pduMax := 2 ^ 20 } : Params).pduMax ∧
    255 < ({ Params.default with tagNameMax := 256 } : Params).tagNameMax ∧
    ¬ ({ Params.default with fTick := 0 } : Params).legal ∧ ¬ ({ Params.default with inDepth := 0 } : Params).legal := by
  decide

/-! ### Control commands and errors -/

theorem witness_UndefinedCsrRaisesBadCsr :
    ∀ idx ∈ [0x05#8, 0x07#8, 0x0F#8, 0x1D#8, 0x1F#8, 0x25#8, 0x27#8, 0x30#8, 0xFF#8],
      (0x05#8 ≤ idx ∧ idx ≤ 0x07#8) ∨ idx = 0x0F#8 ∨ (0x1D#8 ≤ idx ∧ idx ≤ 0x1F#8) ∨
        (0x25#8 ≤ idx ∧ idx ≤ 0x27#8) ∨ 0x30#8 ≤ idx := by decide

theorem witness_TimeLowReadDrawsAndLatches :
    (withTime [2 ^ 64 - 1]).time.toNat + nextAdvance (withTime [2 ^ 64 - 1]) < 2 ^ 64 := by decide

theorem witness_TimeReadPairIsOneInstant :
    ∃ t u, exec (.csrRead 0#16 0x1B#8) (withTime [0x100000005]) = .next t ∧ exec (.csrRead 0#16 0x1C#8) t = .next u :=
  ⟨_, _, rfl, rfl⟩

theorem witness_ReservedBitsRaiseReservedNonzero :
    (0x800000#24 ≠ 0#24 ∧ 1#24 ≠ 0#24) ∧ (0x8000#16 ≠ 0#16 ∧ 1#16 ≠ 0#16) ∧ (0x40#7 ≠ 0#7 ∧ 1#7 ≠ 0#7) ∧
    (0x80#8 ≠ 0#8 ∧ 1#8 ≠ 0#8) ∧ (0x4000#15 ≠ 0#15 ∧ 1#15 ≠ 0#15) := by decide

theorem witness_UnconfiguredUnitsRaiseNotConfigured :
    State.reset.mod.cfg = false ∧ State.reset.conv.cfg = false := by decide

-- A command with no error, one that clears the error state, and one that raises an error.
theorem witness_CommandsRaiseOnlyTheirErrors :
    (∃ t, exec (.nop 0#24) State.reset = .next t) ∧ (∃ t, exec (.errClear 0#24) State.reset = .next t) ∧
    (∃ t, exec (.convRequest 1#24) State.reset = .next t) := ⟨⟨_, rfl⟩, ⟨_, rfl⟩, ⟨_, rfl⟩⟩

-- An error with no other effect, and a failed configuration of either unit.
theorem witness_FailedCommandsHaveNoOtherEffect :
    (∃ t, exec (.modRequest 1#24) State.reset = .next t ∧ t.err.err = true ∧
      t.err.count = State.reset.err.count + 1#32) ∧
    (∃ t, exec (.modConfig false 0#7 0#16 0#32) (cfg35 []) = .next t ∧ t.err.err = true ∧
      t.err.count = (cfg35 []).err.count + 1#32) ∧
    (∃ t, exec (.convConfig false 0#15 0#8 0#32 0#32 []) (ccfg1000 [] []) = .next t ∧ t.err.err = true ∧
      t.err.count = (ccfg1000 [] []).err.count + 1#32) :=
  ⟨⟨_, rfl, rfl, rfl⟩, ⟨_, rfl, rfl, rfl⟩, ⟨_, rfl, rfl, rfl⟩⟩

theorem witness_CommandsAnswerTheirResponseWords :
    (∃ t, exec (.modRequest 3#24) (cfg35 [0x1B#8]) = .next t) ∧
    (∃ t, exec (.modRequest 3#24) State.reset = .next t) ∧ (∃ t, exec (.nop 0#24) State.reset = .next t) :=
  ⟨⟨_, rfl⟩, ⟨_, rfl⟩, ⟨_, rfl⟩⟩

theorem witness_OutputsComeOnlyFromTheirCommands :
    (∃ t, exec (.modRequest 3#24) (cfg35 [0x1B#8]) = .next t) ∧
    (∃ t, exec (.convRequest 3#24) (ccfg1000 [[7#8]] [7000000, 0]) = .next t) ∧
    (∃ t, exec (.modFeed 0#16 1#8) (cfg35 []) = .next t) := ⟨⟨_, rfl⟩, ⟨_, rfl⟩, ⟨_, rfl⟩⟩

/-! ### The modulator -/

-- The smallest S, and the largest under P_SPS_MAX = 1.
theorem witness_ModConfigConstructs :
    (1 ≤ (1#16).toNat ∧ (1#16).toNat ≤ ({ Params.default with spsMax := 1 } : Params).spsMax) ∧
    alphaLegal 0x3F800000#32 = true ∧ (∃ taps, tapSet Params.default.tapRound (1#16).toNat 0x3F800000#32 = some taps) ∧
    TapMemory.wf (cfg35 []).tap = true :=
  ⟨by decide, by decide, ⟨_, test_taps_s1a100⟩, by decide⟩

theorem witness_ModConfigRejectsBadSps :
    (0#16).toNat = 0 ∧ State.reset.params.spsMax < (65#16).toNat := by decide

-- The legal words at both ends, and illegal words of every kind.
theorem witness_RollOffIsLegalExactlyInRange :
    alphaLegal 0x00000001#32 = true ∧ alphaLegal 0x3F800000#32 = true ∧ alphaLegal 0x3F800001#32 = false ∧
    alphaLegal 0x00000000#32 = false ∧ alphaLegal 0xBEB33333#32 = false ∧
    1 ≤ (64#16).toNat ∧ (64#16).toNat ≤ State.reset.params.spsMax ∧
    ¬ (Sys2Proof.Reference.Finite 0x7FC00000#32 ∧ 0 < val 0x7FC00000#32 ∧ val 0x7FC00000#32 ≤ 1) :=
  ⟨by decide, by decide, by decide, by decide, by decide, by decide, by decide, fun h => h.1 (by decide)⟩

theorem witness_TapSetIsSymmetric :
    (∃ taps, tapSet .rne32 1 0x3F800000#32 = some taps) ∧ 0 ≤ 8 * 1 ∧ 8 ≤ 8 * 1 :=
  ⟨⟨_, test_taps_s1a100⟩, by decide⟩

-- The default rounding and another, and both ends of the tap indices.
theorem witness_StoredTapsAreNearestToExactTaps :
    alphaLegal 0x3F800000#32 = true ∧ (∃ taps, tapSet .rne32 1 0x3F800000#32 = some taps) ∧
    (∃ taps, tapSet (.other 0) 1 0x3F800000#32 = some taps) ∧ 0 ≤ 8 * 1 ∧ 8 ≤ 8 * 1 := by
  refine ⟨by decide, ⟨_, test_taps_s1a100⟩, ?_, by decide⟩
  rw [← Option.ne_none_iff_exists', Ne, tapSet_eq_none, ← tapSet_eq_none .rne32, test_taps_s1a100]
  simp

theorem witness_Rne32IsNearestEven :
    0 < 3 ∧ ((1 : ℕ) : ℝ) / (3 : ℕ) < 2 ^ 128 - 2 ^ 103 ∧
    ((2 ^ 128 - 2 ^ 103 - 1 : ℕ) : ℝ) / (1 : ℕ) < 2 ^ 128 - 2 ^ 103 := by
  norm_num

theorem witness_ProductIsRoundedExactly :
    Sys2Proof.Reference.Finite 0x3F800000#32 ∧ |val 0x3F800000#32 * val 0xBF800000#32| < 2 ^ 128 - 2 ^ 103 := by
  have h1 : val 0x3F800000#32 = 1 := by
    simp only [val, show (0x3F800000#32).getLsbD 31 = false from rfl,
      show ((0x3F800000#32).extractLsb' 23 8).toNat = 127 from rfl,
      show ((0x3F800000#32).extractLsb' 0 23).toNat = 0 from rfl]
    norm_num
  have h2 : val 0xBF800000#32 = -1 := by
    simp only [val, show (0xBF800000#32).getLsbD 31 = true from rfl,
      show ((0xBF800000#32).extractLsb' 23 8).toNat = 127 from rfl,
      show ((0xBF800000#32).extractLsb' 0 23).toNat = 0 from rfl]
    norm_num
  refine ⟨by unfold Sys2Proof.Reference.Finite; decide, ?_⟩
  rw [h1, h2]
  norm_num

theorem witness_NegativeAmplitudeFlipsTheSign :
    Sys2Proof.Reference.Finite 0x00000000#32 ∧ Sys2Proof.Reference.Finite 0xFF7FFFFF#32 := by
  unfold Sys2Proof.Reference.Finite
  decide

-- Room in IN_FIFO, and none under P_IN_DEPTH = 2.
theorem witness_FeedAppendsOrIsFull :
    (cfg35 [1#8, 2#8]).mod.cfg = true ∧ (cfg35 [1#8, 2#8]).mod.inFifo.length ≠ (cfg35 [1#8, 2#8]).params.inDepth ∧
    (cfg35 [1#8, 2#8]).mod.inFifo.length = ({ Params.default with inDepth := 2 } : Params).inDepth := by decide

theorem witness_QuadratureIndexStaysInTaps :
    ({ mod35 [] with act := true, k := 3#16 } : ModState).ok Params.default ∧ (mod35 []).cfg = true ∧
    (3#16).toNat ≤ (mod35 []).sps.toNat - 1 := by decide

-- From 41_modulator.md R145 and R152: of one byte, 16 samples at S = 4, the byte pulled by the first of them.
theorem witness_RequestEmitsThePendingStream :
    (cfg35 [0x1B#8]).mod.ok (cfg35 [0x1B#8]).params ∧ (cfg35 [0x1B#8]).mod.cfg = true ∧
    bytesPulled (mod35 [0x1B#8, 0x1B#8]) 0 = 0 ∧ bytesPulled (mod35 [0x1B#8, 0x1B#8]) 1 = 1 ∧
    bytesPulled (mod35 [0x1B#8, 0x1B#8]) 16 = 1 ∧ bytesPulled (mod35 [0x1B#8, 0x1B#8]) 17 = 2 := by decide

theorem witness_SplittingARequestChangesNothing :
    (cfg35 [0x1B#8]).mod.cfg = true ∧ (0#24).toNat + (0#24).toNat = (0#24).toNat ∧
    (3#24).toNat + (0xFFFFFC#24).toNat = (0xFFFFFF#24).toNat ∧ (3#24).toNat + (13#24).toNat = (16#24).toNat ∧
    ∃ t u w, exec (.modRequest 3#24) (cfg35 [0x1B#8]) = .next t ∧ exec (.modRequest 13#24) t = .next u ∧
      exec (.modRequest 16#24) (cfg35 [0x1B#8]) = .next w :=
  ⟨by decide, by decide, by decide, by decide, _, _, _, rfl, rfl, rfl⟩

theorem witness_SymbolCountTracksSamples :
    (cfg35 [0x1B#8]).mod.ok (cfg35 [0x1B#8]).params ∧ (cfg35 [0x1B#8]).mod.cfg = true ∧
    (cfg35 [0x1B#8]).mod.symcnt.toNat + (16#24).toNat < 2 ^ 64 ∧
    ∃ t, exec (.modRequest 16#24) (cfg35 [0x1B#8]) = .next t :=
  ⟨by decide, by decide, by decide, _, rfl⟩

theorem witness_TapReadAnswersItsTap :
    (cfg35 []).mod.cfg = true ∧ (32#16).toNat < (cfg35 []).mod.nTaps.toNat ∧
    (cfg35 []).mod.nTaps.toNat ≤ (33#16).toNat := by decide

/-! ### The converter -/

theorem witness_ConvConfigConstructs :
    ¬ (1#32 = 0#32 ∧ 0#32 = 0#32) ∧ (64#8).toNat ≤ (withTime [5]).params.tagNameMax ∧
    (withTime [5]).time.toNat + nextAdvance (withTime [5]) < 2 ^ 64 := by decide

theorem witness_ConvConfigRejectsBadOperands :
    (0#32 = 0#32 ∧ 0#32 = 0#32) ∧ ¬ (0#32 = 0#32 ∧ 1#32 = 0#32) ∧ State.reset.params.tagNameMax < (65#8).toNat := by
  decide

theorem witness_MessagesAreQueuedOrDropped : (ccfg1000 [] []).conv.cfg = true := by decide

-- Below one period under FLOOR, below half a period and on a tie under NEAREST (95_test_vectors.md section 5.1).
theorem witness_BudgetIsTheRoundedDueCount :
    0 < Params.default.fTick ∧ ({ Params.default with paceRound := .floor } : Params).paceRound = .floor ∧
    999999 * (0x000003E800000000#64).toNat < Params.default.fTick * 2 ^ 32 ∧ Params.default.paceRound = .nearest ∧
    2 * (499999 * (0x000003E800000000#64).toNat) < Params.default.fTick * 2 ^ 32 ∧
    2 * (1500000 * (0x000003E800000000#64).toNat) = (2 * 1 + 1) * (Params.default.fTick * 2 ^ 32) := by decide

/-- The due count of CCFG1000 after 7 ms is 7. -/
theorem budget_7ms (n : Nat) : budgetOf Params.default 7000000 0x000003E800000000#64 n = min 7 n := by
  have h : ⌊((7000000 : ℕ) : ℚ) * ((0x000003E800000000#64).toNat : ℚ) / (Params.default.fTick * 2 ^ 32) + 1 / 2⌋ = 7 := by
    rw [Int.floor_eq_iff]
    norm_num [Params.default]
  unfold budgetOf
  simp only [Params.default] at h ⊢
  rw [h]
  rfl

-- Capacity 0 after 7 ms.
theorem witness_ZeroBudgetEmitsNothing :
    ∃ t1 s1 t2 s2, (ccfg1000 [] [7000000, 0]).conv.cfg = true ∧
      drawTime (ccfg1000 [] [7000000, 0]) = some (t1, s1) ∧ drawTime s1 = some (t2, s2) ∧
      budgetOf (ccfg1000 [] [7000000, 0]).params (t1.toNat - (ccfg1000 [] [7000000, 0]).conv.lastT.toNat)
        (ccfg1000 [] [7000000, 0]).conv.rate (0#24).toNat = 0 :=
  ⟨7000000#64, _, 7000000#64, _, by decide, rfl, rfl, budget_7ms 0⟩

theorem witness_EmptyQueueIsPadded :
    ∃ t1 s1 t2 s2, (ccfg1000 [] [7000000, 0]).conv.cfg = true ∧
      drawTime (ccfg1000 [] [7000000, 0]) = some (t1, s1) ∧ drawTime s1 = some (t2, s2) ∧
      (ccfg1000 [] [7000000, 0]).conv.queue = [] ∧ (ccfg1000 [] [7000000, 0]).conv.curValid = false :=
  ⟨_, _, _, _, by decide, rfl, rfl, by decide, by decide⟩

theorem witness_EmptyPduPadsTheRest :
    ∃ t1 s1 t2 s2, (ccfg1000 [[], [7#8]] [7000000, 0]).conv.cfg = true ∧
      drawTime (ccfg1000 [[], [7#8]] [7000000, 0]) = some (t1, s1) ∧ drawTime s1 = some (t2, s2) ∧
      (ccfg1000 [[], [7#8]] [7000000, 0]).conv.queue = [] :: [[7#8]] ∧
      (ccfg1000 [[], [7#8]] [7000000, 0]).conv.curValid = false ∧
      0 < budgetOf (ccfg1000 [[], [7#8]] [7000000, 0]).params
        (t1.toNat - (ccfg1000 [[], [7#8]] [7000000, 0]).conv.lastT.toNat)
        (ccfg1000 [[], [7#8]] [7000000, 0]).conv.rate (1#24).toNat :=
  ⟨7000000#64, _, 7000000#64, _, by decide, rfl, rfl, by decide, by decide, by
    show 0 < budgetOf Params.default 7000000 0x000003E800000000#64 1
    rw [budget_7ms]
    decide⟩

/-- A converter with a current PDU of five bytes, two of them emitted. -/
def midPdu (queue : List (List Byte)) : ConvState :=
  { (ccfg1000 queue []).conv with curValid := true, cur := [9#8, 8#8, 7#8, 6#8, 5#8], pos := 2#20 }

-- The hypotheses; then, for the clauses of `CursorAfter` at their ends: a budget that ends with the current PDU, one
-- past it with nothing queued, an empty PDU, a PDU the budget ends with, and one it outlasts.
theorem witness_RequestEmitsPdusBackToBack :
    (∃ t1 s1 t2 s2, (ccfg1000 [[1#8, 2#8]] [7000000, 0]).params.legal ∧
      (ccfg1000 [[1#8, 2#8]] [7000000, 0]).conv.ok (ccfg1000 [[1#8, 2#8]] [7000000, 0]).params ∧
      (ccfg1000 [[1#8, 2#8]] [7000000, 0]).conv.cfg = true ∧
      drawTime (ccfg1000 [[1#8, 2#8]] [7000000, 0]) = some (t1, s1) ∧ drawTime s1 = some (t2, s2)) ∧
    (∀ q, (midPdu q).cur.drop (midPdu q).pos.toNat = [7#8, 6#8, 5#8]) ∧
    pdusBegun 3 3 [[1#8]] = 0 ∧ pdusBegun 4 3 [] = 0 ∧ pdusBegun 4 3 [[], [1#8]] = 1 ∧
    pdusBegun 5 3 [[1#8, 2#8], [3#8]] = 1 ∧ pdusBegun 6 3 [[1#8, 2#8]] = 1 ∧ pdusBegun 6 3 [[1#8, 2#8], [3#8]] = 2 :=
  ⟨⟨_, _, _, _, by decide, by decide, by decide, rfl, rfl⟩, fun _ => rfl, by decide⟩

/-! ### TIME and the two units -/

theorem witness_TimeNeverRunsBackwards :
    (∃ t, exec (.csrRead 0#16 0x1B#8) (withTime [9]) = .next t) ∧ (∃ t, exec (.reset 0#24) (withTime [9]) = .next t) ∧
    (Instr.reset 0#24).opcode ≠ .csrRead ∧ (Instr.reset 0#24).opcode ≠ .convConfig ∧
    (Instr.reset 0#24).opcode ≠ .convRequest :=
  ⟨⟨_, rfl⟩, ⟨_, rfl⟩, by decide, by decide, by decide⟩

theorem witness_TimeWrapIsRefused :
    2 ^ 64 ≤ (ccfg1000 [] [2 ^ 64]).time.toNat + nextAdvance (ccfg1000 [] [2 ^ 64]) ∧
    ¬ (0#32 = 0#32 ∧ 1#32 = 0#32) ∧ (64#8).toNat ≤ (ccfg1000 [] [2 ^ 64]).params.tagNameMax ∧
    (ccfg1000 [] [2 ^ 64]).conv.cfg = true := by decide

theorem witness_UnitsShareOnlyErrorsAndReset :
    (∃ t, exec (.modFeed 0#16 1#8) (cfg35 []) = .next t) ∧ isMod (Instr.modFeed 0#16 1#8).opcode = true ∧
    (∃ t, exec (.msgDeliver 0#4 0#20 []) (ccfg1000 [] []) = .next t) ∧
    isConv (Instr.msgDeliver 0#4 0#20 []).opcode = true ∧
    (∃ t, exec (.errClear 0#24) (cfg35 []) = .next t) ∧ (Instr.errClear 0#24).opcode = .errClear :=
  ⟨⟨_, rfl⟩, by decide, ⟨_, rfl⟩, by decide, ⟨_, rfl⟩, by decide⟩

/-- Both units configured, each with input. -/
def bothUnits : State := (ccfg1000 [[7#8]] [7000000, 0]).setMod (mod35 [0x1B#8])

-- A pair of which one command answers, and a pair of which both do.
theorem witness_UnitsCommute :
    (∃ a b c, isMod (Instr.modFeed 0#16 1#8).opcode = true ∧ isConv (Instr.convRequest 5#24).opcode = true ∧
      exec (.modFeed 0#16 1#8) bothUnits = .next a ∧ exec (.convRequest 5#24) a = .next b ∧
      exec (.convRequest 5#24) bothUnits = .next c ∧ a.err = bothUnits.err ∧ b.err = a.err) ∧
    (∃ a b c, isMod (Instr.modRequest 3#24).opcode = true ∧
      exec (.modRequest 3#24) bothUnits = .next a ∧ exec (.convRequest 5#24) a = .next b ∧
      exec (.convRequest 5#24) bothUnits = .next c ∧ a.err = bothUnits.err ∧ b.err = a.err) :=
  ⟨⟨_, _, _, by decide, by decide, rfl, rfl, rfl, rfl, rfl⟩, ⟨_, _, _, by decide, rfl, rfl, rfl, rfl, rfl⟩⟩

-- Two machines with the same modulator and different converters.
theorem witness_ModStreamDependsOnModAlone :
    isMod (Instr.modRequest 3#24).opcode = true ∧
    (cfg35 [0x1B#8]).params = ((cfg35 [0x1B#8]).setConv (ccfg1000 [] []).conv).params ∧
    (cfg35 [0x1B#8]).mod = ((cfg35 [0x1B#8]).setConv (ccfg1000 [] []).conv).mod ∧
    (cfg35 [0x1B#8]).tap = ((cfg35 [0x1B#8]).setConv (ccfg1000 [] []).conv).tap ∧
    (∃ t, exec (.modRequest 3#24) (cfg35 [0x1B#8]) = .next t) ∧
    ∃ t, exec (.modRequest 3#24) ((cfg35 [0x1B#8]).setConv (ccfg1000 [] []).conv) = .next t :=
  ⟨rfl, rfl, rfl, rfl, ⟨_, rfl⟩, ⟨_, rfl⟩⟩

theorem witness_DebugFlagsChangeNoOutput :
    (∀ r : BitVec 16, Instr.modRequest 3#24 ≠ .csrRead r 0x01#8) ∧
    ∃ t, exec (.modRequest 3#24) ((cfg35 [0x1B#8]).setMod { mod35 [0x1B#8] with dbg := true }) = .next t :=
  ⟨fun _ => nofun, _, rfl⟩

theorem witness_TapMemoryIsCanonical :
    TapMemory.wf taps35 = true ∧ TapMemory.wf [] = true ∧ ∀ i, tapRead taps35 i = tapRead taps35 i :=
  ⟨by decide, by decide, fun _ => rfl⟩

/-- A legal state with both units configured and a command received. -/
def running : State :=
  ((ccfg1000 [[1#8, 2#8]] [7000000, 0]).setMod (mod35 [0x1B#8])).receive .cmd [0x22000064#32]

theorem witness_EveryStepKeepsTheStateLegal : running.ok ∧ ∃ t, step running = .next t :=
  ⟨⟨by decide, by decide, by decide, by decide, by decide, by decide, by decide⟩, _, rfl⟩

end Sys2Proof.Tests
end

section
/-! 00_scope.md R8, R9: what the implementation parameters and the debug flags decide. -/

namespace Sys2Proof.Machine

open Sys2Proof.Reference

/-! ### Illegal parameters (00_scope.md R8) -/

/-- The bounds of R8 are part of the legal ranges. -/
theorem Params.legal_bounds {p : Params} (h : p.legal) :
    p.spsMax ≤ 8191 ∧ p.pduMax ≤ 2 ^ 20 - 1 ∧ p.tagNameMax ≤ 255 := by
  obtain ⟨⟨-, hsps⟩, -, -, hpdu, htag, -⟩ := h
  exact ⟨hsps, hpdu, htag⟩

/-- No command is fetched under parameters that are no OQPSK-PS configuration. -/
theorem step_of_not_legal {s : State} (h : ¬ s.params.legal) : step s = .refused .illegalParameters := if_neg h

/-- Settles O12: each bound of R8 is part of the legal ranges, and `step` looks at those first. -/
theorem illegalParametersAreRefused : Obligations.IllegalParametersAreRefused := by
  intro s h
  refine step_of_not_legal fun hl => ?_
  obtain ⟨hsps, hpdu, htag⟩ := Params.legal_bounds hl
  rcases h with h | h | h | h
  · omega
  · omega
  · omega
  · exact h hl

/-! ### The debug flags of each unit -/

/-- The MOD unit with M_DBG cleared. -/
def ModState.quiet (m : ModState) : ModState := { m with dbg := false }

/-- The CONV unit with C_DBG cleared. -/
def ConvState.quiet (c : ConvState) : ConvState := { c with dbg := false }

/-- Starting a symbol does not look at M_DBG. -/
theorem ensureSymbol_quiet (m : ModState) :
    ensureSymbol m.quiet = (ensureSymbol m).map fun r => (r.1.quiet, r.2) := by
  cases h : ensureSymbol m with
  | none => exact ensureSymbol_eq_none.2 (ensureSymbol_eq_none (m := m).1 h)
  | some r =>
    rcases ensureSymbol_cases h with ⟨ha, hm, hp⟩ | ⟨ha, hb, hm, hp⟩ | ⟨b, rest, ha, hb, hf, hm, hp⟩
    all_goals simp [ensureSymbol, ModState.quiet, mapNext, nextPair, *]

theorem advanceSample_quiet (m : ModState) : advanceSample m.quiet = (advanceSample m).quiet := by
  by_cases h : m.k.toNat + 1 = m.sps.toNat
  · rw [advanceSample_last h, advanceSample_last (m := m.quiet) h]
    rfl
  · rw [advanceSample_more h, advanceSample_more (m := m.quiet) h]
    rfl

theorem fillSamples_quiet (p : Params) (tap : TapMemory) (n : Nat) (m : ModState) :
    fillSamples p tap n m.quiet =
      { fillSamples p tap n m with mod := (fillSamples p tap n m).mod.quiet } := by
  induction n generalizing m with
  | zero => rfl
  | succ n ih =>
    have hq := ensureSymbol_quiet m
    cases h : ensureSymbol m with
    | none =>
      rw [h] at hq
      rw [fillSamples_exhausted _ h, fillSamples_exhausted _ hq]
    | some r =>
      obtain ⟨m', pulled⟩ := r
      rw [h] at hq
      rw [fillSamples_succ n h, fillSamples_succ n hq, advanceSample_quiet, ih]
      rfl

theorem clearExhausted_quiet (c : ConvState) : clearExhausted c.quiet = (clearExhausted c).quiet := by
  unfold clearExhausted ConvState.quiet
  split <;> rfl

theorem popPdu_quiet (produced : Nat) (c : ConvState) : popPdu produced c.quiet = (popPdu produced c).quiet := by
  rcases popPdu_cases produced c with ⟨hv, h⟩ | ⟨hv, hq, h⟩ | ⟨pdu, rest, hv, hq, h⟩
  all_goals simp [popPdu, ConvState.quiet, *]

theorem drain_quiet (base : BitVec 64) (b fuel produced : Nat) (c : ConvState) :
    drain base b fuel produced c.quiet =
      { drain base b fuel produced c with conv := (drain base b fuel produced c).conv.quiet } := by
  induction fuel generalizing produced c with
  | zero => rfl
  | succ fuel ih =>
    have hq : popPdu produced (clearExhausted c.quiet) = (popPdu produced (clearExhausted c)).quiet := by
      rw [clearExhausted_quiet, popPdu_quiet]
    by_cases hb : produced < b
    · by_cases hc : 0 < chunkOf (b - produced) (popPdu produced (clearExhausted c))
      · rw [drain_copy fuel hb rfl hc, drain_copy fuel hb hq.symm hc]
        generalize popPdu produced (clearExhausted c) = d
        exact congrArg (fun r : DrainResult => DrainResult.mk r.conv
            ((d.cur.drop d.pos.toNat).take (chunkOf (b - produced) d) ++ r.bytes)
            ((if d.pos == 0#20 then [tagOfCurrent base d] else []) ++ r.tags))
          (ih _ { d with
            pos := d.pos + BitVec.ofNat 20 (chunkOf (b - produced) d)
            tagCnt := if d.pos == 0#20 then d.tagCnt + 1#32 else d.tagCnt })
      · have h0 : chunkOf (b - produced) (popPdu produced (clearExhausted c)) = 0 := by omega
        rw [drain_pad fuel hb h0, drain_pad fuel hb (hq ▸ h0), hq]
    · rw [drain_done _ (by omega), drain_done _ (by omega)]

/-! ### The debug flags of the whole state -/

@[simp] theorem withoutDebug_params (s : State) : (withoutDebug s).params = s.params := rfl
@[simp] theorem withoutDebug_mod (s : State) : (withoutDebug s).mod = s.mod.quiet := rfl
@[simp] theorem withoutDebug_conv (s : State) : (withoutDebug s).conv = s.conv.quiet := rfl
@[simp] theorem ConvState.quiet_wcount (c : ConvState) : c.quiet.wcount = c.wcount := rfl
@[simp] theorem budget_quiet (p : Params) (c : ConvState) (t : BitVec 64) (n : BitVec 24) :
    budget p c.quiet t n = budget p c t n := rfl

theorem deliverTo_quiet (p : Params) (kind : BitVec 4) (len : Nat) (bytes : List Byte) (c : ConvState) :
    deliverTo p kind len bytes c.quiet = (deliverTo p kind len bytes c).quiet := by
  unfold deliverTo ConvState.quiet
  split_ifs <;> rfl

/-- The environment, not a debug flag, decides what a draw of TIME gives. -/
theorem drawTime_withoutDebug (s : State) :
    drawTime (withoutDebug s) = (drawTime s).map fun r => (r.1, withoutDebug r.2) := by
  rcases Nat.lt_or_ge (s.time.toNat + nextAdvance s) (2 ^ 64) with h | h
  · rw [drawTime_of_lt h, drawTime_of_lt (s := withoutDebug s) h]
    rfl
  · rw [drawTime_eq_none.2 h, drawTime_eq_none (s := withoutDebug s) |>.2 h]
    rfl

/-- Every CSR but STATUS reads the same (10_state.md R52, R53). -/
theorem csrValue_withoutDebug (s : State) {idx : BitVec 8} (h : idx ≠ 0x01#8) :
    csrValue (withoutDebug s) idx = csrValue s idx := by
  unfold csrValue
  split
  case h_2 h1 => exact absurd (BitVec.eq_of_toNat_eq h1) h
  all_goals rfl

/-- What a command does, up to the debug flags. -/
def eraseDebug : Host.Outcome State Fault Refusal → Host.Outcome State Fault Refusal
  | .next t => .next (withoutDebug t)
  | .fault r => .fault r
  | .refused r => .refused r

/-- An outcome that differs from a next state in nothing but the debug flags is a next state. -/
theorem eraseDebug_eq_next {o : Host.Outcome State Fault Refusal} {t : State}
    (h : eraseDebug o = eraseDebug (.next t)) : ∃ t', o = .next t' ∧ withoutDebug t' = withoutDebug t := by
  cases o with
  | next t' => exact ⟨t', rfl, Host.Outcome.next.inj h⟩
  | fault r => cases h
  | refused r => cases h

/-- Commands that branch alike do the same if their branches do. -/
theorem eraseDebug_ite {c : Prop} {hc hc' : Decidable c} {x y x' y' : Host.Outcome State Fault Refusal}
    (hx : eraseDebug x = eraseDebug x') (hy : eraseDebug y = eraseDebug y') :
    eraseDebug (@ite _ c hc x y) = eraseDebug (@ite _ c hc' x' y') := by
  by_cases h : c
  · rwa [if_pos h, if_pos h]
  · rwa [if_neg h, if_neg h]

/-! ### Each command -/

theorem execReset_withoutDebug (reserved : BitVec 24) (s : State) :
    eraseDebug (execReset reserved (withoutDebug s)) = eraseDebug (execReset reserved s) :=
  eraseDebug_ite rfl rfl

theorem execErrClear_withoutDebug (reserved : BitVec 24) (s : State) :
    eraseDebug (execErrClear reserved (withoutDebug s)) = eraseDebug (execErrClear reserved s) :=
  eraseDebug_ite rfl rfl

theorem execCsrRead_withoutDebug (reserved : BitVec 16) {idx : BitVec 8} (h : idx ≠ 0x01#8) (s : State) :
    eraseDebug (execCsrRead reserved idx (withoutDebug s)) = eraseDebug (execCsrRead reserved idx s) := by
  unfold execCsrRead
  rw [csrValue_withoutDebug s h, drawTime_withoutDebug]
  refine eraseDebug_ite rfl (eraseDebug_ite ?_ ?_)
  · cases drawTime s <;> rfl
  · cases csrValue s idx <;> rfl

theorem execModConfig_withoutDebug (dbg : Bool) (reserved : BitVec 7) (sps : BitVec 16) (alpha : Word) (s : State) :
    eraseDebug (execModConfig dbg reserved sps alpha (withoutDebug s)) =
      eraseDebug (execModConfig dbg reserved sps alpha s) := by
  refine eraseDebug_ite rfl (eraseDebug_ite rfl (eraseDebug_ite rfl ?_))
  rw [withoutDebug_params]
  cases tapSet s.params.tapRound sps.toNat alpha <;> rfl

theorem execModFeed_withoutDebug (reserved : BitVec 16) (byte : Byte) (s : State) :
    eraseDebug (execModFeed reserved byte (withoutDebug s)) = eraseDebug (execModFeed reserved byte s) :=
  eraseDebug_ite rfl (eraseDebug_ite rfl (eraseDebug_ite rfl rfl))

theorem execModRequest_withoutDebug (n : BitVec 24) (s : State) :
    eraseDebug (execModRequest n (withoutDebug s)) = eraseDebug (execModRequest n s) := by
  refine eraseDebug_ite rfl ?_
  rw [withoutDebug_mod, fillSamples_quiet]
  rfl

theorem execTapRead_withoutDebug (reserved : BitVec 8) (i : BitVec 16) (s : State) :
    eraseDebug (execTapRead reserved i (withoutDebug s)) = eraseDebug (execTapRead reserved i s) :=
  eraseDebug_ite rfl (eraseDebug_ite rfl (eraseDebug_ite rfl rfl))

theorem execConvConfig_withoutDebug (dbg : Bool) (reserved : BitVec 15) (len : BitVec 8) (rateLo rateHi : Word)
    (name : List Word) (s : State) :
    eraseDebug (execConvConfig dbg reserved len rateLo rateHi name (withoutDebug s)) =
      eraseDebug (execConvConfig dbg reserved len rateLo rateHi name s) := by
  refine eraseDebug_ite rfl (eraseDebug_ite rfl (eraseDebug_ite rfl ?_))
  rw [drawTime_withoutDebug]
  cases drawTime s <;> rfl

theorem execMsgDeliver_withoutDebug (kind : BitVec 4) (len : BitVec 20) (payload : List Word) (s : State) :
    eraseDebug (execMsgDeliver kind len payload (withoutDebug s)) = eraseDebug (execMsgDeliver kind len payload s) := by
  refine eraseDebug_ite rfl ?_
  rw [withoutDebug_conv, deliverTo_quiet]
  rfl

theorem execConvRequest_withoutDebug (n : BitVec 24) (s : State) :
    eraseDebug (execConvRequest n (withoutDebug s)) = eraseDebug (execConvRequest n s) := by
  refine eraseDebug_ite rfl ?_
  rw [drawTime_withoutDebug]
  cases drawTime s with
  | none => rfl
  | some r =>
    simp only [Option.map_some, withoutDebug_conv, withoutDebug_params, budget_quiet, ConvState.quiet_wcount,
      drain_quiet, drawTime_withoutDebug]
    cases drawTime r.2 <;> rfl

/-- No command but a read of STATUS looks at a debug flag (00_scope.md R9). -/
theorem exec_withoutDebug (i : Instr) (s : State) (h : ∀ r : BitVec 16, i ≠ .csrRead r 0x01#8) :
    eraseDebug (exec i (withoutDebug s)) = eraseDebug (exec i s) := by
  cases i with
  | nop ignored => rfl
  | reset reserved => exact execReset_withoutDebug reserved s
  | csrRead reserved idx => exact execCsrRead_withoutDebug reserved (fun hi => h reserved (hi ▸ rfl)) s
  | errClear reserved => exact execErrClear_withoutDebug reserved s
  | modConfig dbg reserved sps alpha => exact execModConfig_withoutDebug dbg reserved sps alpha s
  | modFeed reserved byte => exact execModFeed_withoutDebug reserved byte s
  | modRequest n => exact execModRequest_withoutDebug n s
  | tapRead reserved i => exact execTapRead_withoutDebug reserved i s
  | convConfig dbg reserved len rateLo rateHi name =>
    exact execConvConfig_withoutDebug dbg reserved len rateLo rateHi name s
  | msgDeliver kind len payload => exact execMsgDeliver_withoutDebug kind len payload s
  | convRequest n => exact execConvRequest_withoutDebug n s

/-- Settles O57: every command does the same up to the flags, shown command by command in `exec_withoutDebug`. -/
theorem debugFlagsChangeNoOutput : Obligations.DebugFlagsChangeNoOutput := by
  intro i s t hi h
  exact eraseDebug_eq_next (h ▸ exec_withoutDebug i s hi)

end Sys2Proof.Machine
end

section
/-! 00_scope.md R7, R12: `rne32` finds the place of a nearest word, and so the default product rounds once. -/

namespace Sys2Proof.Machine

open Sys2Proof.Reference

/-! ### Rounding a quotient -/

/-- Rounding a quotient is off by at most one half, and even at just one half. -/
theorem rneDiv_near_real (n : Nat) {d : Nat} (hd : 0 < d) :
    |(rneDiv n d : ℝ) - n / d| ≤ 1 / 2 ∧ (|(rneDiv n d : ℝ) - n / d| = 1 / 2 → rneDiv n d % 2 = 0) := by
  obtain ⟨hlo, hhi⟩ := rneDiv_near n hd
  have htie := rneDiv_tie (n := n) hd
  generalize rneDiv n d = m at *
  have hd' : (0 : ℝ) < 2 * d := by positivity
  have hscale : |(m : ℝ) - n / d| = |2 * ((d : ℝ) * m) - 2 * n| / (2 * d) := by
    have : (m : ℝ) - n / d = (2 * ((d : ℝ) * m) - 2 * n) / (2 * d) := by field_simp
    rw [this, abs_div, abs_of_pos hd']
  have hlo' : (2 : ℝ) * n ≤ 2 * (d * m) + d := by exact_mod_cast hlo
  have hhi' : (2 : ℝ) * (d * m) ≤ 2 * n + d := by exact_mod_cast hhi
  rw [hscale, div_le_iff₀ hd', div_eq_iff hd'.ne']
  refine ⟨abs_le.2 ⟨by linarith, by linarith⟩, fun h => htie ?_⟩
  rcases eq_or_eq_neg_of_abs_eq h with h | h
  · right
    have : (2 : ℝ) * (d * m) = 2 * n + d := by linarith
    exact_mod_cast this
  · left
    have : (2 : ℝ) * n = 2 * (d * m) + d := by linarith
    exact_mod_cast this

/-- A real within half a quantum of one multiple is at least half a quantum away from every other. -/
theorem half_le_of_ne {q x : ℝ} (hq : 0 < q) {m n : Nat} (hne : n ≠ m) (h : |m * q - x| ≤ q / 2) :
    q / 2 ≤ |n * q - x| := by
  have hapart : (1 : ℝ) ≤ |(n : ℝ) - m| := by
    have : (1 : ℤ) ≤ |(n : ℤ) - m| := Int.one_le_abs (by omega)
    exact_mod_cast this
  have hgap : q ≤ |n * q - x| + |m * q - x| :=
    calc q ≤ |(n : ℝ) - m| * q := le_mul_of_one_le_left hq.le hapart
      _ = |((n : ℝ) - m) * q| := by rw [abs_mul, abs_of_pos hq]
      _ = |(n * q - x) - (m * q - x)| := by congr 1; ring
      _ ≤ |n * q - x| + |m * q - x| := abs_sub _ _
  linarith

/-! ### Magnitudes on a grid of 2^k units -/

/-- From exponent field `k + 1` on magnitudes are whole quanta of `2^k` units; the earlier ones lie below the grid's
first normal magnitude. -/
theorem magAt_grid (k j : Nat) : 2 ^ k ∣ magAt j ∨ (0 < k ∧ magAt j < 2 ^ (k + 23)) := by
  have hf := Nat.mod_lt j (show 0 < 2 ^ 23 by norm_num)
  rcases Nat.eq_zero_or_pos k with rfl | hk
  · exact .inl (one_dvd _)
  unfold magAt
  split
  · refine .inr ⟨hk, hf.trans_le (Nat.pow_le_pow_right (by norm_num) (by omega))⟩
  · rcases Nat.lt_or_ge k (j / 2 ^ 23) with hlt | hge
    · exact .inl ((Nat.pow_dvd_pow 2 (by omega)).mul_left _)
    · refine .inr ⟨hk, ?_⟩
      calc (2 ^ 23 + j % 2 ^ 23) * 2 ^ (j / 2 ^ 23 - 1) < 2 ^ 24 * 2 ^ (j / 2 ^ 23 - 1) :=
            Nat.mul_lt_mul_of_pos_right (by omega) (Nat.two_pow_pos _)
        _ = 2 ^ (24 + (j / 2 ^ 23 - 1)) := (Nat.pow_add 2 _ _).symm
        _ ≤ 2 ^ (k + 23) := Nat.pow_le_pow_right (by norm_num) (by omega)

/-- The word for `m` quanta of `2^k` units has place `k·2^23 + m`; at `m = 2^24` the place carries into the exponent. -/
theorem magAt_quanta {k m : Nat} (hm : m ≤ 2 ^ 24) (h : k = 0 ∨ 2 ^ 23 ≤ m) : magAt (k * 2 ^ 23 + m) = m * 2 ^ k := by
  rcases Nat.lt_or_ge m (2 ^ 23) with hlt | hge
  · obtain rfl : k = 0 := by omega
    have hd : (0 * 2 ^ 23 + m) / 2 ^ 23 = 0 := by omega
    have hr : (0 * 2 ^ 23 + m) % 2 ^ 23 = m := by omega
    rw [magAt, hd, hr, if_pos rfl, Nat.pow_zero, Nat.mul_one]
  · rcases Nat.lt_or_ge m (2 ^ 24) with hlt | hge'
    · have hd : (k * 2 ^ 23 + m) / 2 ^ 23 = k + 1 := by omega
      have hr : (k * 2 ^ 23 + m) % 2 ^ 23 = m - 2 ^ 23 := by omega
      rw [magAt, hd, hr, if_neg (Nat.succ_ne_zero k), Nat.add_sub_cancel, Nat.add_sub_of_le hge]
    · obtain rfl : m = 2 ^ 24 := by omega
      have hd : (k * 2 ^ 23 + 2 ^ 24) / 2 ^ 23 = k + 2 := by omega
      have hr : (k * 2 ^ 23 + 2 ^ 24) % 2 ^ 23 = 0 := by omega
      rw [magAt, hd, hr, if_neg (by omega), Nat.add_zero, show k + 2 - 1 = k + 1 by omega]
      ring

/-! ### The place `rne32` finds -/

/-- The exponent of the quantum `rne32Mag` rounds to, in units of 2^-149. -/
def quantumExp (num den : Nat) : Nat := (num * 2 ^ 149 / den).log2 - 23

/-- How many quanta `rne32Mag` rounds to. -/
def quanta (num den : Nat) : Nat := rneDiv (num * 2 ^ 149) (den * 2 ^ quantumExp num den)

/-- The place of the magnitude `rne32Mag` rounds to, if it does not overflow. -/
def rnePlace (num den : Nat) : Nat := quantumExp num den * 2 ^ 23 + quanta num den

theorem rne32_eq_wordAt (neg : Bool) (num den : Nat) :
    rne32 neg num den = wordAt neg (min (rnePlace num den) 0x7F800000) := rfl

section
variable {num den : Nat} (hden : 0 < den)
include hden

/-- The quantum is the grid's: the rational lies below 2^24 quanta and, but for subnormals, from 2^23 quanta on. -/
theorem quantum_bounds :
    num * 2 ^ 149 < 2 ^ 24 * (den * 2 ^ quantumExp num den) ∧
      (quantumExp num den = 0 ∨ 2 ^ 23 * (den * 2 ^ quantumExp num den) ≤ num * 2 ^ 149) := by
  have hlt : num * 2 ^ 149 / den < 2 ^ ((num * 2 ^ 149 / den).log2 + 1) := Nat.lt_log2_self
  constructor
  · calc num * 2 ^ 149 < 2 ^ ((num * 2 ^ 149 / den).log2 + 1) * den := (Nat.div_lt_iff_lt_mul hden).1 hlt
      _ ≤ 2 ^ (24 + quantumExp num den) * den :=
        Nat.mul_le_mul_right _ (Nat.pow_le_pow_right (by norm_num) (by unfold quantumExp; omega))
      _ = 2 ^ 24 * (den * 2 ^ quantumExp num den) := by ring
  · rcases Nat.eq_zero_or_pos (quantumExp num den) with h0 | hpos
    · exact .inl h0
    · right
      have hlog : (num * 2 ^ 149 / den).log2 = 23 + quantumExp num den := by unfold quantumExp at hpos ⊢; omega
      have hne : num * 2 ^ 149 / den ≠ 0 := by
        intro h
        rw [h, Nat.log2_zero] at hlog
        omega
      calc 2 ^ 23 * (den * 2 ^ quantumExp num den) = 2 ^ (num * 2 ^ 149 / den).log2 * den := by rw [hlog]; ring
        _ ≤ num * 2 ^ 149 / den * den := Nat.mul_le_mul_right _ (Nat.log2_self_le hne)
        _ ≤ num * 2 ^ 149 := Nat.div_mul_le_self _ _

/-- The magnitude at the place found is the rounded number of quanta. -/
theorem magAt_rnePlace : magAt (rnePlace num den) = quanta num den * 2 ^ quantumExp num den := by
  obtain ⟨hlt, hge⟩ := quantum_bounds (num := num) hden
  have hd : 0 < den * 2 ^ quantumExp num den := Nat.mul_pos hden (Nat.two_pow_pos _)
  refine magAt_quanta ?_ (hge.imp_right fun hge => ?_)
  · exact (rneDiv_mono hlt.le).trans_eq (rneDiv_mul _ hd)
  · exact (rneDiv_mul _ hd).symm.trans_le (rneDiv_mono hge)

/-- The quanta are within half a quantum of the rational, and even at just half a quantum. -/
theorem quanta_near :
    |(quanta num den : ℝ) * 2 ^ quantumExp num den - num / den * 2 ^ 149| ≤ 2 ^ quantumExp num den / 2 ∧
      (|(quanta num den : ℝ) * 2 ^ quantumExp num den - num / den * 2 ^ 149| = 2 ^ quantumExp num den / 2 →
        quanta num den % 2 = 0) := by
  have hq : (0 : ℝ) < 2 ^ quantumExp num den := by positivity
  have hscale : (quanta num den : ℝ) * 2 ^ quantumExp num den - num / den * 2 ^ 149 =
      (quanta num den - ((num * 2 ^ 149 : ℕ) : ℝ) / ((den * 2 ^ quantumExp num den : ℕ) : ℝ)) *
        2 ^ quantumExp num den := by
    simp only [Nat.cast_mul, Nat.cast_pow, Nat.cast_ofNat]
    field_simp
  obtain ⟨hle, htie⟩ := rneDiv_near_real (num * 2 ^ 149) (Nat.mul_pos hden (Nat.two_pow_pos (quantumExp num den)))
  rw [hscale, abs_mul, abs_of_pos hq]
  refine ⟨?_, fun h => htie (mul_right_cancel₀ hq.ne' ?_)⟩
  · have := mul_le_mul_of_nonneg_right hle hq.le
    unfold quanta
    linarith
  · unfold quanta at h
    linarith

/-- No other number of quanta is nearer to the rational, and on a tie the number found is even. -/
theorem quanta_nearest (n : Nat) :
    |(quanta num den : ℝ) * 2 ^ quantumExp num den - num / den * 2 ^ 149| ≤
        |(n : ℝ) * 2 ^ quantumExp num den - num / den * 2 ^ 149| ∧
      (n ≠ quanta num den →
        |(n : ℝ) * 2 ^ quantumExp num den - num / den * 2 ^ 149| =
          |(quanta num den : ℝ) * 2 ^ quantumExp num den - num / den * 2 ^ 149| →
        quanta num den % 2 = 0) := by
  rcases eq_or_ne n (quanta num den) with rfl | hne
  · exact ⟨le_rfl, fun h => absurd rfl h⟩
  · obtain ⟨hle, htie⟩ := quanta_near (num := num) hden
    have hfar := half_le_of_ne (by positivity) hne hle
    exact ⟨hle.trans hfar, fun _ he => htie (le_antisymm hle (he ▸ hfar))⟩

/-- No place is nearer to the rational than the one found, which is even on a tie. -/
theorem rnePlace_nearest (j : Nat) :
    |(magAt (rnePlace num den) : ℝ) - num / den * 2 ^ 149| ≤ |(magAt j : ℝ) - num / den * 2 ^ 149| ∧
      (magAt j ≠ magAt (rnePlace num den) →
        |(magAt j : ℝ) - num / den * 2 ^ 149| = |(magAt (rnePlace num den) : ℝ) - num / den * 2 ^ 149| →
        rnePlace num den % 2 = 0) := by
  rw [magAt_rnePlace hden]
  push_cast
  rcases magAt_grid (quantumExp num den) j with ⟨n, hn⟩ | ⟨hk, hlt⟩
  · -- a place on the grid
    obtain ⟨hle, htie⟩ := quanta_nearest (num := num) hden n
    rw [hn, Nat.mul_comm]
    push_cast
    refine ⟨hle, fun hne he => ?_⟩
    have := htie (fun h => hne (by rw [h])) he
    unfold rnePlace
    omega
  · -- a place below the grid is farther than the grid's first normal magnitude, which is not above the rational
    have hfirst := (quanta_nearest (num := num) hden (2 ^ 23)).1
    have hge := ((quantum_bounds (num := num) hden).2).resolve_left hk.ne'
    have hx : (2 : ℝ) ^ 23 * 2 ^ quantumExp num den ≤ num / den * 2 ^ 149 := by
      rw [div_mul_eq_mul_div, le_div_iff₀ (by positivity)]
      have : (2 : ℝ) ^ 23 * (den * 2 ^ quantumExp num den) ≤ num * 2 ^ 149 := by exact_mod_cast hge
      linarith
    have hj : (magAt j : ℝ) < 2 ^ 23 * 2 ^ quantumExp num den := by
      rw [← pow_add, Nat.add_comm]
      exact_mod_cast hlt
    rw [Nat.cast_pow, Nat.cast_ofNat] at hfirst
    rw [abs_of_nonpos (by linarith : (2 : ℝ) ^ 23 * 2 ^ quantumExp num den - num / den * 2 ^ 149 ≤ 0)] at hfirst
    rw [abs_of_neg (by linarith : (magAt j : ℝ) - num / den * 2 ^ 149 < 0)]
    exact ⟨by linarith, fun _ he => by linarith⟩

/-- Below the overflow threshold the place found is a finite word's. -/
theorem rnePlace_lt (h : (num : ℝ) / den < 2 ^ 128 - 2 ^ 103) : rnePlace num den < 0x7F800000 := by
  by_contra hge
  have hmono : (magAt 0x7F800000 : ℝ) ≤ magAt (rnePlace num den) := by
    exact_mod_cast magAt_strictMono.monotone (not_lt.1 hge)
  have hsucc : (magAt 0x7F7FFFFF : ℝ) < magAt 0x7F800000 := by exact_mod_cast magAt_lt_succ 0x7F7FFFFF
  have hover := magAt_overflow
  have hx : (num : ℝ) / den * 2 ^ 149 < (2 ^ 128 - 2 ^ 103) * 2 ^ 149 := mul_lt_mul_of_pos_right h (by positivity)
  have hnear := (rnePlace_nearest (num := num) hden 0x7F7FFFFF).1
  rw [abs_of_pos (by linarith)] at hnear
  rcases abs_cases ((magAt 0x7F7FFFFF : ℝ) - num / den * 2 ^ 149) with ⟨he, -⟩ | ⟨he, -⟩ <;> linarith

end

/-! ### rne32 -/

/-- The magnitude of a signed rational. -/
theorem abs_sign_mul (neg : Bool) (n d : Nat) :
    |(if neg then -1 else 1) * ((n : ℝ) / d)| = n / d := by
  have h : (0 : ℝ) ≤ n / d := by positivity
  cases neg <;> simp [abs_of_nonneg h]

/-- A magnitude that overflows gives infinity, so the sign bit is always the sign given. -/
theorem rne32_neg (neg : Bool) (num den : Nat) : f32Neg (rne32 neg num den) = neg := by
  rw [rne32_eq_wordAt]
  exact wordAt_neg neg (by omega)

/-- Settles O34: the place found is the nearest one (`rnePlace_nearest`) and finite (`rnePlace_lt`). -/
theorem rne32IsNearestEven : Obligations.Rne32IsNearestEven := by
  intro neg num den hden hlt
  have hfin := rnePlace_lt hden hlt
  have hplace : placeOf (rne32 neg num den) = rnePlace num den := by
    rw [rne32_eq_wordAt, min_eq_left hfin.le, wordAt_place neg (by omega)]
  have hx : (0 : ℝ) ≤ num / den := by positivity
  refine isRne32_of_place ?_ (hplace ▸ hfin) ?_ ?_ ?_
  · rw [rne32_neg]
    cases neg <;> simp [hx]
  · rw [hplace, abs_sign_mul]
    exact fun j => (rnePlace_nearest hden j).1
  · rw [hplace, abs_sign_mul]
    exact fun j => (rnePlace_nearest hden j).2
  · rw [rne32_neg]
    cases neg with
    | false => exact ⟨fun _ => rfl, fun h => absurd h (by simpa using hx)⟩
    | true => exact ⟨fun h => absurd h (by simpa using hx), fun _ => rfl⟩

/-! ### The default product -/

/-- A finite word is no NaN and no infinity. -/
theorem not_nan_inf_of_finite {w : Word} (h : Sys2Proof.Reference.Finite w) :
    f32IsNaN w = false ∧ f32IsInf w = false := by
  have h : f32Exp w ≠ 255 := h
  simp [f32IsNaN, f32IsInf, h]

/-- The product of two finite words is RNE32 of the product of their signs and magnitudes. -/
theorem fmulRne_of_finite {a b : Word} (ha : Sys2Proof.Reference.Finite a) (hb : Sys2Proof.Reference.Finite b) :
    fmulRne a b = rne32 (f32Neg a ^^ f32Neg b) (f32Mag a * f32Mag b) (2 ^ 149 * 2 ^ 149) := by
  obtain ⟨hnanA, hinfA⟩ := not_nan_inf_of_finite ha
  obtain ⟨hnanB, hinfB⟩ := not_nan_inf_of_finite hb
  simp only [fmulRne, hnanA, hinfA, hnanB, hinfB, Bool.false_and, Bool.or_false, Bool.false_eq_true, if_false,
    ← pow_add, Nat.reduceAdd]

/-- The exact product of two words, by the exclusive or of their signs. -/
theorem val_mul_val (a b : Word) :
    val a * val b =
      (if f32Neg a ^^ f32Neg b then -1 else 1) * (((f32Mag a * f32Mag b : ℕ) : ℝ) / (2 ^ 149 * 2 ^ 149)) := by
  rw [val_eq, val_eq, Nat.cast_mul, mul_mul_mul_comm, div_mul_div_comm]
  cases f32Neg a <;> cases f32Neg b <;> norm_num

/-- Settles O35: the product of finite words is RNE32 of the exact product, as O34 states RNE32. -/
theorem productIsRoundedExactly : Obligations.ProductIsRoundedExactly := by
  intro a b ha hb hlt
  have hden : ((2 ^ 149 * 2 ^ 149 : ℕ) : ℝ) = 2 ^ 149 * 2 ^ 149 := by
    rw [Nat.cast_mul, Nat.cast_pow, Nat.cast_ofNat]
  rw [fmulRne_of_finite ha hb]
  refine ⟨?_, rne32_neg _ _ _⟩
  rw [val_mul_val, ← hden] at hlt ⊢
  rw [abs_sign_mul] at hlt
  exact rne32IsNearestEven _ _ _ (Nat.mul_pos (Nat.two_pow_pos _) (Nat.two_pow_pos _)) hlt

end Sys2Proof.Machine
end

section
/-! What a command that completes can do, said once (60_exceptions.md R220: an error is a next state): the parts of the
state each leaves alone, and TIME (10_state.md R34, R48). -/

namespace Sys2Proof.Machine

/-! ### The outcomes of every command -/

/-- The state a completed CONV.REQUEST leaves: `r` is what its loop left of the unit of `s`, and its second draw read
`t2` and left `s2` (42_converter.md R188, R189). -/
def afterDrain (s s2 : State) (t2 : BitVec 64) (r : DrainResult) : State :=
  emitRsp [BitVec.ofNat 32 r.bytes.length] (emitTags r.tags (emitBytes r.bytes
    (s2.setConv { r.conv with wcount := s.conv.wcount + BitVec.ofNat 64 r.bytes.length, lastT := t2 })))

/-- What the loop of a CONV.REQUEST of capacity `n` makes of the unit, at time `t1` (42_converter.md R176). -/
def drainAt (s : State) (t1 : BitVec 64) (n : BitVec 24) : DrainResult :=
  drain s.conv.wcount (budget s.params s.conv t1 n) (budget s.params s.conv t1 n) 0 s.conv

/-- What the loop of a MOD.REQUEST of capacity `n` makes of the unit (41_modulator.md R145). -/
def fillFor (s : State) (n : BitVec 24) : FillResult := fillSamples s.params s.tap n.toNat s.mod

/-- `Completes s i t`: one of the ways command `i` can complete in state `s`, leaving `t`, with the guards of each way but
the choice of an error's code. -/
inductive Completes (s : State) : Instr → State → Prop where
  | raised (e : ErrorCode) (i : Instr) : Completes s i (raiseIn e i s)
  | nop (ignored : BitVec 24) : Completes s (.nop ignored) s
  | reset : Completes s (.reset 0#24) (softReset s)
  | timeRead {v : BitVec 64} {s1 : State} (hd : drawTime s = some (v, s1)) :
      Completes s (.csrRead 0#16 csrTimeLo) (emitRsp [loWord v] (s1.setSnap (hiWord v)))
  | csrRead {idx : BitVec 8} {v : Word} (hi : idx ≠ csrTimeLo) (hv : csrValue s idx = some v) :
      Completes s (.csrRead 0#16 idx) (emitRsp [v] s)
  | errClear : Completes s (.errClear 0#24) (clearErrors s)
  | modRejected (e : ErrorCode) (dbg : Bool) (sps : BitVec 16) (alpha : Word) :
      Completes s (.modConfig dbg 0#7 sps alpha) (raiseIn e (.modConfig dbg 0#7 sps alpha) (modClear s))
  | modConfigured (dbg : Bool) {sps : BitVec 16} {alpha : Word} {taps : List Word} (h0 : sps ≠ 0#16)
      (hs : sps.toNat ≤ s.params.spsMax) (ha : alphaLegal alpha = true)
      (ht : tapSet s.params.tapRound sps.toNat alpha = some taps) :
      Completes s (.modConfig dbg 0#7 sps alpha)
        ((s.setTap (tapWriteFrom s.tap 0 taps)).setMod (constructedMod dbg sps alpha))
  | fed (byte : Byte) (hc : s.mod.cfg = true) (hf : s.mod.inFifo.length ≠ s.params.inDepth) :
      Completes s (.modFeed 0#16 byte) (s.setMod { s.mod with inFifo := s.mod.inFifo ++ [byte] })
  | modRequested (n : BitVec 24) (hc : s.mod.cfg = true) :
      Completes s (.modRequest n)
        (emitRsp [BitVec.ofNat 32 (fillFor s n).samples.length, BitVec.ofNat 32 (fillFor s n).consumed]
          (emitSamples (fillFor s n).samples (s.setMod (fillFor s n).mod)))
  | tapRead {i : BitVec 16} (hc : s.mod.cfg = true) (hi : i.toNat < s.mod.nTaps.toNat) :
      Completes s (.tapRead 0#8 i) (emitRsp [tapRead s.tap i.toNat] s)
  | convRejected (e : ErrorCode) (dbg : Bool) (len : BitVec 8) (lo hi : Word) (name : List Word) :
      Completes s (.convConfig dbg 0#15 len lo hi name)
        (raiseIn e (.convConfig dbg 0#15 len lo hi name) (convClear s))
  | convConfigured (dbg : Bool) {len : BitVec 8} {lo hi : Word} (name : List Word) {t : BitVec 64} {s1 : State}
      (hr : rateOf lo hi ≠ 0#64) (hl : len.toNat ≤ s.params.tagNameMax) (hd : drawTime s = some (t, s1)) :
      Completes s (.convConfig dbg 0#15 len lo hi name)
        (s1.setConv (constructedConv dbg (rateOf lo hi) len (unpackBytes len.toNat name) t))
  | delivered (kind : BitVec 4) (len : BitVec 20) (payload : List Word) (hc : s.conv.cfg = true) :
      Completes s (.msgDeliver kind len payload)
        (s.setConv (deliverTo s.params kind len.toNat (unpackBytes len.toNat payload) s.conv))
  | convRequested (n : BitVec 24) {t1 t2 : BitVec 64} {s1 s2 : State} (hc : s.conv.cfg = true)
      (hd1 : drawTime s = some (t1, s1)) (hd2 : drawTime s1 = some (t2, s2)) :
      Completes s (.convRequest n) (afterDrain s s2 t2 (drainAt s t1 n))

theorem completes_of_execReset {reserved : BitVec 24} {s t : State} (h : execReset reserved s = .next t) :
    Completes s (.reset reserved) t := by
  unfold execReset at h
  split_ifs at h with hr <;> cases h
  · exact .raised _ _
  · obtain rfl := not_not.1 hr
    exact .reset

theorem completes_of_execCsrRead {reserved : BitVec 16} {idx : BitVec 8} {s t : State}
    (h : execCsrRead reserved idx s = .next t) : Completes s (.csrRead reserved idx) t := by
  unfold execCsrRead at h
  split_ifs at h with hr hi
  · cases h
    exact .raised _ _
  · obtain rfl := not_not.1 hr
    subst hi
    split at h <;> cases h
    exact .timeRead ‹_›
  · obtain rfl := not_not.1 hr
    split at h <;> cases h
    · exact .csrRead hi ‹_›
    · exact .raised _ _

theorem completes_of_execErrClear {reserved : BitVec 24} {s t : State} (h : execErrClear reserved s = .next t) :
    Completes s (.errClear reserved) t := by
  unfold execErrClear at h
  split_ifs at h with hr <;> cases h
  · exact .raised _ _
  · obtain rfl := not_not.1 hr
    exact .errClear

theorem completes_of_execModConfig {dbg : Bool} {reserved : BitVec 7} {sps : BitVec 16} {alpha : Word} {s t : State}
    (h : execModConfig dbg reserved sps alpha s = .next t) : Completes s (.modConfig dbg reserved sps alpha) t := by
  unfold execModConfig at h
  split_ifs at h with hr hs ha
  · cases h
    exact .raised _ _
  all_goals obtain rfl := not_not.1 hr
  · cases h
    exact .modRejected _ _ _ _
  · cases h
    exact .modRejected _ _ _ _
  · obtain ⟨h0, hs⟩ := not_or.1 hs
    split at h <;> cases h
    · exact .modRejected _ _ _ _
    · exact .modConfigured _ h0 (Nat.le_of_not_lt hs) (Bool.not_eq_false _ ▸ ha) ‹_›

theorem completes_of_execModFeed {reserved : BitVec 16} {byte : Byte} {s t : State}
    (h : execModFeed reserved byte s = .next t) : Completes s (.modFeed reserved byte) t := by
  unfold execModFeed at h
  split_ifs at h with hr hc hf <;> cases h
  · exact .raised _ _
  · exact .raised _ _
  · exact .raised _ _
  · obtain rfl := not_not.1 hr
    exact .fed _ (Bool.not_eq_false _ ▸ hc) hf

theorem completes_of_execModRequest {n : BitVec 24} {s t : State} (h : execModRequest n s = .next t) :
    Completes s (.modRequest n) t := by
  unfold execModRequest at h
  split_ifs at h with hc <;> cases h
  · exact .raised _ _
  · exact .modRequested _ (Bool.not_eq_false _ ▸ hc)

theorem completes_of_execTapRead {reserved : BitVec 8} {i : BitVec 16} {s t : State}
    (h : execTapRead reserved i s = .next t) : Completes s (.tapRead reserved i) t := by
  unfold execTapRead at h
  split_ifs at h with hr hc hi <;> cases h
  · exact .raised _ _
  · exact .raised _ _
  · exact .raised _ _
  · obtain rfl := not_not.1 hr
    exact .tapRead (Bool.not_eq_false _ ▸ hc) (Nat.lt_of_not_le hi)

theorem completes_of_execConvConfig {dbg : Bool} {reserved : BitVec 15} {len : BitVec 8} {lo hi : Word}
    {name : List Word} {s t : State} (h : execConvConfig dbg reserved len lo hi name s = .next t) :
    Completes s (.convConfig dbg reserved len lo hi name) t := by
  unfold execConvConfig at h
  split_ifs at h with hr hz hl
  · cases h
    exact .raised _ _
  all_goals obtain rfl := not_not.1 hr
  · cases h
    exact .convRejected _ _ _ _ _ _
  · cases h
    exact .convRejected _ _ _ _ _ _
  · split at h <;> cases h
    exact .convConfigured _ _ hz (Nat.le_of_not_lt hl) ‹_›

theorem completes_of_execMsgDeliver {kind : BitVec 4} {len : BitVec 20} {payload : List Word} {s t : State}
    (h : execMsgDeliver kind len payload s = .next t) : Completes s (.msgDeliver kind len payload) t := by
  unfold execMsgDeliver at h
  split_ifs at h with hc <;> cases h
  · exact .raised _ _
  · exact .delivered _ _ _ (Bool.not_eq_false _ ▸ hc)

theorem completes_of_execConvRequest {n : BitVec 24} {s t : State} (h : execConvRequest n s = .next t) :
    Completes s (.convRequest n) t := by
  unfold execConvRequest at h
  split_ifs at h with hc
  · cases h
    exact .raised _ _
  · split at h
    · cases h
    · rename_i hd1
      simp only at h
      split at h <;> cases h
      exact .convRequested _ (Bool.not_eq_false _ ▸ hc) hd1 ‹_›

/-- Every completed command did one of the things listed. -/
theorem completes_of_exec {i : Instr} {s t : State} (h : exec i s = .next t) : Completes s i t := by
  cases i with
  | nop ignored =>
    cases h
    exact .nop _
  | reset reserved => exact completes_of_execReset h
  | csrRead reserved idx => exact completes_of_execCsrRead h
  | errClear reserved => exact completes_of_execErrClear h
  | modConfig dbg reserved sps alpha => exact completes_of_execModConfig h
  | modFeed reserved byte => exact completes_of_execModFeed h
  | modRequest n => exact completes_of_execModRequest h
  | tapRead reserved i => exact completes_of_execTapRead h
  | convConfig dbg reserved len rateLo rateHi name => exact completes_of_execConvConfig h
  | msgDeliver kind len payload => exact completes_of_execMsgDeliver h
  | convRequest n => exact completes_of_execConvRequest h

/-! ### What a draw of TIME leaves alone -/

/-- A draw leaves everything but TIME and the model's own fields (10_state.md R48). -/
theorem drawTime_frame {s t : State} {v : BitVec 64} (h : drawTime s = some (v, t)) :
    t = { s with time := v, env := t.env } := by
  obtain ⟨-, rfl⟩ := drawTime_eq_some h
  rfl

/-- The value drawn is not before the earlier TIME (10_state.md R48). -/
theorem drawTime_le {s t : State} {v : BitVec 64} (h : drawTime s = some (v, t)) : s.time ≤ v := by
  obtain ⟨hv, -⟩ := drawTime_eq_some h
  rw [BitVec.le_def]
  omega

/-! ### The input ports -/

/-- No command writes a parameter or an input port (10_state.md R31). -/
theorem Completes.keeps_inputs {s t : State} {i : Instr} (h : Completes s i t) :
    t.params = s.params ∧ ∀ p, t.port p = s.port p := by
  suffices hs : t.params = s.params ∧ t.cmd = s.cmd ∧ t.msg = s.msg by
    obtain ⟨hp, hc, hm⟩ := hs
    exact ⟨hp, fun p => by cases p <;> assumption⟩
  cases h with
  | timeRead hd | convConfigured _ _ _ _ hd =>
    rw [drawTime_frame hd]
    exact ⟨rfl, rfl, rfl⟩
  | convRequested n hc hd1 hd2 =>
    rw [drawTime_frame hd2, drawTime_frame hd1]
    exact ⟨rfl, rfl, rfl⟩
  | _ => exact ⟨rfl, rfl, rfl⟩

/-- Taking a command from a port leaves the other port alone. -/
theorem consume_port (p r : Port) (rest : List Word) (s : State) :
    (consume p rest s).port r =
      if r = p then
        { words := rest, pos := (s.port p).pos + commandLength p ((s.port p).words.headD 0x00000000#32) }
      else s.port r := by
  split
  · subst r
    exact State.setPort_port_self _ _ _
  · exact State.setPort_port_other _ _ _ _ ‹_›

/-- The words taken from a port and its new position, once the length of the command at its front is known; the
arbitration (`choosePort`) moves no port. -/
theorem consume_advances {p : Port} {s s1 : State} {hdr : Word} {ws rest : List Word}
    (hc : choosePort s = some (p, s1)) (hw : (s.port p).words = hdr :: ws)
    (hr : rest = (hdr :: ws).drop (commandLength p hdr)) :
    (consume p rest s1).port p =
        { words := (hdr :: ws).drop (commandLength p hdr), pos := (s.port p).pos + commandLength p hdr } ∧
      ∀ r, r ≠ p → (consume p rest s1).port r = s.port r := by
  have hport : ∀ r, s1.port r = s.port r := fun r => by
    rw [(choosePort_eq_some hc).2, State.setEnv_port]
  refine ⟨?_, fun r hne => ?_⟩
  · rw [consume_port, if_pos rfl, hport, hw, hr]
    rfl
  · rw [consume_port, if_neg hne, hport]

/-- Settles O11: `consume` moves the one port by the length of the command decoded at its front, and the command itself
moves no port. -/
theorem positionsAdvanceByCommandLength : Obligations.PositionsAdvanceByCommandLength := by
  intro s t h
  obtain ⟨-, ⟨i, s2, hf, he⟩ | hf⟩ := step_eq_next h
  · obtain ⟨p, s1, rest, hc, hd, rfl⟩ := fetch_eq_command hf
    obtain ⟨hdr, ws, hw, hr, -⟩ := decode_command_length hd
    obtain ⟨-, hports⟩ := (completes_of_exec he).keeps_inputs
    simp only [hports]
    exact ⟨p, hdr, ws, hw, consume_advances hc hw (hw ▸ hr)⟩
  · obtain ⟨p, s1, hdr, rest, hc, hd, rfl⟩ := fetch_eq_illegal hf
    obtain ⟨hw, ho⟩ := decode_eq_illegal.1 hd
    have hlen : commandLength p hdr = 1 := by simp [commandLength, ho]
    have hport : ∀ r, (raiseError .illegalOpcode hdr 0 (consume p rest s1)).port r = (consume p rest s1).port r :=
      fun r => by cases r <;> rfl
    simp only [hport]
    exact ⟨p, hdr, rest, hw, consume_advances hc hw (by rw [hlen]; rfl)⟩

/-! ### TIME -/

/-- Settles O52: TIME moves only by the draws of its three readers, and a draw does not go back. -/
theorem timeNeverRunsBackwards : Obligations.TimeNeverRunsBackwards := by
  intro i s t h
  cases completes_of_exec h with
  | timeRead hd =>
    have ht := drawTime_le hd
    rw [drawTime_frame hd]
    exact ⟨ht, fun hne => absurd rfl hne⟩
  | convConfigured _ _ _ _ hd =>
    have ht := drawTime_le hd
    rw [drawTime_frame hd]
    exact ⟨ht, fun _ hne => absurd rfl hne⟩
  | convRequested n hc hd1 hd2 =>
    have ht1 := drawTime_le hd1
    have ht2 := drawTime_le hd2
    rw [drawTime_frame hd1] at ht2
    rw [drawTime_frame hd2]
    exact ⟨BitVec.le_trans ht1 ht2, fun _ _ hne => absurd rfl hne⟩
  | _ => exact ⟨BitVec.le_refl _, fun _ _ _ => rfl⟩

end Sys2Proof.Machine
end

section
/-! 10_state.md R48, R52-R57: the CSR views, the reads of TIME and hardware reset. -/

namespace Sys2Proof.Machine

open Sys2Proof.Reference

/-! ### Reset values (10_state.md R57) -/

/-- Settles O14: hardware reset is `State.reset` under the parameters it had. -/
theorem hardwareResetValues : Obligations.HardwareResetValues :=
  fun _ => ⟨rfl, rfl, rfl, rfl, rfl, rfl, rfl, rfl, rfl, rfl⟩

/-! ### CSR.READ of an index that draws no TIME (10_state.md R52; 43_control.md R204) -/

/-- A defined index is answered. -/
theorem exec_csrRead_of_some {s : State} {idx : BitVec 8} {v : Word} (hi : idx ≠ csrTimeLo)
    (hv : csrValue s idx = some v) : exec (.csrRead 0#16 idx) s = .next (emitRsp [v] s) := by
  simp [exec, execCsrRead, hi, hv]

/-- An undefined index raises BAD_CSR. -/
theorem exec_csrRead_of_none {s : State} {idx : BitVec 8} (hi : idx ≠ csrTimeLo) (hv : csrValue s idx = none) :
    exec (.csrRead 0#16 idx) s = .next (raiseIn .badCsr (.csrRead 0#16 idx) s) := by
  simp [exec, execCsrRead, hi, hv]

/-- PARAM_FLAGS shows P_PACE_ROUND. -/
theorem paramFlags_eq (p : Params) : paramFlags p = if p.paceRound = .floor then 1#32 else 0#32 := by
  unfold paramFlags
  cases p.paceRound <;> rfl

/-- Settles O16: each of these indices is defined, and its value is the word of the table. -/
theorem csrReadAnswersItsIndex : Obligations.CsrReadAnswersItsIndex := by
  intro s
  dsimp only
  rw [← paramFlags_eq]
  and_intros
  all_goals exact exec_csrRead_of_some (by decide) rfl

/-- The indices between the defined ones. -/
theorem csrValue_eq_none {s : State} {idx : BitVec 8}
    (h : (0x05 ≤ idx.toNat ∧ idx.toNat ≤ 0x07) ∨ idx.toNat = 0x0F ∨ (0x1D ≤ idx.toNat ∧ idx.toNat ≤ 0x1F) ∨
      (0x25 ≤ idx.toNat ∧ idx.toNat ≤ 0x27) ∨ 0x30 ≤ idx.toNat) : csrValue s idx = none := by
  unfold csrValue
  split
  case h_38 => rfl
  all_goals omega

/-- Raising an error is what 60_exceptions.md R223 says of it. -/
theorem raiseError_eq_raised (e : ErrorCode) (hdr : Word) (n : Nat) (s : State) :
    raiseError e hdr n s = raised e.code hdr n s := by
  unfold raiseError raised
  cases h : s.err.err with
  | false =>
    rw [recordError_first e hdr h]
    rfl
  | true =>
    rw [recordError_later e hdr h]
    simp [emitRsp, State.setErr, State.setOut, h]

/-- The header of a CSR.READ with its reserved bits clear. -/
theorem csrRead_header (idx : BitVec 8) : (Instr.csrRead 0#16 idx).header = 0x020000#24 ++ idx :=
  (BitVec.append_assoc (x₁ := 0x02#8) (x₂ := 0#16) (x₃ := idx)).symm.trans rfl

/-- Settles O17: the index is none of the table's (`csrValue_eq_none`), nor that of TIME_LO. -/
theorem undefinedCsrRaisesBadCsr : Obligations.UndefinedCsrRaisesBadCsr := by
  intro idx s h
  have hi : idx ≠ csrTimeLo := by
    rintro rfl
    revert h
    decide
  have hv : csrValue s idx = none := by
    refine csrValue_eq_none ?_
    simpa [BitVec.le_def, ← BitVec.toNat_inj] using h
  rw [exec_csrRead_of_none hi hv, raiseIn, raiseError_eq_raised, csrRead_header]
  rfl

/-! ### The assembled views (10_state.md R53, R54) -/

/-- Bit 0 of a word with a flag joined below it is the flag. -/
theorem getLsbD_append_flag_zero {n : Nat} (x : BitVec n) (b : Bool) : (x ++ BitVec.ofBool b).getLsbD 0 = b := by
  rw [BitVec.append_ofBool, BitVec.getLsbD_concat_zero]

/-- The bits above a field joined below a word are the word's. -/
theorem getLsbD_append_add {n m : Nat} (x : BitVec n) (y : BitVec m) (i : Nat) :
    (x ++ y).getLsbD (i + m) = x.getLsbD i := by
  simp [BitVec.getLsbD_append]

/-- From bit 0 up, `x` holds the flags `l`, and 0 above them. -/
def HoldsFlags {n : Nat} (x : BitVec n) (l : List Bool) : Prop := ∀ i, x.getLsbD i = l.getD i false

theorem HoldsFlags.zero (n : Nat) : HoldsFlags (0#n) [] := fun i => by simp

theorem HoldsFlags.append {n : Nat} {x : BitVec n} {l : List Bool} (h : HoldsFlags x l) (b : Bool) :
    HoldsFlags (x ++ BitVec.ofBool b) (b :: l)
  | 0 => getLsbD_append_flag_zero x b
  | i + 1 => (getLsbD_append_add x (BitVec.ofBool b) i).trans (h i)

/-- The flags of STATUS, bit 0 first. -/
theorem statusWord_holdsFlags (s : State) :
    HoldsFlags (statusWord s)
      [s.mod.cfg, s.conv.cfg, s.err.err, s.mod.act, s.conv.curValid, s.mod.dbg, s.conv.dbg, inFull s, queueFull s] :=
  (HoldsFlags.zero 23).append (queueFull s) |>.append (inFull s) |>.append s.conv.dbg |>.append s.mod.dbg
    |>.append s.conv.curValid |>.append s.mod.act |>.append s.err.err |>.append s.conv.cfg |>.append s.mod.cfg

/-- Settles O18: each bit is read off the flags that STATUS holds. -/
theorem statusBitsAreViews : Obligations.StatusBitsAreViews := by
  intro s
  have hbit := statusWord_holdsFlags s
  have hin : inFull s = true ↔ s.mod.inFifo.length = s.params.inDepth := beq_iff_eq
  have hq : queueFull s = true ↔ s.conv.queue.length = s.params.qDepth := beq_iff_eq
  refine ⟨hbit 0, hbit 1, hbit 2, hbit 3, hbit 4, hbit 5, hbit 6, hbit 7 ▸ hin, hbit 8 ▸ hq, ?_⟩
  apply BitVec.eq_of_getLsbD_eq
  intro i hi
  rw [BitVec.getLsbD_extractLsb', hbit (9 + i), Nat.add_comm]
  simp

/-- The fields of M_CURSOR above M_BITS. -/
theorem cursorWord_getLsbD_add (m : ModState) (i : Nat) :
    (cursorWord m).getLsbD (i + 12) =
      (m.k ++ 0#1 ++ BitVec.ofBool m.qneg ++ BitVec.ofBool m.ineg ++ BitVec.ofBool m.act).getLsbD i :=
  (getLsbD_append_add (m := 8) _ m.byte (i + 4)).trans (getLsbD_append_add _ m.bits i)

/-- Settles O19: M_CURSOR joins its views field by field. -/
theorem cursorFieldsAreViews : Obligations.CursorFieldsAreViews := by
  intro m
  have hbit := cursorWord_getLsbD_add m
  refine ⟨extract_low _ _, ?_, ?_, ?_, ?_, ?_, ?_⟩
  · exact (extract_of_high (n := 24) (m := 8) _ _ (by omega)).trans (extract_low (n := 20) _ _)
  · rw [hbit 0, getLsbD_append_flag_zero]
  · rw [hbit 1, getLsbD_append_add _ _ 0, getLsbD_append_flag_zero]
  · rw [hbit 2, getLsbD_append_add _ _ 1, getLsbD_append_add _ _ 0, getLsbD_append_flag_zero]
  · rw [hbit 3, getLsbD_append_add _ _ 2, getLsbD_append_add _ _ 1, getLsbD_append_add _ _ 0]
    exact getLsbD_append_flag_zero m.k false
  · apply BitVec.eq_of_getLsbD_eq
    intro i hi
    rw [BitVec.getLsbD_extractLsb', decide_eq_true hi, Bool.true_and, show 16 + i = i + 4 + 12 by omega, hbit,
      getLsbD_append_add _ _ (i + 3), getLsbD_append_add _ _ (i + 2), getLsbD_append_add _ _ (i + 1),
      getLsbD_append_add _ _ i]

/-! ### The reads of TIME (10_state.md R48, R56) -/

/-- A read of TIME_LO is one draw, its low half answered and its high half latched. -/
theorem exec_csrRead_timeLo {s s1 : State} {v : BitVec 64} (h : drawTime s = some (v, s1)) :
    exec (.csrRead 0#16 csrTimeLo) s = .next (emitRsp [loWord v] (s1.setSnap (hiWord v))) := by
  simp [exec, execCsrRead, h]

/-- A read of TIME_LO is refused where TIME would wrap. -/
theorem exec_csrRead_timeLo_of_none {s : State} (h : drawTime s = none) :
    exec (.csrRead 0#16 csrTimeLo) s = .refused .timeWouldWrap := by
  simp [exec, execCsrRead, h]

/-- Settles O20: without a wrap the draw answers (`drawTime_of_lt`). -/
theorem timeLowReadDrawsAndLatches : Obligations.TimeLowReadDrawsAndLatches :=
  fun _ h => exec_csrRead_timeLo (drawTime_of_lt h)

/-- A 64-bit value is its two halves. -/
theorem hiWord_append_loWord (v : BitVec 64) : hiWord v ++ loWord v = v :=
  (BitVec.extractLsb'_append_extractLsb'_eq_extractLsb' (start₁ := 0) (len₁ := 32) (len₂ := 32) rfl).trans
    BitVec.extractLsb'_eq_self

/-- Settles O21: the first read latches the high half of what it drew, and the second answers the latch. -/
theorem timeReadPairIsOneInstant : Obligations.TimeReadPairIsOneInstant := by
  intro s t u h1 h2
  cases hd : drawTime s with
  | none => exact absurd ((exec_csrRead_timeLo_of_none hd).symm.trans h1) nofun
  | some r =>
    obtain ⟨v, s1⟩ := r
    cases (exec_csrRead_timeLo hd).symm.trans h1
    cases (exec_csrRead_of_some (by decide) rfl).symm.trans h2
    have hle := drawTime_le hd
    rw [drawTime_frame hd]
    exact ⟨loWord v, hiWord v, List.append_assoc _ _ _, hiWord_append_loWord v, hle, rfl⟩

/-- RATE is 0 only where both its words are (30_encoding.md R97). -/
theorem rateOf_eq_zero {lo hi : Word} (h : rateOf lo hi = 0#64) : lo = 0#32 ∧ hi = 0#32 :=
  ⟨(extract_low hi lo).symm.trans (congrArg (·.extractLsb' 0 32) h),
    (extract_high hi lo).symm.trans (congrArg (·.extractLsb' 32 32) h)⟩

/-- Settles O53: the first draw of each reader answers nothing (`drawTime_eq_none`). -/
theorem timeWrapIsRefused : Obligations.TimeWrapIsRefused := by
  intro s h
  have hd := drawTime_eq_none.2 h
  refine ⟨exec_csrRead_timeLo_of_none hd, fun d len lo hi name hr hl => ?_, fun n hc => ?_⟩
  · have hr : rateOf lo hi ≠ 0#64 := fun h0 => hr (rateOf_eq_zero h0)
    simp [exec, execConvConfig, hr, Nat.not_lt.2 hl, hd]
  · simp [exec, execConvRequest, hc, hd]

end Sys2Proof.Machine
end

section
/-! 10_state.md R35, R37-R41; 41_modulator.md R145-R153: the loop of MOD.REQUEST keeps the modulator legal and counts its
samples. -/

namespace Sys2Proof.Machine

/-- A modulator that is configured and legal, whatever symbol is in progress. -/
structure ModState.Ready (p : Params) (m : ModState) : Prop where
  cfg : m.cfg = true
  config : 1 ≤ m.sps.toNat ∧ m.sps.toNat ≤ p.spsMax ∧ m.nTaps.toNat = 8 * m.sps.toNat + 1 ∧
    alphaLegal m.alpha = true
  fifo : m.inFifo.length ≤ p.inDepth
  bits : m.bits = 0#4 ∨ m.bits = 2#4 ∨ m.bits = 4#4 ∨ m.bits = 6#4 ∨ m.bits = 8#4

/-- What the invariant says of a configured modulator. -/
theorem ModState.ok_iff_ready {p : Params} {m : ModState} (hc : m.cfg = true) :
    m.ok p ↔ m.Ready p ∧ (m.act = true → 1 ≤ m.k.toNat ∧ m.k.toNat < m.sps.toNat) ∧ (m.act = false → m.k = 0#16) := by
  constructor
  · rintro ⟨-, hconfig, hfifo, hbits, hcursor⟩
    exact ⟨⟨hc, hconfig hc, hfifo, hbits⟩, hcursor⟩
  · rintro ⟨⟨-, hconfig, hfifo, hbits⟩, hcursor⟩
    exact ⟨fun hf => absurd (hc.symm.trans hf) nofun, fun _ => hconfig, hfifo, hbits, hcursor⟩

/-- Within a pass of the loop a symbol is in progress, which may have emitted no sample yet. -/
structure ModState.InSymbol (p : Params) (m : ModState) : Prop extends ModState.Ready p m where
  act : m.act = true
  k_lt : m.k.toNat < m.sps.toNat

/-- Mapping a pair that is left starts a symbol (41_modulator.md R146). -/
theorem mapNext_inSymbol {p : Params} {m : ModState} (hm : m.Ready p) (hb : m.bits ≠ 0#4) :
    (mapNext m).InSymbol p where
  cfg := hm.cfg
  config := hm.config
  fifo := hm.fifo
  bits := by
    rw [mapNext_bits]
    rcases hm.bits.resolve_left hb with h | h | h | h <;> rw [h] <;> decide
  act := rfl
  k_lt := hm.config.1

/-- A pass has a symbol in progress, at the sample the passes before it left off. -/
theorem ensureSymbol_inSymbol {p : Params} {m m' : ModState} {pulled : Nat} (hm : m.ok p) (hc : m.cfg = true)
    (h : ensureSymbol m = some (m', pulled)) : m'.InSymbol p ∧ m'.k = m.k := by
  obtain ⟨hready, hact, hidle⟩ := (ModState.ok_iff_ready hc).1 hm
  rcases ensureSymbol_cases h with ⟨ha, rfl, -⟩ | ⟨ha, hb, rfl, -⟩ | ⟨b, rest, ha, -, hf, rfl, -⟩
  · exact ⟨⟨hready, ha, (hact ha).2⟩, rfl⟩
  · exact ⟨mapNext_inSymbol hready hb, (hidle ha).symm⟩
  · have hrest : rest.length ≤ p.inDepth := by
      have := hready.fifo
      rw [hf, List.length_cons] at this
      omega
    refine ⟨mapNext_inSymbol ⟨hc, hready.config, hrest, ?_⟩ (show 8#4 ≠ 0#4 by decide), (hidle ha).symm⟩
    exact .inr (.inr (.inr (.inr rfl)))

/-- M_K does not wrap before the end of its symbol. -/
theorem toNat_k_succ {m : ModState} (h : m.k.toNat < m.sps.toNat) : (m.k + 1#16).toNat = m.k.toNat + 1 := by
  have := m.sps.isLt
  rw [BitVec.toNat_add, BitVec.toNat_ofNat]
  omega

/-- Moving past a sample gives a legal modulator again (41_modulator.md R151, R153). -/
theorem advanceSample_ok {p : Params} {m : ModState} (h : m.InSymbol p) : (advanceSample m).ok p := by
  obtain ⟨⟨hc, hconfig, hfifo, hbits⟩, hact, hk⟩ := h
  by_cases hlast : m.k.toNat + 1 = m.sps.toNat
  · rw [advanceSample_last hlast]
    exact (ModState.ok_iff_ready (by exact hc)).2 ⟨⟨hc, hconfig, hfifo, hbits⟩, nofun, fun _ => rfl⟩
  · rw [advanceSample_more hlast]
    refine (ModState.ok_iff_ready (by exact hc)).2 ⟨⟨hc, hconfig, hfifo, hbits⟩, fun _ => ?_, fun hf => ?_⟩
    · simp only [toNat_k_succ hk]
      omega
    · exact absurd (hact.symm.trans hf) nofun

/-- One pass of the loop keeps the modulator configured and legal. -/
theorem pass_ok {p : Params} {m m' : ModState} {pulled : Nat} (hm : m.ok p) (hc : m.cfg = true)
    (h : ensureSymbol m = some (m', pulled)) : (advanceSample m').ok p ∧ (advanceSample m').cfg = true := by
  obtain ⟨hin, -⟩ := ensureSymbol_inSymbol hm hc h
  exact ⟨advanceSample_ok hin, (advanceSample_sameConfig m').1.trans hin.cfg⟩

/-- The loop keeps a configured modulator legal. -/
theorem fillSamples_ok (p : Params) (tap : TapMemory) (n : Nat) {m : ModState} (hm : m.ok p) (hc : m.cfg = true) :
    (fillSamples p tap n m).mod.ok p := by
  induction n generalizing m with
  | zero => exact hm
  | succ n ih =>
    cases h : ensureSymbol m with
    | none => rwa [fillSamples_exhausted (n + 1) h]
    | some r =>
      obtain ⟨m', pulled⟩ := r
      obtain ⟨hm', hc'⟩ := pass_ok hm hc h
      rw [fillSamples_succ n h]
      exact ih hm' hc'

/-! ### The sample count (10_state.md R40) -/

/-- The samples emitted since configuration, as M_SYMCNT and M_K count them. -/
def ModState.emitted (m : ModState) : Nat := m.symcnt.toNat * m.sps.toNat + m.k.toNat

/-- Moving past a sample counts it, where the symbol counter does not wrap; the symbol counter moves by at most one. -/
theorem advanceSample_emitted {p : Params} {m : ModState} (h : m.InSymbol p) (hw : m.symcnt.toNat + 1 < 2 ^ 64) :
    (advanceSample m).emitted = m.emitted + 1 ∧ (advanceSample m).symcnt.toNat ≤ m.symcnt.toNat + 1 := by
  have hk := h.k_lt
  by_cases hlast : m.k.toNat + 1 = m.sps.toNat
  · have hsym : (m.symcnt + 1#64).toNat = m.symcnt.toNat + 1 := by
      rw [BitVec.toNat_add, BitVec.toNat_ofNat]
      omega
    rw [advanceSample_last hlast]
    refine ⟨?_, hsym.le⟩
    simp only [ModState.emitted, hsym, Nat.succ_mul, BitVec.toNat_ofNat]
    omega
  · rw [advanceSample_more hlast]
    refine ⟨?_, Nat.le_succ _⟩
    simp only [ModState.emitted, toNat_k_succ hk]
    omega

/-- The loop counts the samples it emits, where the symbol counter does not wrap. -/
theorem fillSamples_emitted (p : Params) (tap : TapMemory) (n : Nat) {m : ModState} (hm : m.ok p)
    (hc : m.cfg = true) (hw : m.symcnt.toNat + n < 2 ^ 64) :
    (fillSamples p tap n m).mod.emitted = m.emitted + (fillSamples p tap n m).samples.length := by
  induction n generalizing m with
  | zero => rfl
  | succ n ih =>
    cases h : ensureSymbol m with
    | none =>
      rw [fillSamples_exhausted (n + 1) h]
      rfl
    | some r =>
      obtain ⟨m', pulled⟩ := r
      obtain ⟨hin, hk⟩ := ensureSymbol_inSymbol hm hc h
      obtain ⟨-, ⟨-, -, hsps, -, -⟩, hsym, -, -⟩ := ensureSymbol_spec h
      have hstart : m'.emitted = m.emitted := by rw [ModState.emitted, hk, hsps, hsym, ModState.emitted]
      rw [← hsym] at hw
      obtain ⟨hadv, hle⟩ := advanceSample_emitted hin (by omega)
      obtain ⟨hm', hc'⟩ := pass_ok hm hc h
      rw [fillSamples_succ n h, List.length_cons, ih hm' hc' (by omega), hadv, hstart]
      omega

/-- A request on a configured modulator completes, with what its loop emits. -/
theorem exec_modRequest_of_cfg (n : BitVec 24) {s : State} (hc : s.mod.cfg = true) :
    exec (.modRequest n) s = .next
      (emitRsp [BitVec.ofNat 32 (fillFor s n).samples.length, BitVec.ofNat 32 (fillFor s n).consumed]
        (emitSamples (fillFor s n).samples (s.setMod (fillFor s n).mod))) := by
  simp [exec, execModRequest, hc, fillFor]

/-- Settles O42: `fillSamples_emitted` for the loop of the one request. -/
theorem symbolCountTracksSamples : Obligations.SymbolCountTracksSamples := by
  intro n s t hm hc hw h
  have hcount : (fillFor s n).mod.emitted = s.mod.emitted + (fillFor s n).samples.length :=
    fillSamples_emitted s.params s.tap n.toNat hm hc hw
  cases (exec_modRequest_of_cfg n hc).symm.trans h
  unfold ModState.emitted at hcount
  simp only [emitRsp_mod, emitSamples_mod, State.setMod_mod, emitRsp_out, emitSamples_out, State.setMod_out,
    List.length_append]
  omega

end Sys2Proof.Machine
end

section
/-! 10_state.md R42-R46, R50; 42_converter.md R171, R176-R193: MSG.DELIVER and the loop of CONV.REQUEST keep the
converter legal. -/

namespace Sys2Proof.Machine

/-- A converter that is configured and legal, but that the current PDU's first byte may still be to emit: what holds
between the pop and the copy of one pass of the loop. -/
structure ConvState.Ready (p : Params) (c : ConvState) : Prop where
  cfg : c.cfg = true
  rate : 1 ≤ c.rate.toNat
  tagName : c.tagName.length = c.tagLen.toNat
  tagLen : c.tagLen.toNat ≤ p.tagNameMax
  queue : c.queue.length ≤ p.qDepth
  pdus : ∀ pdu ∈ c.queue, pdu.length ≤ p.pduMax
  cur : c.curValid = true → c.cur.length ≤ p.pduMax ∧ c.pos.toNat ≤ c.cur.length
  idle : c.curValid = false → c.cur = [] ∧ c.pos = 0#20
  tagOff : c.tagOff.toNat < 2 ^ 24 - 1

/-- The first byte of a current PDU that is not empty has been emitted (42_converter.md R186). -/
def ConvState.Begun (c : ConvState) : Prop := c.curValid = true → c.cur ≠ [] → 0 < c.pos.toNat

/-- What the invariant says of a configured converter. -/
theorem ConvState.ok_iff_ready {p : Params} {c : ConvState} (hc : c.cfg = true) : c.ok p ↔ c.Ready p ∧ c.Begun := by
  constructor
  · rintro ⟨-, hrate, hname, hlen, hqueue, hpdus, hcur, hidle, htag⟩
    have hpos : c.curValid = true → c.cur.length ≤ p.pduMax ∧ c.pos.toNat ≤ c.cur.length := fun hv =>
      let ⟨hmax, hle, _⟩ := hcur hv
      ⟨hmax, hle⟩
    exact ⟨⟨hc, hrate hc, hname, hlen, hqueue, hpdus, hpos, hidle, htag⟩, fun hv => (hcur hv).2.2⟩
  · rintro ⟨h, hbegun⟩
    refine ⟨fun hf => absurd (hc.symm.trans hf) nofun, fun _ => h.rate, h.tagName, h.tagLen, h.queue, h.pdus,
      fun hv => ?_, h.idle, h.tagOff⟩
    obtain ⟨hmax, hle⟩ := h.cur hv
    exact ⟨hmax, hle, hbegun hv⟩

/-! ### One pass of the loop -/

/-- Clearing an exhausted PDU (42_converter.md R181) leaves no current one, or one with bytes left. -/
theorem clearExhausted_ready {p : Params} {c : ConvState} (h : c.Ready p) : (clearExhausted c).Ready p := by
  rcases clearExhausted_cases c with ⟨-, -, he⟩ | ⟨-, he⟩
  · rw [he]
    exact { h with cur := nofun, idle := fun _ => ⟨rfl, rfl⟩ }
  · rwa [he]

/-- Popping a PDU within the budget keeps C_TAGOFF in range (42_converter.md R182; 10_state.md R46). -/
theorem popPdu_ready {p : Params} {c : ConvState} {produced : Nat} (h : c.Ready p) (hb : produced < 2 ^ 24 - 1) :
    (popPdu produced c).Ready p := by
  rcases popPdu_cases produced c with ⟨-, he⟩ | ⟨-, -, he⟩ | ⟨pdu, rest, -, hq, he⟩
  · rwa [he]
  · rwa [he]
  · have hqueue := h.queue
    have hpdus := h.pdus
    rw [hq] at hqueue hpdus
    obtain ⟨hpdu, hrest⟩ := List.forall_mem_cons.1 hpdus
    rw [he]
    refine { h with
      queue := (Nat.le_succ _).trans hqueue
      pdus := hrest
      cur := fun _ => ⟨hpdu, Nat.zero_le _⟩
      idle := nofun
      tagOff := ?_ }
    rw [BitVec.toNat_ofNat]
    omega

/-- With budget left, a pass copies nothing only where no PDU has bytes left: the unit is as between commands. -/
theorem begun_of_chunk_zero {c : ConvState} {left : Nat} (hl : 0 < left) (h0 : chunkOf left c = 0) : c.Begun := by
  intro hv hne
  have hlen := List.length_pos_iff.2 hne
  rw [chunkOf, if_pos hv] at h0
  omega

/-- The unit after a pass that copies `chunk` bytes of the current PDU (42_converter.md R183-R185). -/
theorem copy_ok {p : Params} {c : ConvState} {left : Nat} (hp : p.pduMax < 2 ^ 20) (h : c.Ready p)
    (h0 : 0 < chunkOf left c) (n : BitVec 32) :
    ConvState.ok p { c with pos := c.pos + BitVec.ofNat 20 (chunkOf left c), tagCnt := n } := by
  have hv : c.curValid = true := by
    by_contra hv
    rw [chunkOf, if_neg hv] at h0
    omega
  obtain ⟨hmax, hle⟩ := h.cur hv
  obtain ⟨-, hchunk⟩ := chunkOf_le left c
  have hpos : (c.pos + BitVec.ofNat 20 (chunkOf left c)).toNat = c.pos.toNat + chunkOf left c := by
    rw [BitVec.toNat_add, BitVec.toNat_ofNat]
    omega
  refine (ConvState.ok_iff_ready (by exact h.cfg)).2
    ⟨{ h with cur := fun _ => ⟨hmax, ?_⟩, idle := fun hf => absurd (hv.symm.trans hf) nofun }, fun _ _ => ?_⟩
  · simp only [hpos]
    omega
  · simp only [hpos]
    omega

/-! ### The whole loop, and a message -/

/-- No pass changes C_CFG. -/
theorem ConvState.SameBase.cfg_eq {c c' : ConvState} (h : c.SameBase c') : c'.cfg = c.cfg := by rw [h]

/-- The loop of a request keeps a configured converter legal. -/
theorem drain_ok {p : Params} (hp : p.pduMax < 2 ^ 20) (base : BitVec 64) {b : Nat} (hb : b ≤ 2 ^ 24 - 1)
    (fuel produced : Nat) {c : ConvState} (h : c.ok p) (hc : c.cfg = true) :
    (drain base b fuel produced c).conv.ok p := by
  induction fuel generalizing produced c with
  | zero => exact h
  | succ fuel ih =>
    rcases Nat.lt_or_ge produced b with hlt | hge
    · have hready : (popPdu produced (clearExhausted c)).Ready p :=
        popPdu_ready (clearExhausted_ready ((ConvState.ok_iff_ready hc).1 h).1) (by omega)
      rcases Nat.eq_zero_or_pos (chunkOf (b - produced) (popPdu produced (clearExhausted c))) with h0 | hpos
      · rw [drain_pad fuel hlt h0]
        exact (ConvState.ok_iff_ready hready.cfg).2 ⟨hready, begun_of_chunk_zero (by omega) h0⟩
      · rw [drain_copy fuel hlt rfl hpos]
        exact ih _ (copy_ok hp hready hpos _) hready.cfg
    · rw [drain_done _ hge]
      exact h

/-- A message keeps a configured converter legal (42_converter.md R171). -/
theorem deliverTo_ok {p : Params} {c : ConvState} (h : c.ok p) (hc : c.cfg = true) (kind : BitVec 4) {len : Nat}
    {bytes : List Byte} (hlen : bytes.length ≤ len) : (deliverTo p kind len bytes c).ok p := by
  obtain ⟨hready, hbegun⟩ := (ConvState.ok_iff_ready hc).1 h
  rw [deliverTo_sameConfig]
  refine (ConvState.ok_iff_ready (by exact hc)).2 ⟨?_, hbegun⟩
  rcases deliverTo_queue p kind len bytes c with hq | ⟨hmax, hfull, hq⟩
  · exact { hready with queue := hq ▸ hready.queue, pdus := hq ▸ hready.pdus }
  · have hqueue := hready.queue
    refine { hready with queue := ?_, pdus := ?_ }
    · rw [hq, List.length_append, List.length_singleton]
      omega
    · rw [hq]
      exact List.forall_mem_append.2 ⟨hready.pdus, List.forall_mem_singleton.2 (hlen.trans hmax)⟩

end Sys2Proof.Machine
end

section
/-! 10_state.md R33-R50; 43_control.md R208: every step keeps the state legal. -/

namespace Sys2Proof.Machine

/-! ### The reset state -/

theorem ErrState.initial_ok : ErrState.initial.ok := ⟨fun _ => rfl, nofun⟩

theorem ModState.initial_ok (p : Params) : ModState.initial.ok p :=
  ⟨fun _ => rfl, nofun, Nat.zero_le _, .inl rfl, nofun, fun _ => rfl⟩

theorem ConvState.initial_ok (p : Params) : ConvState.initial.ok p :=
  ⟨fun _ => rfl, nofun, rfl, Nat.zero_le _, Nat.zero_le _, nofun, nofun, fun _ => ⟨rfl, rfl⟩, by decide⟩

/-- Settles O60: every unit holds its reset values, and TAP lists nothing. -/
theorem resetStateIsLegal : Obligations.ResetStateIsLegal :=
  ⟨by decide, ErrState.initial_ok, ModState.initial_ok _, ConvState.initial_ok _, reset_tap_wf, rfl, BitVec.le_refl _⟩

/-! ### One part of the state at a time -/

/-- A recorded cause is a code of 60_exceptions.md R221. -/
theorem ErrorCode.code_range (e : ErrorCode) : 0x01#8 ≤ e.code ∧ e.code ≤ 0x0A#8 := by
  cases e <;> decide

theorem recordError_ok (e : ErrorCode) (hdr : Word) {x : ErrState} (h : x.ok) : (recordError e hdr x).ok := by
  refine ⟨fun hf => absurd ((recordError_err e hdr x).symm.trans hf) nofun, fun _ => ?_⟩
  cases hx : x.err with
  | false =>
    rw [recordError_first e hdr hx]
    exact e.code_range
  | true =>
    rw [recordError_later e hdr hx]
    exact h.2 hx

section
variable {s : State} (h : s.ok)
include h

theorem State.err_ok : s.err.ok := by
  obtain ⟨-, he, -⟩ := h
  exact he

theorem State.mod_ok : s.mod.ok s.params := by
  obtain ⟨-, -, hm, -⟩ := h
  exact hm

theorem State.conv_ok : s.conv.ok s.params := by
  obtain ⟨-, -, -, hc, -⟩ := h
  exact hc

theorem State.tap_ok : TapMemory.wf s.tap = true ∧ TapMemory.below s.params.nMax s.tap = true := by
  obtain ⟨-, -, -, -, hwf, hbelow, -⟩ := h
  exact ⟨hwf, hbelow⟩

theorem State.lastT_le : s.conv.lastT ≤ s.time := by
  obtain ⟨-, -, -, -, -, -, ht⟩ := h
  exact ht

theorem State.ok_setErr {x : ErrState} (hx : x.ok) : (s.setErr x).ok := by
  obtain ⟨hp, -, hrest⟩ := h
  exact ⟨hp, hx, hrest⟩

theorem State.ok_setMod {m : ModState} (hm : m.ok s.params) : (s.setMod m).ok := by
  obtain ⟨hp, he, -, hrest⟩ := h
  exact ⟨hp, he, hm, hrest⟩

theorem State.ok_setConv {c : ConvState} (hc : c.ok s.params) (ht : c.lastT ≤ s.time) : (s.setConv c).ok := by
  obtain ⟨hp, he, hm, -, hwf, hbelow, -⟩ := h
  exact ⟨hp, he, hm, hc, hwf, hbelow, ht⟩

theorem State.ok_setTap {m : TapMemory} (hwf : TapMemory.wf m = true)
    (hbelow : TapMemory.below s.params.nMax m = true) : (s.setTap m).ok := by
  obtain ⟨hp, he, hm, hc, -, -, ht⟩ := h
  exact ⟨hp, he, hm, hc, hwf, hbelow, ht⟩

theorem State.ok_setTime {v : BitVec 64} (hv : s.time ≤ v) : (s.setTime v).ok := by
  obtain ⟨hp, he, hm, hc, hwf, hbelow, ht⟩ := h
  exact ⟨hp, he, hm, hc, hwf, hbelow, BitVec.le_trans ht hv⟩

/-- The output ports, the latch, the input ports and the model's own fields are no part of the invariant. -/
theorem State.ok_setOut (o : OutPorts) : (s.setOut o).ok := h

theorem State.ok_setSnap (w : BitVec 32) : (s.setSnap w).ok := h

theorem State.ok_setEnv (e : Env) : (s.setEnv e).ok := h

theorem State.ok_setPort (p : Port) (q : InPort) : (s.setPort p q).ok := by
  cases p <;> exact h

/-! ### The shared operations -/

theorem State.ok_raiseError (e : ErrorCode) (hdr : Word) (n : Nat) : (raiseError e hdr n s).ok :=
  State.ok_setOut (State.ok_setErr h (recordError_ok e hdr (State.err_ok h))) _

theorem State.ok_modClear : (modClear s).ok := State.ok_setMod h (ModState.initial_ok _)

theorem State.ok_convClear : (convClear s).ok :=
  State.ok_setConv h (ConvState.initial_ok _) (BitVec.le_def.2 (Nat.zero_le _))

theorem State.ok_drawTime {t : State} {v : BitVec 64} (hd : drawTime s = some (v, t)) : t.ok := by
  have hv := drawTime_le hd
  obtain ⟨-, rfl⟩ := drawTime_eq_some hd
  exact State.ok_setEnv (State.ok_setTime h hv) _

theorem State.ok_softReset : (softReset s).ok := by
  have htap : (tapForget s).ok := State.ok_setTap h (tapFill_wf _ _ _) (tapFill_below _ _)
  exact State.ok_convClear (State.ok_modClear (State.ok_setSnap (State.ok_setErr htap ErrState.initial_ok) _))

end

/-! ### The commands -/

/-- A modulator just constructed is legal (40_configuration.md R121). -/
theorem constructedMod_ok {p : Params} (hp : p.legal) (dbg : Bool) {sps : BitVec 16} {alpha : Word}
    (h0 : sps ≠ 0#16) (hs : sps.toNat ≤ p.spsMax) (ha : alphaLegal alpha = true) :
    (constructedMod dbg sps alpha).ok p := by
  have hpos : sps.toNat ≠ 0 := fun h => h0 (BitVec.eq_of_toNat_eq h)
  obtain ⟨hmax, -⟩ := Params.legal_bounds hp
  have hn : (BitVec.ofNat 16 (8 * sps.toNat + 1)).toNat = 8 * sps.toNat + 1 := by
    rw [BitVec.toNat_ofNat]
    omega
  exact ⟨nofun, fun _ => ⟨Nat.one_le_iff_ne_zero.2 hpos, hs, hn, ha⟩, Nat.zero_le _, .inl rfl, nofun, fun _ => rfl⟩

/-- A converter just constructed is legal (40_configuration.md R130). -/
theorem constructedConv_ok {p : Params} (dbg : Bool) {rate : BitVec 64} {len : BitVec 8} {name : List Byte}
    (t : BitVec 64) (hr : rate ≠ 0#64) (hl : len.toNat ≤ p.tagNameMax) (hname : name.length = len.toNat) :
    (constructedConv dbg rate len name t).ok p := by
  have hpos : rate.toNat ≠ 0 := fun h => hr (BitVec.eq_of_toNat_eq h)
  exact ⟨nofun, fun _ => Nat.one_le_iff_ne_zero.2 hpos, hname, hl, Nat.zero_le _, nofun, nofun, fun _ => ⟨rfl, rfl⟩,
    show (0#24).toNat < 2 ^ 24 - 1 by decide⟩

/-- The budget of a request is at most its capacity (42_converter.md R180). -/
theorem budget_le (p : Params) (c : ConvState) (t : BitVec 64) (n : BitVec 24) : budget p c t n ≤ 2 ^ 24 - 1 := by
  have := n.isLt
  have : budget p c t n ≤ n.toNat := Nat.min_le_right _ _
  omega

/-- A completed CONV.REQUEST leaves the state legal, its timestamp the TIME of its second draw (42_converter.md R189). -/
theorem afterDrain_ok {s s1 s2 : State} {t1 t2 : BitVec 64} (n : BitVec 24) (h : s.ok) (hc : s.conv.cfg = true)
    (hd1 : drawTime s = some (t1, s1)) (hd2 : drawTime s1 = some (t2, s2)) :
    (afterDrain s s2 t2 (drainAt s t1 n)).ok := by
  have h2 : s2.ok := State.ok_drawTime (State.ok_drawTime h hd1) hd2
  have hparams : s2.params = s.params := by rw [drawTime_frame hd2, drawTime_frame hd1]
  have htime : s2.time = t2 := by rw [drawTime_frame hd2]
  obtain ⟨-, hpdu, -⟩ := Params.legal_bounds h.1
  have hdrain : (drainAt s t1 n).conv.ok s2.params :=
    hparams ▸ drain_ok (by omega) s.conv.wcount (budget_le _ _ _ _) _ 0 (State.conv_ok h) hc
  have hcfg : (drainAt s t1 n).conv.cfg = true := (drain_sameBase _ _ _ _ _).cfg_eq.trans hc
  obtain ⟨hready, hbegun⟩ := (ConvState.ok_iff_ready hcfg).1 hdrain
  exact State.ok_setConv h2 ((ConvState.ok_iff_ready (by exact hcfg)).2 ⟨{ hready with }, hbegun⟩)
    (htime ▸ BitVec.le_refl _)

/-- A command whose payload has the length its header says keeps the state legal (30_encoding.md R93). -/
theorem Completes.keeps_ok {s t : State} {i : Instr} (h : Completes s i t) (hok : s.ok) (hwf : i.wf = true) : t.ok := by
  cases h with
  | raised e i => exact State.ok_raiseError hok _ _ _
  | nop ignored => exact hok
  | reset => exact State.ok_softReset hok
  | @timeRead v s1 hd => exact State.ok_setSnap (State.ok_drawTime hok hd) (hiWord v)
  | csrRead hi hv => exact hok
  | errClear => exact State.ok_setErr hok ErrState.initial_ok
  | modRejected e dbg sps alpha => exact State.ok_raiseError (State.ok_modClear hok) _ _ _
  | @modConfigured dbg sps alpha taps h0 hs ha ht =>
    obtain ⟨htwf, hbelow⟩ := State.tap_ok hok
    have hlen := (tapSet_spec ht).1
    have hn : 0 + taps.length ≤ s.params.nMax := by
      unfold Params.nMax
      omega
    have htap : (s.setTap (tapWriteFrom s.tap 0 taps)).ok :=
      State.ok_setTap hok (tapWriteFrom_wf htwf taps 0) (tapWriteFrom_below hbelow taps 0 hn)
    exact State.ok_setMod htap (constructedMod_ok hok.1 dbg h0 hs ha)
  | fed byte hc hf =>
    obtain ⟨hready, hcursor⟩ := (ModState.ok_iff_ready hc).1 (State.mod_ok hok)
    have hfifo := hready.fifo
    refine State.ok_setMod hok ((ModState.ok_iff_ready (by exact hc)).2 ⟨{ hready with fifo := ?_ }, hcursor⟩)
    rw [List.length_append, List.length_singleton]
    omega
  | modRequested n hc => exact State.ok_setMod hok (fillSamples_ok s.params s.tap n.toNat (State.mod_ok hok) hc)
  | tapRead hc hi => exact hok
  | convRejected e dbg len lo hi name => exact State.ok_raiseError (State.ok_convClear hok) _ _ _
  | @convConfigured dbg len lo hi name v s1 hr hl hd =>
    have hname : (unpackBytes len.toNat name).length = len.toNat :=
      unpackBytes_length_of_wordsFor (beq_iff_eq.1 hwf).ge
    have h1 : s1.ok := State.ok_drawTime hok hd
    rw [drawTime_frame hd] at h1 ⊢
    exact State.ok_setConv h1 (constructedConv_ok dbg v hr hl hname) (BitVec.le_refl _)
  | delivered kind len payload hc =>
    refine State.ok_setConv hok (deliverTo_ok (State.conv_ok hok) hc kind (unpackBytes_length_le _ _)) ?_
    rw [deliverTo_sameConfig]
    exact State.lastT_le hok
  | convRequested n hc hd1 hd2 => exact afterDrain_ok n hok hc hd1 hd2

/-- A command as a port decodes it has the payload its header asks for (30_encoding.md R93). -/
theorem decode_command_wf {p : Port} {ws rest : List Word} {i : Instr} (h : decode p ws = .command i rest) :
    i.wf = true := by
  obtain ⟨hdr, tl, op, -, -, hle, rfl, -⟩ := decode_eq_command.1 h
  have hlen : (tl.take (payloadWords op hdr)).length = payloadWords op hdr := List.length_take_of_le hle
  cases op with
  | convConfig =>
    refine beq_iff_eq.2 ?_
    rw [List.length_drop, hlen]
    exact Nat.add_sub_cancel_left _ _
  | msgDeliver => exact beq_iff_eq.2 hlen
  | _ => rfl

/-- Settles O59: fetching touches only the ports and the model's own fields, an illegal header is an error, and a decoded
command is well-formed (`decode_command_wf`), so that it keeps the state legal (`Completes.keeps_ok`). -/
theorem everyStepKeepsTheStateLegal : Obligations.EveryStepKeepsTheStateLegal := by
  intro s t hs h
  have hfetched : ∀ {p s1}, choosePort s = some (p, s1) → ∀ rest, (consume p rest s1).ok := fun {p s1} hc rest => by
    rw [(choosePort_eq_some hc).2]
    exact State.ok_setPort (State.ok_setEnv hs _) _ _
  obtain ⟨-, ⟨i, s2, hf, he⟩ | hf⟩ := step_eq_next h
  · obtain ⟨p, s1, rest, hc, hd, rfl⟩ := fetch_eq_command hf
    exact (completes_of_exec he).keeps_ok (hfetched hc rest) (decode_command_wf hd)
  · obtain ⟨p, s1, hdr, rest, hc, hd, rfl⟩ := fetch_eq_illegal hf
    exact State.ok_raiseError (hfetched hc rest) _ _ _

end Sys2Proof.Machine
end

section
/-! 20_memory.md R73, R75, R78: packed bytes, the step of the agent that moves, and when no agent has one. -/

namespace Sys2Proof.Machine

/-! ### Packed bytes (20_memory.md R73) -/

/-- Byte `j` of a word is its bits [8j+7 : 8j]. -/
theorem wordBytes_getElem? (w : Word) {j : Nat} (h : j < 4) : (wordBytes w)[j]? = some (w.extractLsb' (8 * j) 8) := by
  match j, h with
  | 0, _ | 1, _ | 2, _ | 3, _ => rfl

/-- Four bytes come from each word, in the order of the words. -/
theorem flatMap_wordBytes_getElem? (ws : List Word) (j : Nat) :
    (ws.flatMap wordBytes)[j]? = ws[j / 4]?.map fun w => w.extractLsb' (8 * (j % 4)) 8 := by
  induction ws generalizing j with
  | nil => rfl
  | cons w ws ih =>
    rw [List.flatMap_cons]
    rcases Nat.lt_or_ge j 4 with h | h
    · rw [List.getElem?_append_left h, wordBytes_getElem? w h, Nat.div_eq_of_lt h, Nat.mod_eq_of_lt h]
      rfl
    · obtain ⟨k, rfl⟩ := Nat.exists_eq_add_of_le' h
      rw [List.getElem?_append_right h, wordBytes_length, Nat.add_sub_cancel, ih, Nat.add_div_right k (by decide),
        Nat.add_mod_right, List.getElem?_cons_succ]

/-- Settles O7: taking the first `len` bytes keeps each of them at its place among the bytes of the words. -/
theorem packedBytesAreLittleEndian : Obligations.PackedBytesAreLittleEndian := by
  intro len ws h
  refine ⟨unpackBytes_length_of_wordsFor h, fun j hj => ?_⟩
  rw [unpackBytes, List.getElem?_take_of_lt hj, flatMap_wordBytes_getElem?]

/-! ### The step of the agent that moves (20_memory.md R78) -/

/-- The arbitration moves no port. -/
theorem choosePort_port {s s1 : State} {p : Port} (h : choosePort s = some (p, s1)) (r : Port) :
    s1.port r = s.port r := by
  rw [(choosePort_eq_some h).2, State.setEnv_port]

/-- What is fetched is what stands at the front of the port of the agent that moves. -/
theorem fetch_of_choosePort {s s1 : State} {p : Port} (h : choosePort s = some (p, s1)) : fetch s = fetchOn p s1 := by
  simp [fetch, h]

/-- A decoded command is fetched with its words taken. -/
theorem fetch_of_command {p : Port} {s s1 : State} {i : Instr} {rest : List Word} (hc : choosePort s = some (p, s1))
    (hd : decode p (s.port p).words = .command i rest) : fetch s = .command i (consume p rest s1) := by
  simp [fetch_of_choosePort hc, fetchOn, choosePort_port hc, hd]

/-- A decoded command is executed once its words are taken. -/
theorem step_of_command {p : Port} {s s1 : State} {i : Instr} {rest : List Word} (hl : s.params.legal)
    (hc : choosePort s = some (p, s1)) (hd : decode p (s.port p).words = .command i rest) :
    step s = exec i (consume p rest s1) := by
  rw [step, if_pos hl, fetch_of_command hc hd]

/-- A command assembled from as many words as its header asks for has them as its payload. -/
theorem assembleInstr_payload_length {op : Opcode} {hdr : Word} {payload : List Word}
    (h : payload.length = payloadWords op hdr) :
    (assembleInstr op hdr payload).payload.length = payloadWords op hdr := by
  cases op with
  | convConfig =>
    simp only [payloadWords] at h
    simp only [assembleInstr, Instr.payload, payloadWords, List.length_cons, List.length_drop, h]
    omega
  | msgDeliver => exact h
  | _ => rfl

/-- The length a header decides is that of the command decoded from it (30_encoding.md R93). -/
theorem commandLength_of_decode {p : Port} {ws rest : List Word} {i : Instr} (h : decode p ws = .command i rest) :
    commandLength p (ws.headD 0x00000000#32) = (encode i).length := by
  obtain ⟨hdr, tl, op, rfl, ho, hle, rfl, -⟩ := decode_eq_command.1 h
  rw [encode_length, assembleInstr_payload_length (List.length_take_of_le hle)]
  simp [commandLength, ho]

/-- Settles O8: `consume` takes the words of the decoded command, as many as its encoding has. -/
theorem stepRunsTheDecodedCommand : Obligations.StepRunsTheDecodedCommand := by
  intro p s s1 i rest hl hc hd
  refine ⟨(choosePort_eq_some hc).2, ?_⟩
  rw [step_of_command hl hc hd, consume, choosePort_port hc, commandLength_of_decode hd]

/-! ### No agent has a step (20_memory.md R75) -/

/-- A command that branches does not fault if no branch does. -/
theorem ite_ne_fault {c : Prop} [Decidable c] {x y : Host.Outcome State Fault Refusal} {f : Fault}
    (hx : x ≠ .fault f) (hy : y ≠ .fault f) : (if c then x else y) ≠ .fault f := by
  by_cases h : c
  · rwa [if_pos h]
  · rwa [if_neg h]

/-- No command stops the machine: it completes, or its draw of TIME is refused (60_exceptions.md R220). -/
theorem exec_ne_fault (i : Instr) (s : State) (f : Fault) : exec i s ≠ .fault f := by
  cases i with
  | nop ignored => exact nofun
  | reset reserved => exact ite_ne_fault nofun nofun
  | csrRead reserved idx =>
    refine ite_ne_fault nofun (ite_ne_fault ?_ ?_)
    · cases drawTime s <;> exact nofun
    · cases csrValue s idx <;> exact nofun
  | errClear reserved => exact ite_ne_fault nofun nofun
  | modConfig dbg reserved sps alpha =>
    refine ite_ne_fault nofun (ite_ne_fault nofun (ite_ne_fault nofun ?_))
    cases tapSet s.params.tapRound sps.toNat alpha <;> exact nofun
  | modFeed reserved byte => exact ite_ne_fault nofun (ite_ne_fault nofun (ite_ne_fault nofun nofun))
  | modRequest n => exact ite_ne_fault nofun nofun
  | tapRead reserved i => exact ite_ne_fault nofun (ite_ne_fault nofun (ite_ne_fault nofun nofun))
  | convConfig dbg reserved len rateLo rateHi name =>
    refine ite_ne_fault nofun (ite_ne_fault nofun (ite_ne_fault nofun ?_))
    cases drawTime s <;> exact nofun
  | msgDeliver kind len payload => exact ite_ne_fault nofun nofun
  | convRequest n =>
    refine ite_ne_fault nofun ?_
    cases drawTime s with
    | none => exact nofun
    | some r =>
      dsimp only
      cases drawTime r.2 <;> exact nofun

/-- There is nothing to execute exactly when no agent has a step. -/
theorem fetch_eq_idle {s : State} : fetch s = .idle ↔ choosePort s = none := by
  cases hc : choosePort s with
  | none => simp [fetch, hc]
  | some r =>
    obtain ⟨p, s1⟩ := r
    have hd : decode p (s.port p).words ≠ .incomplete := by
      rw [Ne, ← portReady_eq_false, (choosePort_eq_some hc).1]
      decide
    rw [fetch_of_choosePort hc, fetchOn, choosePort_port hc]
    cases h : decode p (s.port p).words with
    | incomplete => exact absurd h hd
    | _ => simp

/-- The machine faults exactly when it has nothing to execute: commands do not (`exec_ne_fault`). -/
theorem step_eq_fault {s : State} (hl : s.params.legal) : step s = .fault .noCommandReceived ↔ fetch s = .idle := by
  rw [step, if_pos hl]
  cases fetch s with
  | command i s1 => simp [exec_ne_fault]
  | illegal s1 => simp
  | idle => simp

/-- Settles O9: no agent has a step exactly when neither port decodes to a command or an illegal header. -/
theorem onlyIncompletePortsAreStuck : Obligations.OnlyIncompletePortsAreStuck := by
  intro s hl
  rw [step_eq_fault hl, fetch_eq_idle, choosePort_eq_none, portReady_eq_false, portReady_eq_false]
  rfl

end Sys2Proof.Machine
end

section
/-! 20_memory.md R79: which agent a contest goes to, and weak fairness: the loser of a contest loses no more contests
in a row than the grants still listed and its patience allow. -/

namespace Sys2Proof.Machine

/-! ### Received words -/

/-- A fully received command stays the first one however many words follow it. -/
theorem decode_append_command {p : Port} {ws rest : List Word} {i : Instr} (h : decode p ws = .command i rest)
    (vs : List Word) : decode p (ws ++ vs) = .command i (rest ++ vs) := by
  obtain ⟨hdr, tl, op, rfl, ho, hle, rfl, rfl⟩ := decode_eq_command.1 h
  refine decode_eq_command.2 ⟨hdr, tl ++ vs, op, rfl, ho, ?_, ?_, ?_⟩
  · rw [List.length_append]
    exact Nat.le_add_right_of_le hle
  · rw [List.take_append_of_le_length hle]
  · rw [List.drop_append_of_le_length hle]

/-- Further words take no step away from an agent. -/
theorem decode_append_ne_incomplete {p : Port} {ws : List Word} (h : decode p ws ≠ .incomplete) (vs : List Word) :
    decode p (ws ++ vs) ≠ .incomplete := by
  cases hd : decode p ws with
  | command i rest =>
    rw [decode_append_command hd]
    exact nofun
  | illegal hdr rest =>
    obtain ⟨rfl, ho⟩ := decode_eq_illegal.1 hd
    rw [List.cons_append, decode_eq_illegal.2 ⟨rfl, ho⟩]
    exact nofun
  | incomplete => exact absurd hd h

/-- An agent has a step exactly when its port does not decode to `incomplete`. -/
theorem portReady_eq_true {p : Port} {s : State} :
    portReady p s = true ↔ decode p (s.port p).words ≠ .incomplete := by
  rw [Ne, ← portReady_eq_false, Bool.not_eq_false]

/-- Whether an agent has a step is a matter of its own port. -/
theorem portReady_congr {p : Port} {s t : State} (h : t.port p = s.port p) : portReady p t = portReady p s := by
  unfold portReady
  rw [h]

@[simp] theorem receive_env (q : Port) (ws : List Word) (s : State) : (s.receive q ws).env = s.env :=
  State.setPort_env _ _ _

/-- The host's words take no step away from an agent (20_memory.md R75). -/
theorem portReady_receive {p : Port} {s : State} (h : portReady p s = true) (q : Port) (ws : List Word) :
    portReady p (s.receive q ws) = true := by
  by_cases hq : p = q
  · subst hq
    rw [portReady_eq_true] at h ⊢
    rw [State.receive, State.setPort_port_self]
    exact decode_append_ne_incomplete h ws
  · exact (portReady_congr (State.setPort_port_other _ _ _ _ hq)).trans h

/-! ### Contests -/

/-- When both agents have a step they contest it. -/
theorem choosePort_contest {s : State} (hc : portReady .cmd s = true) (hm : portReady .msg s = true) :
    choosePort s = some (nextGrant s, afterContest s) := by
  simp [choosePort, hc, hm]

/-- The agent named first in the environment's list is granted the contest. -/
theorem nextGrant_of_grants {s : State} {p : Port} {later : List Port} (h : s.env.grants = p :: later) :
    nextGrant s = p := by
  simp [nextGrant, h]

/-- Once the list is used up, an agent whose patience is used up wins. -/
theorem nextGrant_of_patience {s : State} {w : Waiting} (hg : s.env.grants = []) (hw : s.env.waiting = some w)
    (h : Config.arbiterPatience w.since < s.env.contests - w.since) : nextGrant s = w.port := by
  simp only [nextGrant, hg, hw]
  exact grantBy_patience h

/-- The fields of the model's own that the arbiter reads. -/
def Env.SameArbiter (e f : Env) : Prop := f.grants = e.grants ∧ f.contests = e.contests ∧ f.waiting = e.waiting

/-- A draw of TIME leaves the arbiter alone. -/
theorem drawTime_sameArbiter {s t : State} {v : BitVec 64} (h : drawTime s = some (v, t)) :
    s.env.SameArbiter t.env := by
  obtain ⟨-, rfl⟩ := drawTime_eq_some h
  exact ⟨rfl, rfl, rfl⟩

/-- Commands leave the arbiter alone. -/
theorem Completes.sameArbiter {s t : State} {i : Instr} (h : Completes s i t) : s.env.SameArbiter t.env := by
  cases h with
  | timeRead hd | convConfigured _ _ _ _ hd =>
    have he := drawTime_sameArbiter hd
    exact he
  | convRequested n hc hd1 hd2 =>
    obtain ⟨hg1, hc1, hw1⟩ := drawTime_sameArbiter hd1
    obtain ⟨hg2, hc2, hw2⟩ := drawTime_sameArbiter hd2
    exact ⟨hg2.trans hg1, hc2.trans hc1, hw2.trans hw1⟩
  | _ => exact ⟨rfl, rfl, rfl⟩

/-- A step is the step of some agent. -/
theorem executes_of_step {s t : State} (h : step s = .next t) : ∃ q, Executes q s t := by
  obtain ⟨-, ⟨i, s2, hf, -⟩ | hf⟩ := step_eq_next h
  · obtain ⟨p, s1, -, hc, -⟩ := fetch_eq_command hf
    exact ⟨p, h, s1, hc⟩
  · obtain ⟨p, s1, -, -, hc, -⟩ := fetch_eq_illegal hf
    exact ⟨p, h, s1, hc⟩

/-- After a step the arbiter stands as the arbitration left it, and only the port of the agent that moved has
changed. -/
theorem Executes.arbitrated {q : Port} {s t : State} (h : Executes q s t) :
    ∃ s1, choosePort s = some (q, s1) ∧ s1.env.SameArbiter t.env ∧ ∀ p, p ≠ q → t.port p = s.port p := by
  obtain ⟨hstep, s1, hc⟩ := h
  have hports : ∀ rest p, p ≠ q → (consume q rest s1).port p = s.port p := fun rest p hp => by
    rw [consume_port, if_neg hp, choosePort_port hc]
  have henv : ∀ rest, (consume q rest s1).env = s1.env := fun rest => State.setPort_env _ _ _
  refine ⟨s1, hc, ?_⟩
  obtain ⟨-, ⟨i, s2, hf, he⟩ | hf⟩ := step_eq_next hstep
  · obtain ⟨p', s1', rest, hc', -, rfl⟩ := fetch_eq_command hf
    cases hc.symm.trans hc'
    have hi := completes_of_exec he
    obtain ⟨-, hkeep⟩ := hi.keeps_inputs
    exact ⟨henv rest ▸ hi.sameArbiter, fun p hp => (hkeep p).trans (hports rest p hp)⟩
  · obtain ⟨p', s1', hdr, rest, hc', -, rfl⟩ := fetch_eq_illegal hf
    cases hc.symm.trans hc'
    refine ⟨?_, fun p hp => ?_⟩
    · rw [raiseError_env, henv]
      exact ⟨rfl, rfl, rfl⟩
    · rw [← hports rest p hp]
      cases p <;> rfl

theorem ne_otherPort (p : Port) : p ≠ otherPort p := by cases p <;> decide

/-- The agent of port `p` has a step in `s`, and the move to `t` is one of the other agent, which so won a contest. -/
structure LosesContest (p : Port) (s t : State) : Prop where
  stillReady : portReady p t = true
  granted : nextGrant s = otherPort p
  grants : t.env.grants = s.env.grants.tail
  contests : t.env.contests = s.env.contests + 1
  waiting : t.env.waiting = waitingAfter (otherPort p) s.env.contests s.env.waiting

/-- An agent that has a step while another one moves loses a contest, and keeps its step. -/
theorem Executes.losesContest {p q : Port} {s t : State} (h : Executes q s t) (hp : portReady p s = true)
    (hq : q ≠ p) : LosesContest p s t := by
  obtain ⟨s1, hc, ⟨hgrants, hcontests, hwaiting⟩, hports⟩ := h.arbitrated
  have hqr : portReady q s = true := (choosePort_eq_some hc).1
  obtain rfl := eq_otherPort_of_ne hq
  have hboth : choosePort s = some (nextGrant s, afterContest s) := by
    cases p
    · exact choosePort_contest hp hqr
    · exact choosePort_contest hqr hp
  have hgrant : nextGrant s = otherPort p ∧ afterContest s = s1 := by simpa [hboth] using hc
  obtain ⟨hgrant, rfl⟩ := hgrant
  exact {
    stillReady := (portReady_congr (hports p hq.symm)).trans hp
    granted := hgrant
    grants := hgrants
    contests := hcontests
    waiting := hgrant ▸ hwaiting }

/-- The loser of a contest waits. -/
theorem LosesContest.waits {p : Port} {s t : State} (h : LosesContest p s t) :
    ∃ w, t.env.waiting = some w ∧ w.port = p := by
  rw [h.waiting]
  rcases waitingAfter_cases (otherPort p) s.env.contests s.env.waiting with hn | ⟨w, -, hp, hw⟩
  · exact ⟨_, hn, otherPort_otherPort p⟩
  · exact ⟨w, hw, hp.trans (otherPort_otherPort p)⟩

/-- An agent that waits already goes on waiting since the same contest. -/
theorem LosesContest.keeps_waiting {p : Port} {s t : State} {w : Waiting} (h : LosesContest p s t)
    (hw : s.env.waiting = some w) (hp : w.port = p) : t.env.waiting = some w := by
  rw [h.waiting, hw, waitingAfter, hp, if_neg (ne_otherPort p)]

/-! ### Weak fairness -/

/-- How many contests an agent that waits as in `w` can still lose: those the environment's list decides, and those that
its patience leaves. -/
def contestsLeft (w : Waiting) (e : Env) : Nat :=
  e.grants.length + (w.since + Config.arbiterPatience w.since + 1 - e.contests)

/-- Each contest lost leaves fewer to lose: its patience not being used up, or the list not. -/
theorem LosesContest.contestsLeft_lt {p : Port} {s t : State} {w : Waiting} (h : LosesContest p s t)
    (hw : s.env.waiting = some w) (hp : w.port = p) : contestsLeft w t.env < contestsLeft w s.env := by
  unfold contestsLeft
  rw [h.grants, h.contests, List.length_tail]
  cases hg : s.env.grants with
  | nil =>
    have hpat : ¬ Config.arbiterPatience w.since < s.env.contests - w.since := fun hlt =>
      ne_otherPort p (hp.symm.trans ((nextGrant_of_patience hg hw hlt).symm.trans h.granted))
    simp only [List.length_nil]
    omega
  | cons q later =>
    simp only [List.length_cons]
    omega

section
variable {r : Nat → State} {p : Port}

/-- Until some agent moves, the host's words leave a step as it is and the arbiter alone. -/
theorem execution_within (hr : Run r) {d n : Nat} (hd : ∃ q, Executes q (r (n + d)) (r (n + d + 1)))
    (hp : portReady p (r n) = true) :
    ∃ m q, n ≤ m ∧ Executes q (r m) (r (m + 1)) ∧ portReady p (r m) = true ∧ (r m).env = (r n).env := by
  induction d generalizing n with
  | zero =>
    obtain ⟨q, hq⟩ := hd
    exact ⟨n, q, Nat.le_refl n, hq, hp, rfl⟩
  | succ d ih =>
    by_cases hx : ∃ q, Executes q (r n) (r (n + 1))
    · obtain ⟨q, hq⟩ := hx
      exact ⟨n, q, Nat.le_refl n, hq, hp, rfl⟩
    · have hnext : portReady p (r (n + 1)) = true ∧ (r (n + 1)).env = (r n).env := by
        have hmove := hr n
        generalize r (n + 1) = t at hmove hx ⊢
        cases hmove with
        | step hs => exact absurd (executes_of_step hs) hx
        | receive q ws => exact ⟨portReady_receive hp q ws, receive_env q ws _⟩
      obtain ⟨hp', henv⟩ := hnext
      obtain ⟨m, q, hm, hq, hpm, hem⟩ := ih (n := n + 1) (by rwa [Nat.add_right_comm n 1 d]) hp'
      exact ⟨m, q, by omega, hq, hpm, hem.trans henv⟩

/-- In a run that keeps stepping, some agent moves next, the arbiter standing as it does now. -/
theorem next_execution (hr : Run r) (hk : KeepsStepping r) {n : Nat} (hp : portReady p (r n) = true) :
    ∃ m q, n ≤ m ∧ Executes q (r m) (r (m + 1)) ∧ portReady p (r m) = true ∧ (r m).env = (r n).env := by
  obtain ⟨m, hm, hx⟩ := hk n
  obtain ⟨d, rfl⟩ := Nat.exists_eq_add_of_le hm
  exact execution_within hr hx hp

/-- An agent that waits moves once there is no contest left for it to lose, if not before. -/
theorem waiting_agent_moves (hr : Run r) (hk : KeepsStepping r) {w : Waiting} (hw : w.port = p) {b n : Nat}
    (hp : portReady p (r n) = true) (hwait : (r n).env.waiting = some w) (hb : contestsLeft w (r n).env ≤ b) :
    ∃ m, n ≤ m ∧ Executes p (r m) (r (m + 1)) := by
  induction b using Nat.strong_induction_on generalizing n with
  | _ b ih =>
    obtain ⟨m, q, hm, hq, hpm, hem⟩ := next_execution hr hk hp
    by_cases hqp : q = p
    · exact ⟨m, hm, hqp ▸ hq⟩
    · have hlost := hq.losesContest hpm hqp
      have hwm : (r m).env.waiting = some w := hem ▸ hwait
      have hlt : contestsLeft w (r (m + 1)).env < b :=
        Nat.lt_of_lt_of_le (hlost.contestsLeft_lt hwm hw) (hem ▸ hb)
      obtain ⟨m', hm', hx⟩ := ih _ hlt hlost.stillReady (hlost.keeps_waiting hwm hw) (Nat.le_refl _)
      exact ⟨m', by omega, hx⟩

/-- Every run that keeps stepping is weakly fair: an agent that has a step moves next, or loses a contest and waits. -/
theorem weaklyFair_of_keepsStepping (hr : Run r) (hk : KeepsStepping r) : WeaklyFair r := by
  intro p n hp
  obtain ⟨m, q, hm, hq, hpm, -⟩ := next_execution hr hk hp
  by_cases hqp : q = p
  · exact ⟨m, hm, hqp ▸ hq⟩
  · have hlost := hq.losesContest hpm hqp
    obtain ⟨w, hw, hwp⟩ := hlost.waits
    obtain ⟨m', hm', hx⟩ := waiting_agent_moves hr hk hwp hlost.stillReady hw (Nat.le_refl _)
    exact ⟨m', by omega, hx⟩

end

/-- Settles O10: the first three clauses are the cases of `choosePort`; the last is `weaklyFair_of_keepsStepping`. -/
theorem eitherAgentMayMoveAndNoneStarves : Obligations.EitherAgentMayMoveAndNoneStarves := by
  refine ⟨fun s p later hc hm hg => ?_, fun s hc hm => ?_, fun s hc hm => ?_, fun r => weaklyFair_of_keepsStepping⟩
  · rw [choosePort_contest hc hm, afterContest, nextGrant_of_grants hg, hg]
    rfl
  · simp only [choosePort, hc, hm]
    rfl
  · simp only [choosePort, hc, hm]
    rfl

end Sys2Proof.Machine
end

section
/-! 20_memory.md R76, R80, R82, R87: what the commands of one unit write, and that the two units commute. -/

namespace Sys2Proof.Machine

open Sys2Proof.Reference

/-! ### What the commands of each unit write -/

/-- A MOD command writes the error state, the modulator, TAP, SAMPLE_OUT and RSP_OUT alone (20_memory.md R87). -/
theorem Completes.mod_frame {s t : State} {i : Instr} (h : Completes s i t) (hi : isMod i.opcode = true) :
    t = { s with
      err := t.err
      mod := t.mod
      tap := t.tap
      out := { s.out with samples := t.out.samples, rsp := t.out.rsp } } := by
  cases h with
  | raised | modRejected | modConfigured | fed | modRequested | tapRead => rfl
  | _ => exact absurd hi Bool.false_ne_true

/-- A CONV command writes the error state, TIME, the converter, BYTE_OUT, TAG_OUT and RSP_OUT alone, and the model's own
record of the draws (20_memory.md R87). -/
theorem Completes.conv_frame {s t : State} {i : Instr} (h : Completes s i t) (hi : isConv i.opcode = true) :
    t = { s with
      err := t.err
      time := t.time
      conv := t.conv
      out := { t.out with samples := s.out.samples }
      env := t.env } := by
  cases h with
  | raised | convRejected | delivered => rfl
  | convConfigured _ _ _ _ hd =>
    rw [drawTime_frame hd]
    rfl
  | convRequested n hc hd1 hd2 =>
    rw [drawTime_frame hd2, drawTime_frame hd1]
    rfl
  | _ => exact absurd hi Bool.false_ne_true

/-- NOP, CSR.READ and ERR.CLEAR write no unit and no stream output (43_control.md R207). -/
theorem Completes.control_frame {s t : State} {i : Instr} (h : Completes s i t)
    (hi : i.opcode = .nop ∨ i.opcode = .csrRead ∨ i.opcode = .errClear) :
    t = { s with
      err := t.err
      time := t.time
      tSnapHi := t.tSnapHi
      out := { s.out with rsp := t.out.rsp }
      env := t.env } := by
  cases h with
  | raised | nop | csrRead | errClear => rfl
  | timeRead hd =>
    rw [drawTime_frame hd]
    rfl
  | _ => simp [Instr.opcode] at hi

/-- Settles O54: the frames of a MOD, a CONV and a control command. -/
theorem unitsShareOnlyErrorsAndReset : Obligations.UnitsShareOnlyErrorsAndReset := by
  intro i s t h
  have hi := completes_of_exec h
  obtain ⟨hparams, hports⟩ := hi.keeps_inputs
  refine ⟨hparams, hports .cmd, hports .msg, fun hm => ?_, fun hc => ?_, fun hn => ?_⟩
  · rw [hi.mod_frame hm]
    exact ⟨rfl, rfl, rfl, rfl, rfl, rfl⟩
  · rw [hi.conv_frame hc]
    exact ⟨rfl, rfl, rfl, rfl⟩
  · rw [hi.control_frame hn]
    exact ⟨rfl, rfl, rfl, rfl, rfl, rfl⟩

/-! ### The stream outputs (20_memory.md R76) -/

/-- Only the two requests emit on a port other than RSP_OUT. -/
theorem Completes.keeps_streams {s t : State} {i : Instr} (h : Completes s i t) (hm : i.opcode ≠ .modRequest)
    (hc : i.opcode ≠ .convRequest) : t.out = { s.out with rsp := t.out.rsp } := by
  cases h with
  | timeRead hd | convConfigured _ _ _ _ hd =>
    rw [drawTime_frame hd]
    rfl
  | modRequested => exact absurd rfl hm
  | convRequested => exact absurd rfl hc
  | _ => rfl

/-- MOD.REQUEST appends its samples; it has appended none where it raised an error. -/
theorem Completes.appends_samples {s t : State} {n : BitVec 24} (h : Completes s (.modRequest n) t) :
    ∃ xs, t.out.samples = s.out.samples ++ xs := by
  cases h with
  | raised => exact ⟨[], (List.append_nil _).symm⟩
  | modRequested => exact ⟨_, rfl⟩

/-- CONV.REQUEST appends its bytes and its tags; it has appended none where it raised an error. -/
theorem Completes.appends_bytes_tags {s t : State} {n : BitVec 24} (h : Completes s (.convRequest n) t) :
    (∃ bs, t.out.bytes = s.out.bytes ++ bs) ∧ ∃ ts, t.out.tags = s.out.tags ++ ts := by
  cases h with
  | raised => exact ⟨⟨[], (List.append_nil _).symm⟩, ⟨[], (List.append_nil _).symm⟩⟩
  | convRequested _ hc hd1 hd2 =>
    rw [drawTime_frame hd2, drawTime_frame hd1]
    exact ⟨⟨_, rfl⟩, ⟨_, rfl⟩⟩

/-- A port left alone has grown by nothing. -/
theorem grows_by_nothing {α : Type} {xs ys : List α} {P : Prop} (h : xs = ys) :
    ∃ zs, xs = ys ++ zs ∧ (P → zs = []) := ⟨[], by rw [h, List.append_nil], fun _ => rfl⟩

/-- Settles O28: a request appends to the ports of its own unit, and no other command emits on them. -/
theorem outputsComeOnlyFromTheirCommands : Obligations.OutputsComeOnlyFromTheirCommands := by
  intro i s t h
  have hi := completes_of_exec h
  cases i with
  | modRequest n =>
    obtain ⟨xs, hxs⟩ := hi.appends_samples
    have hframe := hi.mod_frame rfl
    exact ⟨⟨xs, hxs, fun hne => absurd rfl hne⟩, grows_by_nothing (by rw [hframe]), grows_by_nothing (by rw [hframe])⟩
  | convRequest n =>
    obtain ⟨⟨bs, hbs⟩, ⟨ts, hts⟩⟩ := hi.appends_bytes_tags
    have hframe := hi.conv_frame rfl
    exact ⟨grows_by_nothing (by rw [hframe]), ⟨bs, hbs, fun hne => absurd rfl hne⟩,
      ⟨ts, hts, fun hne => absurd rfl hne⟩⟩
  | _ =>
    rw [hi.keeps_streams nofun nofun]
    exact ⟨grows_by_nothing rfl, grows_by_nothing rfl, grows_by_nothing rfl⟩

/-! ### The effect of a command that raises no error, as a function of its own unit (20_memory.md R87) -/

/-- Raising an error shows in ERR_COUNT. -/
theorem recordError_ne (e : ErrorCode) (hdr : Word) (x : ErrState) : recordError e hdr x ≠ x := fun h => by
  have hcount := congrArg ErrState.count h
  rw [recordError_count] at hcount
  bv_omega

/-- What a MOD command writes when it raises no error: `m` and `tap` to its unit, `xs` and `ws` after what its output
ports have received. -/
def modEffect (m : ModState) (tap : TapMemory) (xs : List Sample) (ws : List Word) (s : State) : State :=
  { s with
    mod := m
    tap := tap
    out := { s.out with samples := s.out.samples ++ xs, rsp := s.out.rsp ++ ws } }

/-- What a CONV command writes when it raises no error: `c` to its unit, `v` to TIME with the model's own record `e` of
the draws, `bs`, `ts` and `ws` after what its output ports have received. -/
def convEffect (c : ConvState) (v : BitVec 64) (e : Env) (bs : List Byte) (ts : List Tag) (ws : List Word) (s : State) :
    State :=
  { s with
    time := v
    conv := c
    out := { s.out with bytes := s.out.bytes ++ bs, tags := s.out.tags ++ ts, rsp := s.out.rsp ++ ws }
    env := e }

@[simp] theorem modEffect_nil (m : ModState) (tap : TapMemory) (s : State) :
    modEffect m tap [] [] s = (s.setTap tap).setMod m := by
  simp [modEffect, State.setTap, State.setMod]

@[simp] theorem convEffect_nil (c : ConvState) (v : BitVec 64) (e : Env) (s : State) :
    convEffect c v e [] [] [] s = ((s.setTime v).setEnv e).setConv c := by
  simp [convEffect, State.setTime, State.setEnv, State.setConv]

/-- The parts of the state that a MOD command reads are the same. -/
structure State.SameForMod (s u : State) : Prop where
  params : u.params = s.params
  mod : u.mod = s.mod
  tap : u.tap = s.tap

/-- The parts of the state that a CONV command reads are the same. -/
structure State.SameForConv (s u : State) : Prop where
  params : u.params = s.params
  time : u.time = s.time
  conv : u.conv = s.conv
  env : u.env = s.env

theorem exec_modConfig_of_tapSet (dbg : Bool) {sps : BitVec 16} {alpha : Word} {taps : List Word} {s : State}
    (h0 : sps ≠ 0#16) (hs : sps.toNat ≤ s.params.spsMax) (ha : alphaLegal alpha = true)
    (ht : tapSet s.params.tapRound sps.toNat alpha = some taps) :
    exec (.modConfig dbg 0#7 sps alpha) s =
      .next ((s.setTap (tapWriteFrom s.tap 0 taps)).setMod (constructedMod dbg sps alpha)) := by
  simp [exec, execModConfig, h0, Nat.not_lt.2 hs, ha, ht]

theorem exec_modFeed_of_room (byte : Byte) {s : State} (hc : s.mod.cfg = true)
    (hf : s.mod.inFifo.length ≠ s.params.inDepth) :
    exec (.modFeed 0#16 byte) s = .next (s.setMod { s.mod with inFifo := s.mod.inFifo ++ [byte] }) := by
  simp [exec, execModFeed, hc, hf]

theorem exec_tapRead_of_lt {i : BitVec 16} {s : State} (hc : s.mod.cfg = true) (hi : i.toNat < s.mod.nTaps.toNat) :
    exec (.tapRead 0#8 i) s = .next (emitRsp [tapRead s.tap i.toNat] s) := by
  simp [exec, execTapRead, hc, Nat.not_le.2 hi]

theorem exec_convConfig_of_draw (dbg : Bool) {len : BitVec 8} {lo hi : Word} (name : List Word) {v : BitVec 64}
    {s s1 : State} (hr : rateOf lo hi ≠ 0#64) (hl : len.toNat ≤ s.params.tagNameMax) (hd : drawTime s = some (v, s1)) :
    exec (.convConfig dbg 0#15 len lo hi name) s =
      .next (s1.setConv (constructedConv dbg (rateOf lo hi) len (unpackBytes len.toNat name) v)) := by
  simp [exec, execConvConfig, hr, Nat.not_lt.2 hl, hd]

theorem exec_msgDeliver_of_cfg (kind : BitVec 4) (len : BitVec 20) (payload : List Word) {s : State}
    (hc : s.conv.cfg = true) :
    exec (.msgDeliver kind len payload) s =
      .next (s.setConv (deliverTo s.params kind len.toNat (unpackBytes len.toNat payload) s.conv)) := by
  simp [exec, execMsgDeliver, hc]

theorem exec_convRequest_of_draws (n : BitVec 24) {t1 t2 : BitVec 64} {s s1 s2 : State} (hc : s.conv.cfg = true)
    (hd1 : drawTime s = some (t1, s1)) (hd2 : drawTime s1 = some (t2, s2)) :
    exec (.convRequest n) s = .next (afterDrain s s2 t2 (drainAt s t1 n)) := by
  simp [exec, execConvRequest, hc, hd1, hd2, afterDrain, drainAt]

/-- The value drawn is the new TIME. -/
theorem drawTime_time {s t : State} {v : BitVec 64} (h : drawTime s = some (v, t)) : t.time = v := by
  rw [drawTime_frame h]

/-- A draw of TIME depends on TIME and on the environment's record of the draws alone (10_state.md R48). -/
theorem drawTime_congr {s t u : State} {v : BitVec 64} (htime : u.time = s.time) (henv : u.env = s.env)
    (h : drawTime s = some (v, t)) : drawTime u = some (v, (u.setTime v).setEnv t.env) := by
  have hadv : nextAdvance u = nextAdvance s := by rw [nextAdvance, nextAdvance, henv]
  unfold drawTime at h ⊢
  rw [htime, henv, hadv]
  split at h
  · rename_i hlt
    cases h
    rw [if_pos hlt]
    rfl
  · cases h

@[simp] theorem afterDrain_conv (s s2 : State) (v : BitVec 64) (r : DrainResult) :
    (afterDrain s s2 v r).conv =
      { r.conv with wcount := s.conv.wcount + BitVec.ofNat 64 r.bytes.length, lastT := v } := rfl
@[simp] theorem afterDrain_time (s s2 : State) (v : BitVec 64) (r : DrainResult) :
    (afterDrain s s2 v r).time = s2.time := by simp [afterDrain]
@[simp] theorem afterDrain_env (s s2 : State) (v : BitVec 64) (r : DrainResult) :
    (afterDrain s s2 v r).env = s2.env := by simp [afterDrain]

/-- After its two draws CONV.REQUEST writes the parts of the state that `convEffect` names. -/
theorem afterDrain_eq_convEffect (u : State) (t1 t2 : BitVec 64) (e1 e2 : Env) (r : DrainResult) :
    afterDrain u ((((u.setTime t1).setEnv e1).setTime t2).setEnv e2) t2 r =
      convEffect { r.conv with wcount := u.conv.wcount + BitVec.ofNat 64 r.bytes.length, lastT := t2 } t2 e2 r.bytes
        r.tags [BitVec.ofNat 32 r.bytes.length] u := by
  simp only [afterDrain, convEffect, emitRsp, emitTags, emitBytes, State.setOut, State.setConv, State.setTime,
    State.setEnv]

/-- A MOD command that raises no error has one effect on every state with the same modulator. -/
theorem exec_mod_of_no_error {i : Instr} {s a : State} (hi : isMod i.opcode = true) (h : exec i s = .next a)
    (he : a.err = s.err) :
    ∃ xs ws, ws.length = responseWords i.opcode ∧
      ∀ u, s.SameForMod u → exec i u = .next (modEffect a.mod a.tap xs ws u) := by
  cases completes_of_exec h with
  | raised | modRejected => exact absurd he (recordError_ne _ _ _)
  | modConfigured dbg h0 hs ha ht =>
    refine ⟨[], [], rfl, fun u hu => ?_⟩
    rw [exec_modConfig_of_tapSet dbg h0 (hu.params ▸ hs) ha (hu.params ▸ ht), modEffect_nil, hu.tap]
    rfl
  | fed byte hc hf =>
    refine ⟨[], [], rfl, fun u hu => ?_⟩
    rw [exec_modFeed_of_room byte (hu.mod ▸ hc) (hu.params ▸ hu.mod ▸ hf), modEffect_nil, State.setMod_tap, ← hu.tap,
      hu.mod]
    rfl
  | modRequested n hc =>
    have hfill : ∀ u, s.SameForMod u → fillFor u n = fillFor s n := fun u hu => by
      rw [fillFor, hu.params, hu.mod, hu.tap, ← fillFor]
    refine ⟨(fillFor s n).samples,
      [BitVec.ofNat 32 (fillFor s n).samples.length, BitVec.ofNat 32 (fillFor s n).consumed], rfl, fun u hu => ?_⟩
    rw [exec_modRequest_of_cfg n (hu.mod ▸ hc), hfill u hu, emitRsp_tap, emitSamples_tap, State.setMod_tap, ← hu.tap]
    rfl
  | @tapRead idx hc hlt =>
    refine ⟨[], [tapRead s.tap idx.toNat], rfl, fun u hu => ?_⟩
    rw [exec_tapRead_of_lt (hu.mod ▸ hc) (hu.mod ▸ hlt), emitRsp_mod, emitRsp_tap, ← hu.tap, ← hu.mod, modEffect,
      List.append_nil]
    rfl
  | _ => exact absurd hi Bool.false_ne_true

/-- A CONV command that raises no error has one effect on every state with the same converter, TIME and record of the
draws. -/
theorem exec_conv_of_no_error {i : Instr} {s a : State} (hi : isConv i.opcode = true) (h : exec i s = .next a)
    (he : a.err = s.err) :
    ∃ bs ts ws, ws.length = responseWords i.opcode ∧
      ∀ u, s.SameForConv u → exec i u = .next (convEffect a.conv a.time a.env bs ts ws u) := by
  cases completes_of_exec h with
  | raised | convRejected => exact absurd he (recordError_ne _ _ _)
  | convConfigured dbg name hr hl hd =>
    have htime := drawTime_time hd
    refine ⟨[], [], [], rfl, fun u hu => ?_⟩
    rw [exec_convConfig_of_draw dbg name hr (hu.params ▸ hl) (drawTime_congr hu.time hu.env hd), convEffect_nil,
      State.setConv_time, htime]
    rfl
  | delivered kind len payload hc =>
    refine ⟨[], [], [], rfl, fun u hu => ?_⟩
    rw [exec_msgDeliver_of_cfg kind len payload (hu.conv ▸ hc), convEffect_nil, State.setConv_time, State.setConv_env,
      ← hu.time, ← hu.env, hu.params, hu.conv]
    rfl
  | @convRequested n t1 t2 s1 s2 hc hd1 hd2 =>
    have hdrain : ∀ u, s.SameForConv u → drainAt u t1 n = drainAt s t1 n := fun u hu => by
      rw [drainAt, hu.params, hu.conv, ← drainAt]
    refine ⟨(drainAt s t1 n).bytes, (drainAt s t1 n).tags, [BitVec.ofNat 32 (drainAt s t1 n).bytes.length], rfl,
      fun u hu => ?_⟩
    rw [exec_convRequest_of_draws n (hu.conv ▸ hc) (drawTime_congr hu.time hu.env hd1)
      (drawTime_congr (drawTime_time hd1).symm rfl hd2), hdrain u hu, afterDrain_eq_convEffect, hu.conv,
      afterDrain_conv, afterDrain_time, afterDrain_env, drawTime_time hd2]
  | _ => exact absurd hi Bool.false_ne_true

/-- Settles O55: neither effect touches what the other command reads, so each has its own effect in either order. -/
theorem unitsCommute : Obligations.UnitsCommute := by
  intro i j s a b c hi hj ha hb hc hae hbe
  obtain ⟨xs, ws, hws, hmod⟩ := exec_mod_of_no_error hi ha hae
  obtain ⟨bs, ts, vs, hvs, hconv⟩ := exec_conv_of_no_error hj hb hbe
  have hs : a = modEffect a.mod a.tap xs ws s := Host.Outcome.next.inj (ha.symm.trans (hmod s ⟨rfl, rfl, rfl⟩))
  have hsb : b = convEffect b.conv b.time b.env bs ts vs a :=
    Host.Outcome.next.inj (hb.symm.trans (hconv a ⟨rfl, rfl, rfl, rfl⟩))
  have hsc : c = convEffect b.conv b.time b.env bs ts vs s :=
    Host.Outcome.next.inj (hc.symm.trans (hconv s (by rw [hs]; exact ⟨rfl, rfl, rfl, rfl⟩)))
  refine ⟨ws, vs, hws, hvs, ?_, ?_⟩
  · rw [hsb, hs]
    rfl
  · rw [hmod c (by rw [hsc]; exact ⟨rfl, rfl, rfl⟩), hsc, hsb, hs]
    rfl

end Sys2Proof.Machine
end

section
/-! 30_encoding.md R90-R101, R104: the decoder and the encoder are inverse to each other, the header alone decides the
length of a command, and what illegal headers, response words and reserved fields do. -/

namespace Sys2Proof.Machine

open Sys2Proof.Reference

/-! ### From a command to its words and back (30_encoding.md R90, R92, R97) -/

/-- A well-formed command has as many payload words as its header asks for (30_encoding.md R93). -/
theorem payloadWords_header {i : Instr} (h : i.wf = true) : payloadWords i.opcode i.header = i.payload.length := by
  cases i with
  | convConfig dbg reserved len rateLo rateHi name =>
    have hname : name.length = wordsFor len.toNat := beq_iff_eq.1 h
    rw [Instr.opcode, payloadWords, Laws.EncodeLength.convConfig_len, Instr.payload, List.length_cons, List.length_cons,
      hname]
    omega
  | msgDeliver kind len payload =>
    have hpayload : payload.length = wordsFor len.toNat := beq_iff_eq.1 h
    rw [Instr.opcode, payloadWords, Laws.EncodeLength.msgDeliver_len, Instr.payload, hpayload]
  | _ => rfl

/-- A field of ARG stands in the header at its own place. -/
theorem header_extractLsb' (i : Instr) {start len : Nat} (h : start + len ≤ 24) :
    i.header.extractLsb' start len = i.arg.extractLsb' start len := extract_of_low _ _ h

/-- The fields of an ARG of two (30_encoding.md R92). -/
theorem header_two_fields (i : Instr) {n m : Nat} {x : BitVec n} {y : BitVec m} (hw : n + m = 24)
    (ha : i.arg = (x ++ y).cast hw) : i.header.extractLsb' m n = x ∧ i.header.extractLsb' 0 m = y := by
  rw [header_extractLsb' i (by omega), header_extractLsb' i (by omega), ha, BitVec.extractLsb'_cast,
    BitVec.extractLsb'_cast]
  exact ⟨extract_high x y, extract_low x y⟩

/-- The fields of an ARG whose highest bit is DBG (30_encoding.md R92). -/
theorem header_dbg_fields (i : Instr) {n m : Nat} {dbg : Bool} {x : BitVec n} {y : BitVec m} (hw : 1 + n + m = 24)
    (ha : i.arg = (BitVec.ofBool dbg ++ x ++ y).cast hw) :
    dbgField i.header = dbg ∧ i.header.extractLsb' m n = x ∧ i.header.extractLsb' 0 m = y := by
  refine ⟨?_, ?_, (header_two_fields i hw ha).2⟩
  · have hy : ¬ 23 < m := by omega
    have hx : ¬ 23 - m < n := by omega
    have hdbg : 23 - m - n = 0 := by omega
    have harg : dbgField i.header = i.arg.getLsbD 23 := by
      rw [← argField_header, dbgField, argField, BitVec.getLsbD_extractLsb']
      rfl
    rw [harg, ha, BitVec.getLsbD_cast, BitVec.getLsbD_append, if_neg hy, BitVec.getLsbD_append, if_neg hx, hdbg]
    exact BitVec.getLsbD_ofBool dbg 0
  · rw [header_extractLsb' i (by omega), ha, BitVec.extractLsb'_cast, extract_of_high _ _ le_rfl, Nat.sub_self,
      extract_low]

/-- Every command is assembled again from its opcode, its header and its payload. -/
theorem assembleInstr_self (i : Instr) : assembleInstr i.opcode i.header i.payload = i := by
  cases i with
  | nop | reset | errClear | modRequest | convRequest => exact congrArg _ (argField_header _)
  | csrRead reserved idx =>
    obtain ⟨hreserved, hidx⟩ := header_two_fields (.csrRead reserved idx) rfl rfl
    exact congrArg₂ _ hreserved hidx
  | modFeed reserved byte =>
    obtain ⟨hreserved, hbyte⟩ := header_two_fields (.modFeed reserved byte) rfl rfl
    exact congrArg₂ _ hreserved hbyte
  | tapRead reserved idx =>
    obtain ⟨hreserved, hidx⟩ := header_two_fields (.tapRead reserved idx) rfl rfl
    exact congrArg₂ _ hreserved hidx
  | msgDeliver kind len payload =>
    obtain ⟨hkind, hlen⟩ := header_two_fields (.msgDeliver kind len payload) rfl rfl
    exact congrArg₂ (Instr.msgDeliver · · payload) hkind hlen
  | modConfig dbg reserved sps alpha =>
    obtain ⟨hdbg, hreserved, hsps⟩ := header_dbg_fields (.modConfig dbg reserved sps alpha) rfl rfl
    rw [Instr.opcode, assembleInstr, hdbg, hreserved, hsps]
    rfl
  | convConfig dbg reserved len rateLo rateHi name =>
    obtain ⟨hdbg, hreserved, hlen⟩ := header_dbg_fields (.convConfig dbg reserved len rateLo rateHi name) rfl rfl
    rw [Instr.opcode, assembleInstr, hdbg, hreserved, hlen]
    rfl

/-- On a port that admits it, the words of a well-formed command decode to it and leave what follows. -/
theorem decode_encode_append {p : Port} {i : Instr} (hwf : i.wf = true) (ha : admits p i.opcode = true)
    (rest : List Word) : decode p (encode i ++ rest) = .command i rest := by
  have hlen := payloadWords_header hwf
  have hop : opcodeOn p i.header = some i.opcode := by rw [opcodeOn_header, if_pos ha]
  refine decode_eq_command.2 ⟨i.header, i.payload ++ rest, i.opcode, rfl, hop, ?_, ?_, ?_⟩
  · rw [hlen, List.length_append]
    exact Nat.le_add_right _ _
  · rw [hlen, List.take_left, assembleInstr_self]
  · rw [hlen, List.drop_left]

/-- Settles O1: the CMD port admits every command (30_encoding.md R94). -/
theorem cmdPortDecodesEveryEncodedCommand : Obligations.CmdPortDecodesEveryEncodedCommand :=
  fun _ rest hwf => decode_encode_append hwf rfl rest

/-- The MSG port admits NOP and MSG.DELIVER alone (30_encoding.md R94). -/
theorem admits_msg {op : Opcode} : admits .msg op = true ↔ op = .nop ∨ op = .msgDeliver := by
  cases op <;> decide

/-- Settles O2: a command that is not admitted leaves a header that names none. -/
theorem msgPortDecodesOnlyNopAndDeliver : Obligations.MsgPortDecodesOnlyNopAndDeliver := by
  intro i rest hwf
  split
  · exact decode_encode_append hwf (admits_msg.2 ‹_›) rest
  · exact decode_eq_illegal.2 ⟨rfl, by rw [opcodeOn_header, if_neg (mt admits_msg.1 ‹_›)]⟩

/-! ### From words to the command and back (30_encoding.md R101) -/

/-- The fields of a header make up its ARG: no bit is dropped (30_encoding.md R92). -/
theorem assembleInstr_arg (op : Opcode) (hdr : Word) (payload : List Word) :
    (assembleInstr op hdr payload).arg = argField hdr := by
  have hdbg : BitVec.ofBool (dbgField hdr) = hdr.extractLsb' 23 1 := by
    apply BitVec.eq_of_getLsbD_eq
    intro j hj
    obtain rfl : j = 0 := by omega
    simp [dbgField]
  cases op with
  | nop | reset | errClear | modRequest | convRequest => rfl
  | csrRead | modFeed | tapRead | msgDeliver => exact BitVec.extractLsb'_append_extractLsb'_eq_extractLsb' rfl
  | modConfig =>
    rw [assembleInstr, Instr.arg, hdbg,
      BitVec.extractLsb'_append_extractLsb'_eq_extractLsb' (show 23 = 16 + 7 from rfl)]
    exact BitVec.extractLsb'_append_extractLsb'_eq_extractLsb' rfl
  | convConfig =>
    rw [assembleInstr, Instr.arg, hdbg,
      BitVec.extractLsb'_append_extractLsb'_eq_extractLsb' (show 23 = 8 + 15 from rfl)]
    exact BitVec.extractLsb'_append_extractLsb'_eq_extractLsb' rfl

@[simp] theorem assembleInstr_opcode (op : Opcode) (hdr : Word) (payload : List Word) :
    (assembleInstr op hdr payload).opcode = op := by
  cases op <;> rfl

/-- A command has the header it was assembled from. -/
theorem assembleInstr_header {op : Opcode} {hdr : Word} (payload : List Word) (h : opcField hdr = op.code) :
    (assembleInstr op hdr payload).header = hdr := by
  rw [Instr.header, assembleInstr_opcode, assembleInstr_arg, ← h, header_eq_append]

/-- A command assembled from as many words as its header asks for has those words as its payload. -/
theorem assembleInstr_payload {op : Opcode} {hdr : Word} {payload : List Word}
    (h : payload.length = payloadWords op hdr) : (assembleInstr op hdr payload).payload = payload := by
  cases op with
  | modConfig =>
    obtain ⟨alpha, rfl⟩ := List.length_eq_one_iff.1 h
    rfl
  | convConfig =>
    match payload, h with
    | [], h | [_], h => simp [payloadWords] at h; omega
    | rateLo :: rateHi :: name, _ => rfl
  | msgDeliver => rfl
  | _ => exact (List.eq_nil_of_length_eq_zero h).symm

/-- Settles O3: the header and the payload of a decoded command are those it was assembled from. -/
theorem decodedCommandsEncodeBack : Obligations.DecodedCommandsEncodeBack := by
  intro p ws i rest h
  have hwf := decode_command_wf h
  obtain ⟨hdr, tl, op, rfl, ho, hle, rfl, rfl⟩ := decode_eq_command.1 h
  obtain ⟨hcode, ha⟩ := opcodeOn_eq_some ho
  refine ⟨hwf, ?_, ?_⟩
  · rintro rfl
    rw [assembleInstr_opcode]
    exact admits_msg.1 ha
  · rw [encode, assembleInstr_header _ hcode, assembleInstr_payload (List.length_take_of_le hle), List.cons_append,
      List.take_append_drop]

/-! ### The length a header decides (30_encoding.md R93) -/

/-- `wordsFor` is the ceiling it stands for. -/
theorem wordsFor_eq_ceil (n : Nat) : wordsFor n = ⌈(n : ℚ) / 4⌉₊ := by
  refine eq_of_forall_ge_iff fun k => ?_
  rw [Nat.ceil_le, div_le_iff₀ (by norm_num), wordsFor]
  norm_cast
  omega

theorem opcodeOn_of_code {p : Port} {hdr : Word} {op : Opcode} (h : opcField hdr = op.code) (ha : admits p op = true) :
    opcodeOn p hdr = some op := by
  simp [opcodeOn, h, ha]

theorem commandLength_of_some {p : Port} {hdr : Word} {op : Opcode} (h : opcodeOn p hdr = some op) :
    commandLength p hdr = 1 + payloadWords op hdr := by
  rw [commandLength, h]

theorem commandLength_of_none {p : Port} {hdr : Word} (h : opcodeOn p hdr = none) : commandLength p hdr = 1 := by
  rw [commandLength, h]

/-- A command without payload, and a header that names no command on the port, is one word long. -/
theorem commandLength_eq_one {p : Port} {hdr : Word}
    (h : ∀ op, admits p op = true → opcField hdr = op.code → op ≠ .modConfig ∧ op ≠ .convConfig ∧ op ≠ .msgDeliver) :
    commandLength p hdr = 1 := by
  cases ho : opcodeOn p hdr with
  | none => exact commandLength_of_none ho
  | some op =>
    obtain ⟨hcode, ha⟩ := opcodeOn_eq_some ho
    obtain ⟨hmod, hconv, hmsg⟩ := h op ha hcode
    rw [commandLength_of_some ho]
    cases op with
    | modConfig => exact absurd rfl hmod
    | convConfig => exact absurd rfl hconv
    | msgDeliver => exact absurd rfl hmsg
    | _ => rfl

/-- A command is not received until all its words are there (20_memory.md R75). -/
theorem decode_eq_incomplete {p : Port} {hdr : Word} {ws : List Word} :
    decode p (hdr :: ws) = .incomplete ↔ ws.length + 1 < commandLength p hdr := by
  cases ho : opcodeOn p hdr with
  | none => simp [decode, ho, commandLength_of_none ho]
  | some op =>
    simp only [decode, ho, hasWords_iff, commandLength_of_some ho]
    split
    · simp only [reduceCtorEq, false_iff]
      omega
    · simp only [true_iff]
      omega

/-- Settles O4: the length follows from the opcode the header names, and `decode` takes that many words. -/
theorem headerDecidesLength : Obligations.HeaderDecidesLength := by
  intro p hdr
  refine ⟨?_, ?_, ?_, ?_, fun ws => ⟨decode_eq_incomplete, ?_, ?_⟩⟩
  · rintro rfl hcode
    exact commandLength_of_some (opcodeOn_of_code (op := .modConfig) hcode rfl)
  · rintro rfl hcode
    rw [commandLength_of_some (opcodeOn_of_code (op := .convConfig) hcode rfl), payloadWords, wordsFor_eq_ceil]
    omega
  · intro hcode
    rw [commandLength_of_some (opcodeOn_of_code (op := .msgDeliver) hcode (by cases p <;> rfl)), payloadWords,
      wordsFor_eq_ceil]
  · intro h
    refine commandLength_eq_one fun op ha hcode => ?_
    rcases h with ⟨hmod, hconv, hmsg⟩ | ⟨rfl, hmsg⟩
    · refine ⟨?_, ?_, ?_⟩ <;> rintro rfl
      · exact hmod hcode
      · exact hconv hcode
      · exact hmsg hcode
    · obtain rfl | rfl := admits_msg.1 ha
      · decide
      · exact absurd hcode hmsg
  · intro i rest h
    obtain ⟨_, _, hw, hrest, -⟩ := decode_command_length h
    rwa [← (List.cons.inj hw).1] at hrest
  · intro h rest hd
    obtain ⟨hw, ho⟩ := decode_eq_illegal.1 hd
    obtain ⟨rfl, rfl⟩ := List.cons.inj hw
    exact ⟨rfl, by rw [commandLength_of_none ho]; rfl⟩

/-! ### Illegal headers (30_encoding.md R99) -/

/-- A header names no command on a port when no command admitted there has its OPC. -/
theorem opcodeOn_eq_none {p : Port} {hdr : Word} (h : ∀ op, admits p op = true → opcField hdr ≠ op.code) :
    opcodeOn p hdr = none := by
  cases ho : opcodeOn p hdr with
  | none => rfl
  | some op =>
    obtain ⟨hcode, ha⟩ := opcodeOn_eq_some ho
    exact absurd hcode (h op ha)

/-- No defined OPC lies in the ranges that R99 lists. -/
theorem code_not_undefined (op : Opcode) :
    ¬ ((0x04#8 ≤ op.code ∧ op.code ≤ 0x0F#8) ∨ (0x14#8 ≤ op.code ∧ op.code ≤ 0x1F#8) ∨ 0x23#8 ≤ op.code) := by
  cases op <;> decide

/-- The step of an agent whose header names no command on its port takes that one word and raises ILLEGAL_OPCODE. -/
theorem step_of_illegal {p : Port} {s s1 : State} {hdr : Word} {rest : List Word} (hl : s.params.legal)
    (hc : choosePort s = some (p, s1)) (hw : (s.port p).words = hdr :: rest) (ho : opcodeOn p hdr = none) :
    step s = .next (raiseError .illegalOpcode hdr 0 (s1.setPort p { words := rest, pos := (s.port p).pos + 1 })) := by
  have hd : decode p (hdr :: rest) = .illegal hdr rest := decode_eq_illegal.2 ⟨rfl, ho⟩
  have hfetch : fetch s = .illegal (raiseError .illegalOpcode hdr 0 (consume p rest s1)) := by
    rw [fetch_of_choosePort hc, fetchOn, choosePort_port hc, hw, hd]
  rw [step, if_pos hl, hfetch, consume, choosePort_port hc, hw, List.headD_cons, commandLength_of_none ho]

/-- Settles O6: no command admitted on the port has an OPC of these. -/
theorem otherOpcodesAreIllegal : Obligations.OtherOpcodesAreIllegal := by
  intro p s s1 hdr rest hl hc hw h
  have ho : opcodeOn p hdr = none := by
    refine opcodeOn_eq_none fun op ha hcode => ?_
    rw [show hdr.extractLsb' 24 8 = op.code from hcode] at h
    rcases h with ⟨-, hrange⟩ | ⟨rfl, hnop, hmsg⟩
    · exact code_not_undefined op hrange
    · obtain rfl | rfl := admits_msg.1 ha
      · exact hnop rfl
      · exact hmsg rfl
  rw [step_of_illegal hl hc hw ho, raiseError_eq_raised]
  rfl

/-! ### Response words (30_encoding.md R95) -/

/-- The encoder's count of RSP_OUT words is the table's. -/
theorem rspWords_eq (i : Instr) : i.rspWords = responseWords i.opcode := by
  cases i <;> rfl

/-- Settles O27: a completed command answers by `emitRsp`, or raises an error with a zero for each word (R98, R223). -/
theorem commandsAnswerTheirResponseWords : Obligations.CommandsAnswerTheirResponseWords := by
  intro i s t h
  cases completes_of_exec h with
  | raised e i => exact ⟨_, by rw [List.length_replicate, rspWords_eq], rfl⟩
  | timeRead hd =>
    rw [drawTime_frame hd]
    exact ⟨_, rfl, rfl⟩
  | csrRead | modRequested | tapRead => exact ⟨_, rfl, rfl⟩
  | modRejected | convRejected => exact ⟨[], rfl, rfl⟩
  | convConfigured _ _ _ _ hd =>
    rw [drawTime_frame hd]
    exact ⟨[], rfl, (List.append_nil _).symm⟩
  | convRequested n hc hd1 hd2 =>
    rw [drawTime_frame hd2, drawTime_frame hd1]
    exact ⟨_, rfl, rfl⟩
  | _ => exact ⟨[], rfl, (List.append_nil _).symm⟩

/-! ### Reserved fields (30_encoding.md R98) -/

/-- A command that raises RESERVED_NONZERO has the effect that 60_exceptions.md R223 writes. -/
theorem exec_eq_raised_of_reserved {i : Instr} {hdr : Word} {s : State}
    (he : exec i s = .next (raiseIn .reservedNonzero i s)) (hh : i.header = hdr) :
    exec i s = .next (raised 0x02#8 hdr (responseWords i.opcode) s) := by
  rw [he, raiseIn, raiseError_eq_raised, hh, rspWords_eq]
  rfl

/-- The header of a command whose ARG has three fields, joined from the left. -/
theorem append_three_fields {a b c d : Nat} (w : BitVec a) (x : BitVec b) (y : BitVec c) (z : BitVec d) :
    w ++ (x ++ y ++ z) = (w ++ x ++ y ++ z).cast (by omega) := by
  rw [BitVec.append_assoc', BitVec.append_assoc']
  rfl

/-- Settles O23: each of the seven commands looks at its reserved field first. -/
theorem reservedBitsRaiseReservedNonzero : Obligations.ReservedBitsRaiseReservedNonzero := by
  intro s
  refine ⟨fun r hr => ?_, fun r idx hr => ?_, fun r hr => ?_, fun d r sps alpha hr => ?_, fun r b hr => ?_,
    fun r i hr => ?_, fun d r len lo hi name hr => ?_⟩
  · exact exec_eq_raised_of_reserved (if_pos hr) rfl
  · exact exec_eq_raised_of_reserved (if_pos hr) (BitVec.append_assoc' ..)
  · exact exec_eq_raised_of_reserved (if_pos hr) rfl
  · exact exec_eq_raised_of_reserved (if_pos hr) (append_three_fields ..)
  · exact exec_eq_raised_of_reserved (if_pos hr) (BitVec.append_assoc' ..)
  · exact exec_eq_raised_of_reserved (if_pos hr) (BitVec.append_assoc' ..)
  · exact exec_eq_raised_of_reserved (if_pos hr) (append_three_fields ..)

/-! ### The worked encodings (30_encoding.md R104) -/

/-- The words of a well-formed command, alone on the CMD port, decode to it. -/
theorem decode_cmd_of_encode {ws : List Word} {i : Instr} (hwf : i.wf = true) (hw : encode i = ws) :
    decode .cmd ws = .command i [] := by
  rw [← hw, ← List.append_nil (encode i)]
  exact decode_encode_append hwf rfl []

/-- Settles O5: the assembler is run on each line; each sequence is the encoding of its command, which decodes to it. -/
theorem workedEncodingsAssembleAndDecode : Obligations.WorkedEncodingsAssembleAndDecode := by
  refine ⟨?_, ?_, ?_, ?_, ?_, ?_, ?_, ?_, ?_, ?_, ?_, ?_, ?_, ?_, ?_⟩
  iterate 6 · decide +kernel
  iterate 4 · exact decode_cmd_of_encode rfl rfl
  iterate 2 · rfl
  · exact decode_cmd_of_encode rfl rfl
  · rfl
  · exact decode_cmd_of_encode rfl rfl

end Sys2Proof.Machine
end

section
/-! 40_configuration.md R121-R123, R130-R133: MOD.CONFIG and CONV.CONFIG construct their unit, or reject their operands
and leave it as after reset. -/

namespace Sys2Proof.Machine

open Sys2Proof.Reference

/-- A command that raises an error has the effect that 60_exceptions.md R223 writes. -/
theorem raiseIn_eq_raised (e : ErrorCode) {i : Instr} {hdr : Word} (hh : i.header = hdr) (s : State) :
    raiseIn e i s = raised e.code hdr i.rspWords s := by
  rw [raiseIn, raiseError_eq_raised, hh]

/-! ### MOD.CONFIG -/

/-- The header of a MOD.CONFIG with its reserved bits clear. -/
theorem modConfig_header (dbg : Bool) (sps : BitVec 16) (alpha : Word) :
    (Instr.modConfig dbg 0#7 sps alpha).header = 0x10#8 ++ BitVec.ofBool dbg ++ 0#7 ++ sps :=
  append_three_fields 0x10#8 (BitVec.ofBool dbg) 0#7 sps

/-- S is 0 exactly where its word is. -/
theorem sps_eq_zero_iff {sps : BitVec 16} : sps.toNat = 0 ↔ sps = 0#16 :=
  ⟨fun h => BitVec.eq_of_toNat_eq h, fun h => h ▸ rfl⟩

theorem exec_modConfig_of_badSps (dbg : Bool) {sps : BitVec 16} (alpha : Word) {s : State}
    (h : sps = 0#16 ∨ s.params.spsMax < sps.toNat) :
    exec (.modConfig dbg 0#7 sps alpha) s =
      .next (raiseIn .badSps (.modConfig dbg 0#7 sps alpha) (modClear s)) := by
  simp [exec, execModConfig, h]

theorem exec_modConfig_of_badAlpha (dbg : Bool) {sps : BitVec 16} {alpha : Word} {s : State} (h0 : sps ≠ 0#16)
    (hs : sps.toNat ≤ s.params.spsMax) (ha : alphaLegal alpha = false) :
    exec (.modConfig dbg 0#7 sps alpha) s =
      .next (raiseIn .badAlpha (.modConfig dbg 0#7 sps alpha) (modClear s)) := by
  simp [exec, execModConfig, h0, Nat.not_lt.2 hs, ha]

/-- Settles O30: S is looked at before ALPHA. -/
theorem modConfigRejectsBadSps : Obligations.ModConfigRejectsBadSps := by
  intro d sps alpha s h
  rw [exec_modConfig_of_badSps d alpha (h.imp_left sps_eq_zero_iff.1),
    raiseIn_eq_raised _ (modConfig_header d sps alpha)]
  rfl

/-- Settles O29: TAP is written from 0 on, so a read below the set's length answers its word (`tapRead_tapWriteFrom`). -/
theorem modConfigConstructs : Obligations.ModConfigConstructs := by
  intro d sps alpha taps s h1 hmax ha ht hwf
  have h0 : sps ≠ 0#16 := fun h => absurd (sps_eq_zero_iff.2 h) (by omega)
  have hlen := (tapSet_spec ht).1
  refine ⟨tapWriteFrom s.tap 0 taps, exec_modConfig_of_tapSet d h0 hmax ha ht, hlen, fun i hi => ?_, fun i hi => ?_⟩
  · rw [tapRead_tapWriteFrom hwf, if_pos (Nat.zero_le i), Nat.sub_zero, List.getElem?_eq_getElem (by omega)]
  · rw [tapRead_tapWriteFrom hwf, if_pos (Nat.zero_le i), Nat.sub_zero, List.getElem?_eq_none (by omega)]

/-! ### The roll-off (40_configuration.md R123) -/

/-- The machine's test of ALPHA: finite, not negative, and a magnitude from 1 to 2^149 units of 2^-149. -/
theorem alphaLegal_iff (alpha : Word) :
    alphaLegal alpha = true ↔
      Sys2Proof.Reference.Finite alpha ∧ f32Neg alpha = false ∧ 0 < f32Mag alpha ∧ f32Mag alpha ≤ 2 ^ 149 := by
  have hfin : f32IsFinite alpha = true ↔ Sys2Proof.Reference.Finite alpha := bne_iff_ne
  simp only [alphaLegal, Bool.and_eq_true, hfin, Bool.not_eq_true', decide_eq_true_eq, and_assoc]

/-- A word without its sign bit denotes its magnitude. -/
theorem val_of_not_neg {w : Word} (h : f32Neg w = false) : val w = (f32Mag w : ℝ) / 2 ^ 149 := by
  simp [val_eq, h]

/-- A word with its sign bit denotes no positive real. -/
theorem val_nonpos_of_neg {w : Word} (h : f32Neg w = true) : val w ≤ 0 := by
  have : (0 : ℝ) ≤ (f32Mag w : ℝ) / 2 ^ 149 := by positivity
  simpa [val_eq, h] using this

/-- ALPHA is legal exactly when it is finite and its real lies in (0, 1]. -/
theorem alphaLegal_iff_val (alpha : Word) :
    alphaLegal alpha = true ↔ Sys2Proof.Reference.Finite alpha ∧ 0 < val alpha ∧ val alpha ≤ 1 := by
  rw [alphaLegal_iff]
  refine and_congr_right fun _ => ?_
  cases hneg : f32Neg alpha with
  | true =>
    have hle := val_nonpos_of_neg hneg
    exact ⟨fun h => absurd h.1 nofun, fun h => absurd h.1 (not_lt.2 hle)⟩
  | false =>
    have h149 : (0 : ℝ) < 2 ^ 149 := by positivity
    have hmag : (f32Mag alpha : ℝ) ≤ 2 ^ 149 ↔ f32Mag alpha ≤ 2 ^ 149 := by exact_mod_cast Iff.rfl
    rw [val_of_not_neg hneg, div_pos_iff_of_pos_right h149, div_le_one h149, Nat.cast_pos, hmag]
    exact ⟨And.right, And.intro rfl⟩

/-- Settles O31: the machine's test is the range of the real (`alphaLegal_iff_val`), and a word that fails it raises
BAD_ALPHA. -/
theorem rollOffIsLegalExactlyInRange : Obligations.RollOffIsLegalExactlyInRange := by
  intro alpha
  refine ⟨alphaLegal_iff_val alpha, fun d sps s h1 hmax hbad => ?_⟩
  have h0 : sps ≠ 0#16 := fun h => absurd (sps_eq_zero_iff.2 h) (by omega)
  have ha : alphaLegal alpha = false := Bool.eq_false_iff.2 fun ha => hbad ((alphaLegal_iff_val alpha).1 ha)
  rw [exec_modConfig_of_badAlpha d h0 hmax ha, raiseIn_eq_raised _ (modConfig_header d sps alpha)]
  rfl

/-! ### CONV.CONFIG -/

/-- Settles O44: a draw that does not wrap answers (`drawTime_of_lt`), and only TIME and the unit are written. -/
theorem convConfigConstructs : Obligations.ConvConfigConstructs :=
  fun d _ _ _ name _ hr hl ht => exec_convConfig_of_draw d name (fun h0 => hr (rateOf_eq_zero h0)) hl (drawTime_of_lt ht)

/-- The header of a CONV.CONFIG with its reserved bits clear. -/
theorem convConfig_header (dbg : Bool) (len : BitVec 8) (lo hi : Word) (name : List Word) :
    (Instr.convConfig dbg 0#15 len lo hi name).header = 0x20#8 ++ BitVec.ofBool dbg ++ 0#15 ++ len :=
  append_three_fields 0x20#8 (BitVec.ofBool dbg) 0#15 len

theorem exec_convConfig_of_badRate (dbg : Bool) (len : BitVec 8) {lo hi : Word} (name : List Word) {s : State}
    (hr : rateOf lo hi = 0#64) :
    exec (.convConfig dbg 0#15 len lo hi name) s =
      .next (raiseIn .badRate (.convConfig dbg 0#15 len lo hi name) (convClear s)) := by
  simp [exec, execConvConfig, hr]

theorem exec_convConfig_of_tooLong (dbg : Bool) {len : BitVec 8} {lo hi : Word} (name : List Word) {s : State}
    (hr : rateOf lo hi ≠ 0#64) (hl : s.params.tagNameMax < len.toNat) :
    exec (.convConfig dbg 0#15 len lo hi name) s =
      .next (raiseIn .tagnameTooLong (.convConfig dbg 0#15 len lo hi name) (convClear s)) := by
  simp [exec, execConvConfig, hr, hl]

/-- Settles O45: RATE is looked at before the tag name's length. -/
theorem convConfigRejectsBadOperands : Obligations.ConvConfigRejectsBadOperands := by
  intro d len lo hi name s
  refine ⟨fun ⟨hlo, hhi⟩ => ?_, fun hr hl => ?_⟩
  · have h0 : rateOf lo hi = 0#64 := by
      rw [hlo, hhi]
      rfl
    rw [exec_convConfig_of_badRate d len name h0, raiseIn_eq_raised _ (convConfig_header d len lo hi name)]
    rfl
  · rw [exec_convConfig_of_tooLong d name (fun h0 => hr (rateOf_eq_zero h0)) hl,
      raiseIn_eq_raised _ (convConfig_header d len lo hi name)]
    rfl

end Sys2Proof.Machine
end

section
/-! 40_configuration.md R124-R128; 00_scope.md R12: the tap set is symmetric, and each word the generator settles is the
one nearest to its exact real tap. -/

namespace Sys2Proof.Machine

open Real Sys2Proof.Reference

/-! ### Symmetry (40_configuration.md R128) -/

/-- Every index of the tap set lies at a distance of at most 4S from the centre, on one side or the other. -/
theorem exists_distance {sps i : Nat} (hi : i ≤ 8 * sps) : ∃ d ≤ 4 * sps, i = 4 * sps + d ∨ i = 4 * sps - d := by
  rcases le_total (4 * sps) i with h | h
  · exact ⟨i - 4 * sps, by omega, .inl (by omega)⟩
  · exact ⟨4 * sps - i, by omega, .inr (by omega)⟩

/-- The two taps at one distance from the centre have the same raw value. -/
theorem rrc_below_centre (sps : ℕ) (α : ℝ) {d : ℕ} (hd : d ≤ 4 * sps) :
    rrc sps α (4 * sps - d) = rrc sps α (4 * sps + d) := by
  refine rrc_of_distance sps α (.inr ?_)
  push_cast [Nat.cast_sub hd]
  ring

theorem tapValue_below_centre (sps : ℕ) (α : ℝ) {d : ℕ} (hd : d ≤ 4 * sps) :
    tapValue sps α (4 * sps - d) = tapValue sps α (4 * sps + d) := by
  rw [tapValue, tapValue, rrc_below_centre sps α hd]

/-- Settles O32: both the exact taps (`tapValue_below_centre`) and the stored words (`tapSet_spec`) depend on the
distance from the centre alone. -/
theorem tapSetIsSymmetric : Obligations.TapSetIsSymmetric := by
  refine ⟨fun sps α i hi => ?_, fun r sps alpha taps ht => ?_⟩
  · obtain ⟨d, hd, rfl | rfl⟩ := exists_distance hi
    · rw [show 8 * sps - (4 * sps + d) = 4 * sps - d by omega, tapValue_below_centre sps α hd]
    · rw [show 8 * sps - (4 * sps - d) = 4 * sps + d by omega, tapValue_below_centre sps α hd]
  · obtain ⟨hlen, half, -, -, hside⟩ := tapSet_spec ht
    refine ⟨hlen, fun i hi => ?_⟩
    obtain ⟨d, hd, rfl | rfl⟩ := exists_distance hi
    · rw [show 8 * sps - (4 * sps + d) = 4 * sps - d by omega, (hside d hd).1, (hside d hd).2]
    · rw [show 8 * sps - (4 * sps - d) = 4 * sps + d by omega, (hside d hd).1, (hside d hd).2]

/-! ### The nearest word of a rational (00_scope.md R12) -/

/-- From the overflow threshold on the place found is infinity's or a later one. At the threshold itself the last finite
place ties with it, and is odd. -/
theorem le_rnePlace {num den : Nat} (hden : 0 < den) (h : 2 ^ 128 - 2 ^ 103 ≤ (num : ℝ) / den) :
    0x7F800000 ≤ rnePlace num den := by
  by_contra hlt
  obtain ⟨hnear, htie⟩ := rnePlace_nearest (num := num) hden 0x7F800000
  have hover := magAt_overflow
  have hx : ((2 : ℝ) ^ 128 - 2 ^ 103) * 2 ^ 149 ≤ num / den * 2 ^ 149 := mul_le_mul_of_nonneg_right h (by positivity)
  have hmono : (magAt (rnePlace num den) : ℝ) ≤ magAt 0x7F7FFFFF := by
    exact_mod_cast magAt_strictMono.monotone (show rnePlace num den ≤ 0x7F7FFFFF by omega)
  have hsucc : (magAt 0x7F7FFFFF : ℝ) < magAt 0x7F800000 := by exact_mod_cast magAt_lt_succ 0x7F7FFFFF
  have hbelow : (magAt (rnePlace num den) : ℝ) - num / den * 2 ^ 149 < 0 := by linarith
  rw [abs_of_neg hbelow] at hnear htie
  rcases abs_cases ((magAt 0x7F800000 : ℝ) - num / den * 2 ^ 149) with ⟨he, -⟩ | ⟨he, -⟩
  · have hlast : (magAt (rnePlace num den) : ℝ) = magAt 0x7F7FFFFF := by linarith
    have hplace : rnePlace num den = 0x7F7FFFFF := magAt_strictMono.injective (by exact_mod_cast hlast)
    have heven := htie (magAt_strictMono.injective.ne (by omega)) (by linarith)
    omega
  · linarith

/-- `rne32` is the nearest word of a rational other than 0, an infinity where it overflows. -/
theorem rne32_isNearestWord (neg : Bool) {num den : Nat} (hnum : 0 < num) (hden : 0 < den) :
    IsNearestWord (rne32 neg num den) ((if neg then -1 else 1) * ((num : ℝ) / den)) := by
  have hx : (0 : ℝ) < num / den := by positivity
  unfold IsNearestWord
  rw [abs_sign_mul]
  refine ⟨fun h0 => ?_, rne32IsNearestEven neg num den hden, fun hge => ?_⟩
  · have := abs_sign_mul neg num den
    rw [h0, abs_zero] at this
    exact absurd this hx.ne
  · rw [rne32_eq_wordAt, min_eq_right (le_rnePlace hden hge)]
    cases neg with
    | false => rw [if_neg (by simpa using hx.le)]; rfl
    | true => rw [if_pos (by simpa using hx)]; rfl

theorem rneRatio_isNearestWord {n d : Int} (hn : n ≠ 0) (hd : 0 < d) : IsNearestWord (rneRatio n d) ((n : ℝ) / d) := by
  have h := rne32_isNearestWord (decide (n < 0)) (Int.natAbs_pos.2 hn) (Int.natAbs_pos.2 hd.ne')
  have hsign : (if decide (n < 0) then (-1 : ℝ) else 1) * ((n.natAbs : ℝ) / d.natAbs) = n / d := by
    have hd' : (0 : ℝ) ≤ d := by exact_mod_cast hd.le
    rw [Nat.cast_natAbs, Nat.cast_natAbs, Int.cast_abs, Int.cast_abs, abs_of_nonneg hd']
    by_cases hneg : n < 0
    · have hn' : (n : ℝ) < 0 := by exact_mod_cast hneg
      simp [hneg, abs_of_neg hn', neg_div]
    · have hn' : (0 : ℝ) ≤ n := by exact_mod_cast not_lt.1 hneg
      simp [hneg, abs_of_nonneg hn']
  exact hsign ▸ h

/-! ### Between two rationals that round to one word -/

/-- A finite word is nearest only to reals below the overflow threshold. -/
theorem abs_lt_of_isNearestWord {w : Word} {r : ℝ} (h : IsNearestWord w r) (hf : Sys2Proof.Reference.Finite w) :
    |r| < 2 ^ 128 - 2 ^ 103 := by
  by_contra hge
  rw [h.2.2 (not_lt.1 hge)] at hf
  split at hf <;> exact hf (by decide)

/-- A real between two reals of one sign that have the same nearest word has that word too. -/
theorem isNearestWord_between {w : Word} {a b r : ℝ} (ha : IsNearestWord w a) (hb : IsNearestWord w b) (har : a ≤ r)
    (hrb : r ≤ b) (h0 : 0 < a ∨ b < 0) : IsNearestWord w r := by
  rcases h0 with h0 | h0
  · have hr : 0 < r := h0.trans_le har
    have hra : |a| ≤ |r| := abs_le_abs_of_nonneg h0.le har
    have hbr : |r| ≤ |b| := abs_le_abs_of_nonneg hr.le hrb
    refine ⟨fun h => absurd h hr.ne', fun hlt => ?_, fun hge => ?_⟩
    · have ha' := ha.2.1 (hra.trans_lt hlt)
      exact isRne32_between ha' (hb.2.1 (abs_lt_of_isNearestWord hb ha'.1)) har hrb
    · rw [hb.2.2 (hge.trans hbr), if_neg (hr.trans_le hrb).not_gt, if_neg hr.not_gt]
  · have hr : r < 0 := hrb.trans_lt h0
    have hra : |r| ≤ |a| := abs_le_abs_of_nonpos hr.le har
    have hbr : |b| ≤ |r| := abs_le_abs_of_nonpos h0.le hrb
    refine ⟨fun h => absurd h hr.ne, fun hlt => ?_, fun hge => ?_⟩
    · have hb' := hb.2.1 (hbr.trans_lt hlt)
      exact isRne32_between (ha.2.1 (abs_lt_of_isNearestWord ha hb'.1)) hb' har hrb
    · rw [ha.2.2 (hge.trans hra), if_pos (har.trans_lt hr), if_pos hr]

/-- An enclosure whose ends are both 0 holds 0 alone. -/
theorem Encloses.eq_zero {p : Nat} {x : ℝ} {e : Enclosure} (h : Encloses p x e) (hlo : e.lo = 0) (hhi : e.hi = 0) :
    x = 0 := by
  obtain ⟨h1, h2⟩ := h
  rw [hlo, Int.cast_zero] at h1
  rw [hhi, Int.cast_zero] at h2
  exact (mul_eq_zero.1 (le_antisymm h2 h1)).resolve_right (by positivity)

/-- The lower end of an enclosure is not above its upper end. -/
theorem Encloses.lo_le_hi {p : Nat} {x : ℝ} {e : Enclosure} (h : Encloses p x e) : e.lo ≤ e.hi := by
  exact_mod_cast h.1.trans h.2

/-- A real whose enclosure lies above 0 is positive. -/
theorem Encloses.pos {p : Nat} {x : ℝ} {e : Enclosure} (h : Encloses p x e) (hlo : 0 < e.lo) : 0 < x := by
  have hlo' : (0 : ℝ) < e.lo := by exact_mod_cast hlo
  exact pos_of_mul_pos_left (hlo'.trans_le h.1) (by positivity)

/-- The zero of log 1 is nearest to 0. -/
theorem zeroTapWord_isNearestWord : IsNearestWord zeroTapWord 0 := by
  obtain ⟨w, hw⟩ := exists_isNearestWord 0
  exact hw.1 rfl ▸ hw

/-- A raw tap of 0 has the zero word; of one whose sign is known both ends of the quotient round to the word settled. -/
theorem nearestTap_eq_some {sum raw : Enclosure} {w : Word} (h : nearestTap sum raw = some w) :
    (raw.lo = 0 ∧ raw.hi = 0 ∧ w = zeroTapWord) ∨
      ((0 < raw.lo ∨ raw.hi < 0) ∧ rneRatio raw.lo (if 0 ≤ raw.lo then sum.hi else sum.lo) = w ∧
        rneRatio raw.hi (if 0 ≤ raw.hi then sum.lo else sum.hi) = w) := by
  unfold nearestTap at h
  split at h
  next hzero => exact .inl ⟨hzero.1, hzero.2, (Option.some.inj h).symm⟩
  next =>
    split at h
    next => cases h
    next hsign =>
      simp only [Option.ite_none_right_eq_some, Option.some.injEq] at h
      obtain ⟨hagree, rfl⟩ := h
      exact .inr ⟨by omega, rfl, hagree.symm⟩

/-- A word that enclosures of the sum and of a raw tap settle is nearest to their exact quotient. -/
theorem nearestTap_isNearestWord {p : Nat} {x y : ℝ} {sum raw : Enclosure} {w : Word} (hx : Encloses p x sum)
    (hy : Encloses p y raw) (h0 : 0 < sum.lo) (h : nearestTap sum raw = some w) : IsNearestWord w (y / x) := by
  have hsum := hx.lo_le_hi
  have hraw := hy.lo_le_hi
  rcases nearestTap_eq_some h with ⟨hlo, hhi, rfl⟩ | ⟨hsign, hlow, hhigh⟩
  · rw [hy.eq_zero hlo hhi, zero_div]
    exact zeroTapWord_isNearestWord
  · have hdlo : 0 < if 0 ≤ raw.lo then sum.hi else sum.lo := by split <;> omega
    have hdhi : 0 < if 0 ≤ raw.hi then sum.lo else sum.hi := by split <;> omega
    obtain ⟨hlo, hhi⟩ := quotient_bounds hx hy h0
    refine isNearestWord_between (hlow ▸ rneRatio_isNearestWord (by omega) hdlo)
      (hhigh ▸ rneRatio_isNearestWord (by omega) hdhi) hlo hhi ?_
    exact hsign.imp (fun h => div_pos (by exact_mod_cast h) (by exact_mod_cast hdlo))
      fun h => div_neg_of_neg_of_pos (by exact_mod_cast h) (by exact_mod_cast hdhi)

/-! ### One attempt (40_configuration.md R126, R127) -/

/-- The enclosures of the raw taps at distances 0, 1, …, 4S from the centre, each times π. -/
def rawTaps (p sps an : Nat) : List Enclosure := (List.range (4 * sps + 1)).map (encRawTap p (encPi p) sps an)

theorem tapAttempt_eq (p sps an : Nat) : tapAttempt p sps an = tapAttemptOf (rawTaps p sps an) := rfl

/-- An attempt answers with words where the sign of the sum is settled, and takes that sign off both parts of each
quotient. -/
theorem tapAttemptOf_eq_words {raws : List Enclosure} {ws : List (Option Word)} (h : tapAttemptOf raws = .words ws) :
    (0 < (encSum raws).lo ∧ ws = raws.map (nearestTap (encSum raws))) ∨
      (0 < (encNeg (encSum raws)).lo ∧ ws = raws.map fun r => nearestTap (encNeg (encSum raws)) (encNeg r)) := by
  unfold tapAttemptOf at h
  simp only at h
  split_ifs at h with hpos hneg <;> cases h
  · exact .inl ⟨hpos, rfl⟩
  · exact .inr ⟨Int.neg_pos_of_neg hneg, rfl⟩

theorem tapAttemptOf_eq_zeroSum {raws : List Enclosure} (h : tapAttemptOf raws = .zeroSum) :
    (encSum raws).lo = 0 ∧ (encSum raws).hi = 0 := by
  unfold tapAttemptOf at h
  simp only at h
  split_ifs at h with hpos hneg hzero
  exact hzero

section
variable {p sps : Nat} {alpha : Word} (hp : p ∈ tapPrecisions) (hs : 1 ≤ sps) (ha : alphaLegal alpha = true)
include hp hs ha

/-- At each precision tried the raw taps of a legal roll-off are enclosed. -/
theorem rawTaps_enclose {d : Nat} {e : Enclosure} (he : (rawTaps p sps (f32Mag alpha))[d]? = some e) :
    Encloses p (π * rrc sps (val alpha) (4 * sps + d)) e := by
  obtain ⟨-, hneg, hpos, hle⟩ := (alphaLegal_iff alpha).1 ha
  rw [val_of_not_neg hneg]
  rw [rawTaps, List.getElem?_map, Option.map_eq_some_iff] at he
  obtain ⟨j, hj, rfl⟩ := he
  obtain ⟨-, rfl⟩ := List.getElem?_eq_some_iff.1 hj
  rw [List.getElem_range]
  exact encloses_rawTap_at hp hs hpos hle d

/-- At each precision tried the exact sum is enclosed. -/
theorem rawTaps_sum_encloses : Encloses p (π * rrcSum sps (val alpha)) (encSum (rawTaps p sps (f32Mag alpha))) := by
  have h := encloses_sum (rawTaps p sps (f32Mag alpha)) (fun d => π * rrc sps (val alpha) (4 * sps + d)) (n := 4 * sps)
    (by simp [rawTaps]) fun d e he => rawTaps_enclose hp hs ha he
  rwa [← Finset.mul_sum, mul_left_comm, ← mul_add, Nat.add_zero, ← rrcSum_eq] at h

/-- An attempt that answers with words has settled that the exact sum is not 0. -/
theorem rrcSum_ne_zero_of_words {ws : List (Option Word)} (h : tapAttempt p sps (f32Mag alpha) = .words ws) :
    rrcSum sps (val alpha) ≠ 0 := by
  have hsum := rawTaps_sum_encloses hp hs ha
  intro h0
  rw [h0, mul_zero] at hsum
  rcases tapAttemptOf_eq_words h with ⟨hpos, -⟩ | ⟨hpos, -⟩
  · exact (hsum.pos hpos).false
  · exact ((encloses_neg hsum).pos hpos).ne neg_zero.symm

theorem rrcSum_eq_zero_of_zeroSum (h : tapAttempt p sps (f32Mag alpha) = .zeroSum) : rrcSum sps (val alpha) = 0 := by
  obtain ⟨hlo, hhi⟩ := tapAttemptOf_eq_zeroSum h
  exact (mul_eq_zero.1 ((rawTaps_sum_encloses hp hs ha).eq_zero hlo hhi)).resolve_left pi_ne_zero

/-- Every word an attempt settles is nearest to its exact tap, in which the common factor π cancels. -/
theorem tapAttempt_isNearestWord {ws : List (Option Word)} (h : tapAttempt p sps (f32Mag alpha) = .words ws) {d : Nat}
    {w : Word} (hw : ws[d]? = some (some w)) : IsNearestWord w (tapValue sps (val alpha) (4 * sps + d)) := by
  have hsum := rawTaps_sum_encloses hp hs ha
  rw [tapValue, ← mul_div_mul_left _ _ pi_ne_zero]
  rcases tapAttemptOf_eq_words h with ⟨hpos, rfl⟩ | ⟨hpos, rfl⟩
  all_goals
    rw [List.getElem?_map, Option.map_eq_some_iff] at hw
    obtain ⟨e, he, hw⟩ := hw
    have hraw := rawTaps_enclose hp hs ha he
  · exact nearestTap_isNearestWord hsum hraw hpos hw
  · rw [← neg_div_neg_eq]
    exact nearestTap_isNearestWord (encloses_neg hsum) (encloses_neg hraw) hpos hw

end

/-! ### The tap set -/

section
variable {sps : Nat} {alpha : Word} (hs : 1 ≤ sps) (ha : alphaLegal alpha = true)
include hs ha

/-- No words are found exactly where the exact sum is 0 (40_configuration.md R126; log 11). -/
theorem settledWords_eq_none_iff : settledWords sps alpha = none ↔ rrcSum sps (val alpha) = 0 := by
  unfold settledWords
  split
  next h =>
    obtain ⟨p, hp, hz⟩ := searchTaps_zeroSum (by simp) h
    exact iff_of_true rfl (rrcSum_eq_zero_of_zeroSum hp hs ha hz)
  next ws h =>
    obtain ⟨p, hp, new, hw⟩ := searchTaps_some (by simp) h
    exact iff_of_false nofun (rrcSum_ne_zero_of_words hp hs ha hw)
  next =>
    rw [← realIsZero_iff]
    split <;> simp [*]

/-- Every word found is nearest to its exact tap; where the search left the sum open, none is found. -/
theorem settledWords_isNearestWord {ws : List (Option Word)} (h : settledWords sps alpha = some ws) {d : Nat} {w : Word}
    (hw : ws[d]? = some (some w)) : IsNearestWord w (tapValue sps (val alpha) (4 * sps + d)) := by
  unfold settledWords at h
  split at h
  next => cases h
  next ws' hfound =>
    cases h
    obtain ⟨p, hp, new, hnew, hw⟩ := (tapFindings_words hfound).2 d w hw
    exact tapAttempt_isNearestWord hp hs ha hnew hw
  next =>
    split_ifs at h
    cases h
    exact nomatch (List.eq_of_mem_replicate (List.mem_of_getElem? hw) : some w = none)

/-- Each stored word is P_TAP_ROUND of the exact tap at its distance from the centre (40_configuration.md R127). -/
theorem halfTaps_eq_tapRound {r : TapRound} {half : List Word} (h : halfTaps r sps alpha = some half) {d : Nat}
    (hd : d ≤ 4 * sps) : half[d]? = some (tapRound r (exactTap sps alpha d)) := by
  obtain ⟨ws, hws, hrne, hother⟩ := halfTaps_spec h
  have hlen := settledWords_length hws
  cases r with
  | other n => simp [hother n rfl, Nat.lt_succ_of_le hd]
  | rne32 =>
    rw [hrne rfl, fillOpen_getElem?, Nat.zero_add, List.getElem?_eq_getElem (by omega), Option.map_some]
    congr 1
    cases hw : ws[d] with
    | none => rfl
    | some w =>
      have hnear := settledWords_isNearestWord hs ha hws (List.getElem?_eq_some_iff.2 ⟨_, hw⟩)
      exact (nearestWordOf_eq hnear).symm

end

/-- Settles O33: the word at distance d on either side is P_TAP_ROUND of the exact tap there (`halfTaps_eq_tapRound`),
and that is a nearest word under the default (`nearestWordOf_spec`). -/
theorem storedTapsAreNearestToExactTaps : Obligations.StoredTapsAreNearestToExactTaps := by
  intro r sps alpha hs ha
  refine ⟨(tapSet_eq_none r sps alpha).trans (settledWords_eq_none_iff hs ha), fun taps ht i hi => ?_⟩
  obtain ⟨-, half, hhalf, -, hside⟩ := tapSet_spec ht
  have hword : taps[i]? = some (tapRound r (Erased.mk (tapValue sps (val alpha) i))) := by
    obtain ⟨d, hd, rfl | rfl⟩ := exists_distance hi
    · exact (hside d hd).1.trans (halfTaps_eq_tapRound hs ha hhalf hd)
    · rw [tapValue_below_centre sps _ hd]
      exact (hside d hd).2.trans (halfTaps_eq_tapRound hs ha hhalf hd)
  refine ⟨hword, ?_⟩
  rintro rfl
  exact ⟨_, hword, nearestWordOf_spec _⟩

end Sys2Proof.Machine
end

section
/-! 41_modulator.md R141, R143, R147, R148, R154, R160: the symbol mapper and its amplitudes, MOD.FEED, TAP.READ, and what
the MOD commands depend on. -/

namespace Sys2Proof.Machine

open Sys2Proof.Reference

/-! ### A negated factor (41_modulator.md R147) -/

/-- Negating a word inverts its sign (00_scope.md R12). -/
theorem f32Neg_flip (w : Word) : f32Neg (f32Flip w) = !f32Neg w := by
  simp [f32Neg, f32Flip]

/-- Negating a word keeps its magnitude bits (00_scope.md R12). -/
theorem placeOf_flip (w : Word) : placeOf (f32Flip w) = placeOf w := by
  have hplace : ∀ v : Word, placeOf v = (v.setWidth 31).toNat := fun v => (BitVec.toNat_setWidth 31 v).symm
  rw [hplace, hplace, f32Flip, BitVec.setWidth_xor, show (0x80000000#32).setWidth 31 = 0#31 from rfl, BitVec.xor_zero]

theorem f32Mag_flip (w : Word) : f32Mag (f32Flip w) = f32Mag w := by
  rw [f32Mag_eq_magAt, f32Mag_eq_magAt, placeOf_flip]

theorem finite_flip {w : Word} (h : Sys2Proof.Reference.Finite w) : Sys2Proof.Reference.Finite (f32Flip w) := by
  rw [finite_iff_place] at h ⊢
  rwa [placeOf_flip]

/-- RNE32 rounds the magnitude alone, so the opposite sign gives the negated word. -/
theorem rne32_not (neg : Bool) (num den : Nat) : rne32 (!neg) num den = f32Flip (rne32 neg num den) := by
  refine word_ext ?_ ?_
  · rw [f32Neg_flip, rne32_neg, rne32_neg]
  · rw [placeOf_flip, rne32_eq_wordAt, rne32_eq_wordAt, wordAt_place _ (by omega), wordAt_place _ (by omega)]

/-- Negating one factor negates the default product. -/
theorem fmulRne_flip {a b : Word} (ha : Sys2Proof.Reference.Finite a) (hb : Sys2Proof.Reference.Finite b) :
    fmulRne (f32Flip a) b = f32Flip (fmulRne a b) := by
  rw [fmulRne_of_finite (finite_flip ha) hb, fmulRne_of_finite ha hb, f32Neg_flip, f32Mag_flip, Bool.not_xor, rne32_not]

/-- Settles O36: A_NEG is A with its sign inverted, and the product follows (`fmulRne_flip`). -/
theorem negativeAmplitudeFlipsTheSign : Obligations.NegativeAmplitudeFlipsTheSign := by
  intro w hw
  have hA : Sys2Proof.Reference.Finite 0x3F3504F3#32 := by
    unfold Sys2Proof.Reference.Finite
    decide
  have hneg : 0xBF3504F3#32 = f32Flip 0x3F3504F3#32 := by decide
  rw [hneg, fmul, fmul, fmulRne_flip hA hw, f32Flip]

/-! ### The symbol mapper (41_modulator.md R141) -/

/-- Settles O38: each clause is one row of the mapper's table, or one of its two amplitude words. -/
theorem symbolMapFollowsItsTable : Obligations.SymbolMapFollowsItsTable :=
  ⟨⟨rfl, rfl, rfl, rfl⟩, rfl, rfl⟩

/-! ### The quadrature index (41_modulator.md R148) -/

/-- Settles O39: k + floor(S/2) is below 2S, and the tap set has 8S+1 words. -/
theorem quadratureIndexStaysInTaps : Obligations.QuadratureIndexStaysInTaps := by
  intro p m hm hc hk
  obtain ⟨⟨-, ⟨-, -, hn, -⟩, -, -⟩, -⟩ := (ModState.ok_iff_ready hc).1 hm
  rw [hn, quadOffset]
  omega

/-! ### MOD.FEED and TAP.READ (41_modulator.md R143, R160) -/

/-- The header of a MOD.FEED with its reserved bits clear. -/
theorem modFeed_header (byte : Byte) : (Instr.modFeed 0#16 byte).header = 0x110000#24 ++ byte :=
  (BitVec.append_assoc (x₁ := 0x11#8) (x₂ := 0#16) (x₃ := byte)).symm.trans rfl

/-- The header of a TAP.READ with its reserved bits clear. -/
theorem tapRead_header (i : BitVec 16) : (Instr.tapRead 0#8 i).header = 0x1300#16 ++ i :=
  (BitVec.append_assoc (x₁ := 0x13#8) (x₂ := 0#8) (x₃ := i)).symm.trans rfl

theorem exec_modFeed_of_full (byte : Byte) {s : State} (hc : s.mod.cfg = true)
    (hf : s.mod.inFifo.length = s.params.inDepth) :
    exec (.modFeed 0#16 byte) s = .next (raiseIn .inFifoFull (.modFeed 0#16 byte) s) := by
  simp [exec, execModFeed, hc, hf]

/-- Settles O37: a feed looks at the room in IN_FIFO once its reserved bits and M_CFG are as they should be. -/
theorem feedAppendsOrIsFull : Obligations.FeedAppendsOrIsFull := by
  refine fun b s hc => ⟨fun hf => exec_modFeed_of_room b hc hf, fun hf => ?_⟩
  rw [exec_modFeed_of_full b hc hf, raiseIn_eq_raised _ (modFeed_header b)]
  rfl

theorem exec_tapRead_of_ge {i : BitVec 16} {s : State} (hc : s.mod.cfg = true) (hi : s.mod.nTaps.toNat ≤ i.toNat) :
    exec (.tapRead 0#8 i) s = .next (raiseIn .badTapIndex (.tapRead 0#8 i) s) := by
  simp [exec, execTapRead, hc, hi]

/-- Settles O43: a read looks at its index once its reserved bits and M_CFG are as they should be. -/
theorem tapReadAnswersItsTap : Obligations.TapReadAnswersItsTap := by
  refine fun i s hc => ⟨fun hi => exec_tapRead_of_lt hc hi, fun hi => ?_⟩
  rw [exec_tapRead_of_ge hc hi, raiseIn_eq_raised _ (tapRead_header i)]
  rfl

/-! ### A request in two parts (41_modulator.md R152) -/

/-- The loop leaves a configured modulator configured. -/
theorem fillSamples_cfg (p : Params) (tap : TapMemory) (n : Nat) {m : ModState} (hc : m.cfg = true) :
    (fillSamples p tap n m).mod.cfg = true := by
  obtain ⟨-, ⟨hcfg, -⟩, -, -⟩ := fillSamples_spec p tap n m
  exact hcfg.trans hc

/-- Settles O41: the loop for a + b samples is the loop for a and then the loop for b (`fillSamples_add`). -/
theorem splittingARequestChangesNothing : Obligations.SplittingARequestChangesNothing := by
  intro a b c s t u w hc hsum ht hu hw
  have hct : (fillFor s a).mod.cfg = true := fillSamples_cfg s.params s.tap a.toNat hc
  cases (exec_modRequest_of_cfg a hc).symm.trans ht
  cases (exec_modRequest_of_cfg b (by exact hct)).symm.trans hu
  cases (exec_modRequest_of_cfg c hc).symm.trans hw
  have hfill := fillSamples_add s.params s.tap a.toNat b.toNat s.mod
  rw [hsum] at hfill
  simp only [fillFor, hfill, emitRsp, emitSamples, State.setOut, State.setMod, List.append_assoc]

/-! ### What a MOD command depends on (41_modulator.md R154) -/

/-- The MOD unit is left alike in `t1` and `t2`, and what was emitted on the way from `s1` and from `s2` is the same. -/
structure SameModEffect (s1 s2 t1 t2 : State) : Prop where
  mod : t1.mod = t2.mod
  tap : t1.tap = t2.tap
  emitted : ∃ (xs : List Sample) (ws : List Word),
    t1.out.samples = s1.out.samples ++ xs ∧ t2.out.samples = s2.out.samples ++ xs ∧
    t1.out.rsp = s1.out.rsp ++ ws ∧ t2.out.rsp = s2.out.rsp ++ ws

/-- Two runs of a command complete with the same effect on the MOD unit. -/
def CompleteAlike (s1 s2 : State) (o1 o2 : Host.Outcome State Fault Refusal) : Prop :=
  ∃ t1 t2, o1 = .next t1 ∧ o2 = .next t2 ∧ SameModEffect s1 s2 t1 t2

section
variable {s1 s2 : State} (h : s1.SameForMod s2)
include h

/-- An error leaves the unit alone, and its response words depend on the command. -/
theorem CompleteAlike.raised (e : ErrorCode) (i : Instr) :
    CompleteAlike s1 s2 (.next (raiseIn e i s1)) (.next (raiseIn e i s2)) :=
  ⟨_, _, rfl, rfl, h.mod.symm, h.tap.symm, [], _, (List.append_nil _).symm, (List.append_nil _).symm, rfl, rfl⟩

/-- The operands of MOD.CONFIG are rejected with the unit cleared (40_configuration.md R121). -/
theorem CompleteAlike.rejected (e : ErrorCode) (i : Instr) :
    CompleteAlike s1 s2 (.next (raiseIn e i (modClear s1))) (.next (raiseIn e i (modClear s2))) :=
  ⟨_, _, rfl, rfl, rfl, h.tap.symm, [], _, (List.append_nil _).symm, (List.append_nil _).symm, rfl, rfl⟩

theorem execModConfig_alike (dbg : Bool) (reserved : BitVec 7) (sps : BitVec 16) (alpha : Word) :
    CompleteAlike s1 s2 (execModConfig dbg reserved sps alpha s1) (execModConfig dbg reserved sps alpha s2) := by
  unfold execModConfig
  rw [h.params, h.tap]
  split_ifs
  · exact .raised h _ _
  · exact .rejected h _ _
  · exact .rejected h _ _
  · cases tapSet s1.params.tapRound sps.toNat alpha with
    | none => exact .rejected h _ _
    | some taps => exact ⟨_, _, rfl, rfl, rfl, rfl, [], [], by simp⟩

theorem execModFeed_alike (reserved : BitVec 16) (byte : Byte) :
    CompleteAlike s1 s2 (execModFeed reserved byte s1) (execModFeed reserved byte s2) := by
  unfold execModFeed
  rw [h.params, h.mod]
  split_ifs
  · exact .raised h _ _
  · exact .raised h _ _
  · exact .raised h _ _
  · exact ⟨_, _, rfl, rfl, rfl, h.tap.symm, [], [], by simp⟩

theorem execModRequest_alike (n : BitVec 24) : CompleteAlike s1 s2 (execModRequest n s1) (execModRequest n s2) := by
  unfold execModRequest
  rw [h.params, h.mod, h.tap]
  split_ifs
  · exact .raised h _ _
  · exact ⟨_, _, rfl, rfl, rfl, h.tap.symm, _, _, rfl, rfl, rfl, rfl⟩

theorem execTapRead_alike (reserved : BitVec 8) (i : BitVec 16) :
    CompleteAlike s1 s2 (execTapRead reserved i s1) (execTapRead reserved i s2) := by
  unfold execTapRead
  rw [h.mod, h.tap]
  split_ifs
  · exact .raised h _ _
  · exact .raised h _ _
  · exact .raised h _ _
  · exact ⟨_, _, rfl, rfl, h.mod.symm, h.tap.symm, [], _, (List.append_nil _).symm, (List.append_nil _).symm, rfl, rfl⟩

/-- A MOD command completes alike on two machines with the same parameters, modulator and TAP. -/
theorem exec_mod_alike {i : Instr} (hi : isMod i.opcode = true) : CompleteAlike s1 s2 (exec i s1) (exec i s2) := by
  cases i with
  | modConfig dbg reserved sps alpha => exact execModConfig_alike h dbg reserved sps alpha
  | modFeed reserved byte => exact execModFeed_alike h reserved byte
  | modRequest n => exact execModRequest_alike h n
  | tapRead reserved i => exact execTapRead_alike h reserved i
  | _ => exact absurd hi Bool.false_ne_true

end

/-- Settles O56: each MOD command branches on, and computes from, the parameters and its unit alone
(`exec_mod_alike`). -/
theorem modStreamDependsOnModAlone : Obligations.ModStreamDependsOnModAlone := by
  intro i s1 s2 t1 t2 hi hp hm ht h1 h2
  obtain ⟨u1, u2, e1, e2, hmod, htap, hemit⟩ := exec_mod_alike ⟨hp.symm, hm.symm, ht.symm⟩ hi
  cases h1.symm.trans e1
  cases h2.symm.trans e2
  exact ⟨hmod, htap, hemit⟩

end Sys2Proof.Machine
end

section
/-! 10_state.md R38-R40; 41_modulator.md R145-R153: MOD.REQUEST emits the pending samples in order, and where they leave
the modulator. -/

namespace Sys2Proof.Machine

open Sys2Proof.Reference

/-! ### The pairs held (41_modulator.md R141, R146) -/

/-- The table of the symbol mapper is the formula of 41_modulator.md R142. -/
theorem mapSymbol_eq_signs : ∀ v : BitVec 2, mapSymbol v = signs v := by decide

/-- M_BITS is even. -/
theorem ModState.Ready.bits_even {p : Params} {m : ModState} (hm : m.Ready p) : m.bits.toNat % 2 = 0 := by
  rcases hm.bits with h | h | h | h | h <;> rw [h] <;> rfl

/-- Mapping a pair uses up two bits. -/
theorem toNat_bits_mapNext {p : Params} {m : ModState} (hm : m.Ready p) (hb : m.bits ≠ 0#4) :
    (mapNext m).bits.toNat + 2 = m.bits.toNat ∧ (mapNext m).bits.toNat < 8 := by
  rw [mapNext_bits]
  rcases hm.bits.resolve_left hb with h | h | h | h <;> rw [h] <;> decide

/-- Mapping a pair takes the first of the pairs held. -/
theorem heldPairs_mapNext {p : Params} {m : ModState} (hm : m.Ready p) (hb : m.bits ≠ 0#4) :
    heldPairs m = nextPair m :: heldPairs (mapNext m) := by
  have hpair : nextPair m = m.byte.extractLsb' (m.bits.toNat - 2) 2 := BitVec.setWidth_ushiftRight_eq_extractLsb
  rw [heldPairs, heldPairs, hpair, mapNext_bits, mapNext_byte, mapNext_inFifo]
  rcases hm.bits.resolve_left hb with h | h | h | h <;> rw [h] <;> rfl

/-- The modulator with the front byte of IN_FIFO pulled (41_modulator.md R145, R146). -/
def pullByte (b : Byte) (rest : List Byte) (m : ModState) : ModState :=
  { m with inFifo := rest, byte := b, bits := 8#4 }

/-- `ensureSymbol_cases` with the pull named: nothing is done, or a pair is mapped, or a byte pulled and its first pair
mapped. -/
theorem ensureSymbol_steps {m m' : ModState} {pulled : Nat} (h : ensureSymbol m = some (m', pulled)) :
    (m.act = true ∧ m' = m ∧ pulled = 0) ∨
    (m.act = false ∧ m.bits ≠ 0#4 ∧ m' = mapNext m ∧ pulled = 0) ∨
    ∃ b rest, m.act = false ∧ m.bits = 0#4 ∧ m.inFifo = b :: rest ∧ m' = mapNext (pullByte b rest m) ∧ pulled = 1 :=
  ensureSymbol_cases h

section
variable {p : Params} {m : ModState} {b : Byte} {rest : List Byte}

/-- A byte just pulled has a pair left to map. -/
theorem pullByte_bits_ne : (pullByte b rest m).bits ≠ 0#4 := show 8#4 ≠ 0#4 by decide

/-- Pulling a byte when no pair is left holds the same pairs. -/
theorem heldPairs_pullByte (hb : m.bits = 0#4) (hf : m.inFifo = b :: rest) :
    heldPairs (pullByte b rest m) = heldPairs m := by
  simp only [heldPairs, hb, hf, pullByte]
  rfl

theorem pullByte_ready (hm : m.Ready p) (hf : m.inFifo = b :: rest) : (pullByte b rest m).Ready p where
  cfg := hm.cfg
  config := hm.config
  fifo := by
    have hle := hm.fifo
    rw [hf, List.length_cons] at hle
    exact Nat.le_of_succ_le hle
  bits := .inr (.inr (.inr (.inr rfl)))

end

/-! ### The samples still pending (41_modulator.md R147, R152) -/

/-- The rest of the symbol in progress, and the samples of the pairs held. -/
def pendingOf (p : Params) (tap : TapMemory) (m : ModState) : List Sample :=
  (if m.act then symbolFrom p tap m.sps.toNat m.nTaps.toNat (m.ineg, m.qneg) m.k.toNat else []) ++
    pairSamples p tap m.sps.toNat m.nTaps.toNat (heldPairs m)

theorem pendingSamples_eq_pendingOf (s : State) : pendingSamples s = pendingOf s.params s.tap s.mod := by
  simp only [pendingSamples, pendingOf, phi, pairSamples, heldPairs, List.flatMap_append, List.append_assoc]

theorem pairSamples_cons (p : Params) (tap : TapMemory) (sps nTaps : Nat) (v : BitVec 2) (vs : List (BitVec 2)) :
    pairSamples p tap sps nTaps (v :: vs) = symbolFrom p tap sps nTaps (signs v) 0 ++ pairSamples p tap sps nTaps vs :=
  rfl

theorem symbolFrom_of_lt (p : Params) (tap : TapMemory) {sps k : Nat} (nTaps : Nat) (sg : Bool × Bool) (h : k < sps) :
    symbolFrom p tap sps nTaps sg k = sample p tap sps nTaps sg k :: symbolFrom p tap sps nTaps sg (k + 1) := by
  rw [symbolFrom, symbolFrom, show sps - k = sps - (k + 1) + 1 by omega, List.range'_succ, List.map_cons]

theorem symbolFrom_end (p : Params) (tap : TapMemory) (sps nTaps : Nat) (sg : Bool × Bool) :
    symbolFrom p tap sps nTaps sg sps = [] := by
  rw [symbolFrom, Nat.sub_self]
  rfl

theorem sampleNow_eq_sample (p : Params) (tap : TapMemory) (m : ModState) :
    sampleNow p tap m = sample p tap m.sps.toNat m.nTaps.toNat (m.ineg, m.qneg) m.k.toNat := by
  simp only [sampleNow, sample, sampleOf, quadOffset, amplitude, ampNeg, ampPos]
  rfl

/-- With no symbol in progress, the pending samples are those of the pairs held. -/
theorem pendingOf_idle {p : Params} {tap : TapMemory} {m : ModState} (ha : m.act = false) :
    pendingOf p tap m = pairSamples p tap m.sps.toNat m.nTaps.toNat (heldPairs m) := by
  rw [pendingOf, ha]
  rfl

/-- Starting the symbol of the next pair leaves the pending samples as they are. -/
theorem pendingOf_mapNext {p : Params} (tap : TapMemory) {m : ModState} (hm : m.Ready p) (ha : m.act = false)
    (hb : m.bits ≠ 0#4) : pendingOf p tap (mapNext m) = pendingOf p tap m := by
  rw [pendingOf_idle ha, heldPairs_mapNext hm hb, pairSamples_cons, ← mapSymbol_eq_signs]
  rfl

/-- Making sure a symbol is in progress leaves the pending samples as they are. -/
theorem pendingOf_ensureSymbol {p : Params} (tap : TapMemory) {m m' : ModState} {pulled : Nat} (hm : m.Ready p)
    (h : ensureSymbol m = some (m', pulled)) : pendingOf p tap m' = pendingOf p tap m := by
  rcases ensureSymbol_steps h with ⟨-, rfl, -⟩ | ⟨ha, hb, rfl, -⟩ | ⟨b, rest, ha, hb, hf, rfl, -⟩
  · rfl
  · exact pendingOf_mapNext tap hm ha hb
  · rw [pendingOf_mapNext tap (pullByte_ready hm hf) ha pullByte_bits_ne, pendingOf_idle ha,
      pendingOf_idle (m := pullByte b rest m) ha, heldPairs_pullByte hb hf]
    rfl

/-- With the input exhausted nothing is pending (41_modulator.md R150). -/
theorem pendingOf_exhausted {p : Params} {tap : TapMemory} {m : ModState} (h : ensureSymbol m = none) :
    pendingOf p tap m = [] := by
  obtain ⟨ha, hb, hf⟩ := ensureSymbol_eq_none.1 h
  rw [pendingOf_idle ha, heldPairs, hb, hf]
  rfl

@[simp] theorem heldPairs_advanceSample (m : ModState) : heldPairs (advanceSample m) = heldPairs m := by
  unfold advanceSample
  split <;> rfl

/-- The sample of a pass is the first of those pending. -/
theorem pendingOf_advanceSample {p : Params} (tap : TapMemory) {m : ModState} (hm : m.InSymbol p) :
    pendingOf p tap m = sampleNow p tap m :: pendingOf p tap (advanceSample m) := by
  rw [pendingOf, hm.act, if_pos rfl, symbolFrom_of_lt p tap _ _ hm.k_lt, ← sampleNow_eq_sample, List.cons_append]
  by_cases hlast : m.k.toNat + 1 = m.sps.toNat
  · rw [hlast, symbolFrom_end, advanceSample_last hlast, List.nil_append, pendingOf_idle rfl]
    rfl
  · rw [pendingOf, heldPairs_advanceSample, advanceSample_more hlast, ← toNat_k_succ hm.k_lt, if_pos hm.act]

/-- The loop emits the first of the pending samples and leaves the rest pending. -/
theorem fillSamples_pending {p : Params} (tap : TapMemory) (n : Nat) {m : ModState} (hm : m.ok p) (hc : m.cfg = true) :
    (fillSamples p tap n m).samples = (pendingOf p tap m).take n ∧
      pendingOf p tap (fillSamples p tap n m).mod = (pendingOf p tap m).drop n := by
  induction n generalizing m with
  | zero => exact ⟨rfl, rfl⟩
  | succ n ih =>
    cases h : ensureSymbol m with
    | none =>
      rw [fillSamples_exhausted (n + 1) h, pendingOf_exhausted h]
      exact ⟨rfl, rfl⟩
    | some r =>
      obtain ⟨m', pulled⟩ := r
      obtain ⟨hm', hc'⟩ := pass_ok hm hc h
      obtain ⟨htake, hdrop⟩ := ih hm' hc'
      rw [fillSamples_succ n h, ← pendingOf_ensureSymbol tap ((ModState.ok_iff_ready hc).1 hm).1 h,
        pendingOf_advanceSample tap (ensureSymbol_inSymbol hm hc h).1, List.take_succ_cons, List.drop_succ_cons]
      exact ⟨congrArg _ htake, hdrop⟩

/-! ### Where the samples leave the modulator (10_state.md R38-R40) -/

/-- `a` is the modulator `m` after `made` samples, for which `begun` symbols were begun, `pulled` bytes pulled and `done`
symbols completed. -/
structure Progress (m a : ModState) (made begun pulled done : Nat) : Prop where
  config : m.SameConfig a
  k : m.k.toNat + made = done * m.sps.toNat + a.k.toNat
  act : begun + m.act.toNat = done + a.act.toNat
  bits : m.bits.toNat + 8 * pulled = a.bits.toNat + 2 * begun
  symcnt : a.symcnt = m.symcnt + BitVec.ofNat 64 done
  fifo : a.inFifo = m.inFifo.drop pulled
  pulled_le : pulled ≤ m.inFifo.length
  byte : a.byte = if pulled = 0 then m.byte else m.inFifo.getD (pulled - 1) m.byte
  held : heldPairs a = (heldPairs m).drop begun
  signs : (a.ineg, a.qneg) = if begun = 0 then (m.ineg, m.qneg) else signs ((heldPairs m).getD (begun - 1) 0#2)

theorem Progress.refl (m : ModState) : Progress m m 0 0 0 0 where
  config := .refl m
  k := by omega
  act := rfl
  bits := rfl
  symcnt := (BitVec.add_zero _).symm
  fifo := rfl
  pulled_le := Nat.zero_le _
  byte := rfl
  held := rfl
  signs := rfl

section
variable {p : Params} {m a : ModState} {made begun pulled done : Nat} (h : Progress m a made begun pulled done)
include h

/-- Pulling a byte counts it. -/
theorem Progress.pull {b : Byte} {rest : List Byte} (hb : a.bits = 0#4) (hf : a.inFifo = b :: rest) :
    Progress m (pullByte b rest a) made begun (pulled + 1) done :=
  have hdrop : m.inFifo.drop pulled = b :: rest := h.fifo.symm.trans hf
  { h with
    bits := by
      have hbits := h.bits
      rw [hb, BitVec.toNat_ofNat] at hbits
      rw [pullByte, BitVec.toNat_ofNat]
      omega
    fifo := by rw [← List.tail_drop, hdrop, List.tail_cons, pullByte]
    pulled_le := by
      have hlen := congrArg List.length hdrop
      rw [List.length_drop, List.length_cons] at hlen
      omega
    byte := by
      have hget : m.inFifo[pulled]? = some b := by rw [← List.head?_drop, hdrop, List.head?_cons]
      simp [pullByte, hget]
    held := (heldPairs_pullByte hb hf).trans h.held }

/-- Mapping a pair begins its symbol. -/
theorem Progress.map (ha : a.Ready p) (hact : a.act = false) (hk : a.k = 0#16) (hb : a.bits ≠ 0#4) :
    Progress m (mapNext a) made (begun + 1) pulled done :=
  have hdrop : (heldPairs m).drop begun = nextPair a :: heldPairs (mapNext a) :=
    h.held.symm.trans (heldPairs_mapNext ha hb)
  { h with
    k := by rw [h.k, hk, mapNext_k]
    act := by
      have hcount := h.act
      rw [hact, Bool.toNat_false] at hcount
      rw [mapNext_act, Bool.toNat_true]
      omega
    bits := by
      have hbits := h.bits
      have huse := (toNat_bits_mapNext ha hb).1
      omega
    held := by rw [← List.tail_drop, hdrop, List.tail_cons]
    signs := by
      have hget : (heldPairs m)[begun]? = some (nextPair a) := by rw [← List.head?_drop, hdrop, List.head?_cons]
      simp [hget, ← mapSymbol_eq_signs, mapNext] }

/-- The last sample of a symbol completes it. -/
theorem Progress.complete (hact : a.act = true) (hlast : a.k.toNat + 1 = a.sps.toNat) :
    Progress m { a with act := false, k := 0#16, symcnt := a.symcnt + 1#64 } (made + 1) begun pulled (done + 1) :=
  { h with
    k := by
      have hk := h.k
      obtain ⟨-, -, hsps, -, -⟩ := h.config
      rw [hsps] at hlast
      rw [Nat.succ_mul, BitVec.toNat_ofNat]
      omega
    act := by
      have hcount := h.act
      rw [hact, Bool.toNat_true] at hcount
      rw [Bool.toNat_false]
      omega
    symcnt := by rw [h.symcnt, BitVec.ofNat_add, BitVec.add_assoc] }

/-- Any other sample goes on in its symbol. -/
theorem Progress.next (hk : a.k.toNat < a.sps.toNat) :
    Progress m { a with k := a.k + 1#16 } (made + 1) begun pulled done :=
  { h with k := by rw [toNat_k_succ hk, ← Nat.add_assoc, ← Nat.add_assoc, h.k] }

/-- A pass of the loop first has a symbol in progress; a pair of the last byte pulled has then been used up. -/
theorem Progress.ensureSymbol {a' : ModState} {n : Nat} (ha : a.ok p) (hc : a.cfg = true)
    (hlt : pulled ≠ 0 → a.bits.toNat < 8) (he : ensureSymbol a = some (a', n)) :
    (∃ begun', Progress m a' made begun' (pulled + n) done) ∧ (pulled + n ≠ 0 → a'.bits.toNat < 8) := by
  obtain ⟨hready, -, hidle⟩ := (ModState.ok_iff_ready hc).1 ha
  rcases ensureSymbol_steps he with ⟨-, rfl, rfl⟩ | ⟨hact, hb, rfl, rfl⟩ | ⟨b, rest, hact, hb, hf, rfl, rfl⟩
  · exact ⟨⟨_, h⟩, hlt⟩
  · exact ⟨⟨_, h.map hready hact (hidle hact) hb⟩, fun _ => (toNat_bits_mapNext hready hb).2⟩
  · have hpull := pullByte_ready hready hf
    exact ⟨⟨_, (h.pull hb hf).map hpull hact (hidle hact) pullByte_bits_ne⟩,
      fun _ => (toNat_bits_mapNext hpull pullByte_bits_ne).2⟩

/-- It then moves past a sample. -/
theorem Progress.advanceSample (ha : a.InSymbol p) :
    ∃ done', Progress m (advanceSample a) (made + 1) begun pulled done' := by
  by_cases hlast : a.k.toNat + 1 = a.sps.toNat
  · rw [advanceSample_last hlast]
    exact ⟨_, h.complete ha.act hlast⟩
  · rw [advanceSample_more hlast]
    exact ⟨_, h.next ha.k_lt⟩

end

@[simp] theorem advanceSample_bits (m : ModState) : (advanceSample m).bits = m.bits := by
  unfold advanceSample
  split <;> rfl

/-- The whole loop, from any point of the progress. -/
theorem Progress.fillSamples {p : Params} (tap : TapMemory) (n : Nat) {m a : ModState} {made begun pulled done : Nat}
    (h : Progress m a made begun pulled done) (ha : a.ok p) (hc : a.cfg = true)
    (hlt : pulled ≠ 0 → a.bits.toNat < 8) :
    (∃ begun' done', Progress m (fillSamples p tap n a).mod (made + (fillSamples p tap n a).samples.length) begun'
        (pulled + (fillSamples p tap n a).consumed) done') ∧
      (pulled + (fillSamples p tap n a).consumed ≠ 0 → (fillSamples p tap n a).mod.bits.toNat < 8) := by
  induction n generalizing a made begun pulled done with
  | zero => exact ⟨⟨_, _, h⟩, hlt⟩
  | succ n ih =>
    cases he : Machine.ensureSymbol a with
    | none =>
      rw [fillSamples_exhausted (n + 1) he]
      exact ⟨⟨_, _, h⟩, hlt⟩
    | some r =>
      obtain ⟨a', pulled'⟩ := r
      obtain ⟨⟨begun', h'⟩, hlt'⟩ := h.ensureSymbol ha hc hlt he
      obtain ⟨done', h''⟩ := h'.advanceSample (ensureSymbol_inSymbol ha hc he).1
      obtain ⟨hok, hcfg⟩ := pass_ok ha hc he
      have hrest := ih h'' hok hcfg (by rwa [advanceSample_bits])
      rw [fillSamples_succ n he, List.length_cons]
      rwa [Nat.add_assoc pulled, Nat.add_assoc made, Nat.add_comm 1] at hrest

/-! ### The closed form (10_state.md R38-R40; 41_modulator.md R152) -/

/-- A symbol is in progress exactly when it has emitted a sample, and it has samples left. -/
theorem ModState.cursor_of_ok {p : Params} {m : ModState} (hm : m.ok p) (hc : m.cfg = true) :
    m.act = decide (m.k.toNat ≠ 0) ∧ m.k.toNat < m.sps.toNat := by
  obtain ⟨hready, hact, hidle⟩ := (ModState.ok_iff_ready hc).1 hm
  cases ha : m.act with
  | false =>
    rw [hidle ha]
    exact ⟨rfl, hready.config.1⟩
  | true =>
    obtain ⟨hk, hlt⟩ := hact ha
    exact ⟨(decide_eq_true (Nat.ne_of_gt hk)).symm, hlt⟩

/-- How many symbols `d` whole ones and `k` further samples take. -/
theorem symbols_ceil {d k sps : Nat} (hk : k < sps) : (d * sps + k + sps - 1) / sps = d + (decide (k ≠ 0)).toNat := by
  rw [show d * sps + k + sps - 1 = k + sps - 1 + d * sps by omega, Nat.add_mul_div_right _ _ (by omega), Nat.add_comm]
  by_cases h0 : k = 0
  · rw [h0, Nat.div_eq_of_lt (by omega)]
    rfl
  · rw [show k + sps - 1 = k - 1 + sps by omega, Nat.add_div_right _ (by omega), Nat.div_eq_of_lt (by omega)]
    simp [h0]

/-- A modulator with the configuration of another, written as an update of it. -/
theorem ModState.SameConfig.eq_update {m a : ModState} (h : m.SameConfig a) :
    a = { m with
      inFifo := a.inFifo
      byte := a.byte
      bits := a.bits
      act := a.act
      ineg := a.ineg
      qneg := a.qneg
      k := a.k
      symcnt := a.symcnt } := by
  obtain ⟨hcfg, hdbg, hsps, halpha, hn⟩ := h
  rw [← hcfg, ← hdbg, ← hsps, ← halpha, ← hn]

section
variable {p : Params} {m a : ModState} {made begun pulled done : Nat} (h : Progress m a made begun pulled done)
include h

/-- The samples made fill whole symbols up to M_K. -/
theorem Progress.done_eq (hk : a.k.toNat < m.sps.toNat) :
    (m.k.toNat + made) / m.sps.toNat = done ∧ (m.k.toNat + made) % m.sps.toNat = a.k.toNat := by
  rw [h.k, Nat.div_mod_unique (by omega)]
  exact ⟨by ring, hk⟩

theorem Progress.symbolsBegun_eq (hk : a.k.toNat < m.sps.toNat) (hact : a.act = decide (a.k.toNat ≠ 0)) :
    symbolsBegun m made = begun := by
  have hcount := h.act
  rw [symbolsBegun, h.k, symbols_ceil hk, ← hact, ← hcount]
  cases m.act <;> simp

/-- The bytes pulled are the fewest that hold the pairs of the symbols begun. -/
theorem Progress.bytesPulled_eq (hb : symbolsBegun m made = begun) (hm : m.Ready p) (ha : a.Ready p)
    (hlt : pulled ≠ 0 → a.bits.toNat < 8) : bytesPulled m made = pulled := by
  have hbits := h.bits
  have hevenm := hm.bits_even
  have hevena := ha.bits_even
  rw [bytesPulled, hb]
  omega

/-- The counters determine the modulator. -/
theorem Progress.eq_modAfter (hk : a.k.toNat < m.sps.toNat) (hact : a.act = decide (a.k.toNat ≠ 0))
    (hb : symbolsBegun m made = begun) (hp : bytesPulled m made = pulled) : a = modAfter m made := by
  obtain ⟨hdone, hmod⟩ := h.done_eq hk
  have hsigns : signsAfter m made = (a.ineg, a.qneg) := by rw [signsAfter, hb, h.signs]
  have hbits : BitVec.ofNat 4 (m.bits.toNat + 8 * pulled - 2 * begun) = a.bits := by
    rw [h.bits, Nat.add_sub_cancel, BitVec.ofNat_toNat, BitVec.setWidth_eq]
  rw [h.config.eq_update, modAfter, hsigns, hp, hb, hbits, hdone, hmod, ← hact, ← h.fifo, ← h.byte, ← h.symcnt,
    BitVec.ofNat_toNat, BitVec.setWidth_eq]

end

/-- The loop leaves the modulator, and pulls bytes, as the samples it emits determine. -/
theorem fillSamples_eq_modAfter {p : Params} (tap : TapMemory) (n : Nat) {m : ModState} (hm : m.ok p)
    (hc : m.cfg = true) :
    let r := fillSamples p tap n m
    r.mod = modAfter m r.samples.length ∧ r.consumed = bytesPulled m r.samples.length ∧
      bytesPulled m r.samples.length ≤ m.inFifo.length := by
  intro r
  have hok : r.mod.ok p := fillSamples_ok p tap n hm hc
  have hcfg : r.mod.cfg = true := fillSamples_cfg p tap n hc
  obtain ⟨hact, hk⟩ := ModState.cursor_of_ok hok hcfg
  obtain ⟨⟨begun, done, h⟩, hlt⟩ := (Progress.refl m).fillSamples tap n hm hc (absurd rfl)
  rw [Nat.zero_add, Nat.zero_add] at h
  rw [Nat.zero_add] at hlt
  obtain ⟨-, -, hsps, -, -⟩ := h.config
  rw [hsps] at hk
  have hb := h.symbolsBegun_eq hk hact
  have hp := h.bytesPulled_eq hb ((ModState.ok_iff_ready hc).1 hm).1 ((ModState.ok_iff_ready hcfg).1 hok).1 hlt
  exact ⟨h.eq_modAfter hk hact hb hp, hp.symm, hp ▸ h.pulled_le⟩

/-- Settles O40: what the loop emits and leaves pending is `fillSamples_pending`, the counts and the modulator it leaves
are `fillSamples_eq_modAfter`. -/
theorem requestEmitsThePendingStream : Obligations.RequestEmitsThePendingStream := by
  intro n s hm hc made t
  obtain ⟨hsamples, hrest⟩ := fillSamples_pending s.tap n.toNat hm hc
  obtain ⟨hmod, hpulled, hle⟩ := fillSamples_eq_modAfter s.tap n.toNat hm hc
  have hmade : (fillSamples s.params s.tap n.toNat s.mod).samples.length = made := by
    rw [hsamples, List.length_take, ← pendingSamples_eq_pendingOf]
  rw [hmade] at hmod hpulled hle
  refine ⟨?_, ?_, hle⟩
  · rw [exec_modRequest_of_cfg n hc, fillFor, hmade, hpulled, hmod, hsamples, ← pendingSamples_eq_pendingOf]
    simp only [emitRsp, emitSamples, State.setOut, State.setMod, t]
  · rw [hmod] at hrest
    rw [pendingSamples_eq_pendingOf, pendingSamples_eq_pendingOf]
    exact hrest

end Sys2Proof.Machine
end

section
/-! 42_converter.md R171-R175, R177-R180, R190, R194, R195: MSG.DELIVER, the budget of a request, and the requests that
emit no PDU byte. -/

namespace Sys2Proof.Machine

open Sys2Proof.Reference

/-- Settles O46: a configured converter takes what `deliverTo` makes of the message, and no other part of the state. -/
theorem messagesAreQueuedOrDropped : Obligations.MessagesAreQueuedOrDropped :=
  fun kind len payload _ hc => exec_msgDeliver_of_cfg kind len payload hc

/-! ### The budget (42_converter.md R178-R180) -/

/-- Braw under NEAREST is one integer division (42_converter.md R179). -/
theorem itemsDue_nearest {p : Params} (h : p.paceRound = .nearest) (delta : Nat) (rate : BitVec 64) :
    itemsDue p delta rate = (2 * (delta * rate.toNat) + p.fTick * 2 ^ 32) / (2 * (p.fTick * 2 ^ 32)) := by
  rw [itemsDue, h, mul_assoc, show p.fTick * 2 ^ 33 = 2 * (p.fTick * 2 ^ 32) by ring]

/-- Braw under FLOOR is one integer division (42_converter.md R179). -/
theorem itemsDue_floor {p : Params} (h : p.paceRound = .floor) (delta : Nat) (rate : BitVec 64) :
    itemsDue p delta rate = delta * rate.toNat / (p.fTick * 2 ^ 32) := by
  rw [itemsDue, h]

/-- Rounding a quotient half up is one integer division; a quotient by 0 is 0. -/
theorem floor_div_add_half (a d : Nat) : ⌊(a : ℚ) / d + 1 / 2⌋₊ = (2 * a + d) / (2 * d) := by
  rcases Nat.eq_zero_or_pos d with rfl | hd
  · norm_num
  · have hsum : (a : ℚ) / d + 1 / 2 = ((2 * a + d : ℕ) : ℚ) / (2 * d : ℕ) := by
      push_cast
      field_simp
    rw [hsum, Nat.floor_div_eq_div]

/-- The exact due count of 42_converter.md R178, as a quotient of two naturals. -/
theorem dueCount_eq_div (p : Params) (delta : Nat) (rate : BitVec 64) :
    (delta : ℚ) * rate.toNat / (p.fTick * 2 ^ 32) = (delta * rate.toNat : ℕ) / (p.fTick * 2 ^ 32 : ℕ) := by
  push_cast
  rfl

/-- The machine's integer form of the budget is the rational rule. -/
theorem budget_eq_budgetOf (p : Params) (c : ConvState) (t : BitVec 64) (n : BitVec 24) :
    budget p c t n = budgetOf p (t.toNat - c.lastT.toNat) c.rate n.toNat := by
  rw [budget, budgetOf, dueCount_eq_div]
  cases h : p.paceRound with
  | nearest => rw [itemsDue_nearest h, ← floor_div_add_half, ← Int.floor_toNat]
  | floor => rw [itemsDue_floor h, ← Nat.floor_div_eq_div (K := ℚ), ← Int.floor_toNat]

/-- Settles O47: the integer form is the rational rule (`budget_eq_budgetOf`), and an integer quotient is 0 below its
divisor. -/
theorem budgetIsTheRoundedDueCount : Obligations.BudgetIsTheRoundedDueCount := by
  refine ⟨budget_eq_budgetOf, fun p delta rate hf => ⟨fun h hlt => ?_, fun h hlt => ?_, fun m h htie => ?_⟩⟩
  · rw [itemsDue_floor h, Nat.div_eq_of_lt hlt]
  · rw [itemsDue_nearest h]
    exact Nat.div_eq_of_lt (by omega)
  · rw [itemsDue_nearest h, htie]
    exact Nat.div_eq_of_eq_mul_left (by positivity) (by ring)

/-! ### A request that completes -/

/-- A CONV.REQUEST whose two draws answer completes: it emits what the loop emits, answers the budget, and writes the
unit, TIME and the model's own record of the draws. -/
theorem exec_convRequest_of_drain {n : BitVec 24} {t1 t2 : BitVec 64} {s s1 s2 : State} {b : Nat} {r : DrainResult}
    (hc : s.conv.cfg = true) (hd1 : drawTime s = some (t1, s1)) (hd2 : drawTime s1 = some (t2, s2))
    (hb : budgetOf s.params (t1.toNat - s.conv.lastT.toNat) s.conv.rate n.toNat = b)
    (hr : drain s.conv.wcount b b 0 s.conv = r) :
    exec (.convRequest n) s = .next
      (convEffect { r.conv with wcount := s.conv.wcount + BitVec.ofNat 64 b, lastT := t2 } s2.time s2.env
        r.bytes r.tags [BitVec.ofNat 32 b] s) := by
  have hat : drainAt s t1 n = r := by rw [drainAt, budget_eq_budgetOf, hb, hr]
  have hlen : r.bytes.length = b := hr ▸ drain_bytes_length _ _ (Nat.sub_zero b).le
  rw [exec_convRequest_of_draws n hc hd1 hd2, hat, drawTime_frame hd2, drawTime_frame hd1, afterDrain, hlen]
  rfl

/-! ### What a pass makes current (42_converter.md R181, R182) -/

/-- The bytes of the current PDU not emitted yet. -/
abbrev ConvState.unread (c : ConvState) : List Byte := c.cur.drop c.pos.toNat

/-- No PDU is current, or an exhausted one is. -/
def ConvState.Exhausted (c : ConvState) : Prop := c.curValid = true → c.pos.toNat = c.cur.length

/-- The unit after a pop: `pdu` is current and began at place `produced` of the request (42_converter.md R182). -/
def ConvState.popped (produced : Nat) (pdu : List Byte) (rest : List (List Byte)) (c : ConvState) : ConvState :=
  { c with queue := rest, cur := pdu, curValid := true, pos := 0#20, tagOff := BitVec.ofNat 24 produced }

/-- A current PDU that is exhausted is cleared, so that none is current. -/
theorem clearExhausted_curValid {c : ConvState} (h : c.Exhausted) : (clearExhausted c).curValid = false := by
  rcases clearExhausted_cases c with ⟨-, -, he⟩ | ⟨hne, he⟩
  · rw [he]
  · rw [he]
    exact Bool.eq_false_iff.2 fun hv => hne ⟨hv, h hv⟩

theorem clearExhausted_queue (c : ConvState) : (clearExhausted c).queue = c.queue := by
  rcases clearExhausted_cases c with ⟨-, -, he⟩ | ⟨-, he⟩ <;> rw [he]

section
variable {c : ConvState} (produced : Nat)

/-- Nothing is popped while bytes of the current PDU are left. -/
theorem pop_of_current (hv : c.curValid = true) (hlt : c.pos.toNat < c.cur.length) :
    popPdu produced (clearExhausted c) = c := by
  have hclear : clearExhausted c = c := if_neg fun h => hlt.ne h.2
  rw [hclear, popPdu, if_pos hv]

/-- Nothing is popped from an empty queue. -/
theorem pop_of_nil (hq : c.queue = []) : popPdu produced (clearExhausted c) = clearExhausted c := by
  rcases popPdu_cases produced (clearExhausted c) with ⟨-, he⟩ | ⟨-, -, he⟩ | ⟨pdu, rest, -, hcons, -⟩
  · exact he
  · exact he
  · exact absurd ((clearExhausted_queue c).symm.trans hcons) (hq ▸ nofun)

/-- With no byte left of a current PDU, the front of C_Q becomes current. -/
theorem pop_of_cons {pdu : List Byte} {rest : List (List Byte)} (he : c.Exhausted) (hq : c.queue = pdu :: rest) :
    popPdu produced (clearExhausted c) = c.popped produced pdu rest := by
  rcases popPdu_cases produced (clearExhausted c) with ⟨hv, -⟩ | ⟨-, hnil, -⟩ | ⟨pdu', rest', -, hcons, hp⟩
  · exact absurd ((clearExhausted_curValid he).symm.trans hv) nofun
  · exact absurd ((clearExhausted_queue c).symm.trans hnil) (hq ▸ nofun)
  · obtain ⟨rfl, rfl⟩ := List.cons.inj (hq.symm.trans ((clearExhausted_queue c).symm.trans hcons))
    rw [hp]
    rcases clearExhausted_cases c with ⟨-, -, h⟩ | ⟨-, h⟩ <;> rw [h] <;> rfl

end

/-! ### Requests that emit padding alone (42_converter.md R187, R190, R194, R195) -/

section
variable {base : BitVec 64} {b produced : Nat} {c : ConvState} (fuel : Nat)

/-- With nothing queued and no byte left of a current PDU, the rest of the budget is padded. -/
theorem drain_of_nil (hb : produced < b) (he : c.Exhausted) (hq : c.queue = []) :
    drain base b (fuel + 1) produced c = ⟨clearExhausted c, List.replicate (b - produced) padByte, []⟩ := by
  have hpop : popPdu produced (clearExhausted c) = clearExhausted c := pop_of_nil produced hq
  have hchunk : chunkOf (b - produced) (clearExhausted c) = 0 := if_neg (clearExhausted_curValid he ▸ nofun)
  rw [drain_pad fuel hb (by rw [hpop, hchunk]), hpop]

/-- With an empty PDU at the front of C_Q, it is popped and the rest of the budget is padded. -/
theorem drain_of_nil_cons {rest : List (List Byte)} (hb : produced < b) (he : c.Exhausted) (hq : c.queue = [] :: rest) :
    drain base b (fuel + 1) produced c = ⟨c.popped produced [] rest, List.replicate (b - produced) padByte, []⟩ := by
  have hpop : popPdu produced (clearExhausted c) = c.popped produced [] rest := pop_of_cons produced he hq
  have hchunk : chunkOf (b - produced) (c.popped produced [] rest) = 0 := Nat.min_zero _
  rw [drain_pad fuel hb (by rw [hpop, hchunk]), hpop]

/-- With nothing queued and no byte left of a current PDU, the whole of a budget is padded. -/
theorem drain_pads (b : Nat) (he : c.Exhausted) (hq : c.queue = []) :
    ∃ c', drain base b b 0 c = ⟨c', List.replicate b padByte, []⟩ ∧ c'.queue = [] := by
  cases b with
  | zero => exact ⟨c, rfl, hq⟩
  | succ b => exact ⟨_, drain_of_nil b b.succ_pos he hq, (clearExhausted_queue c).trans hq⟩

end

/-- Settles O48: with budget 0 the loop is over at once (`drain_done`). -/
theorem zeroBudgetEmitsNothing : Obligations.ZeroBudgetEmitsNothing := by
  intro n s s1 s2 t1 t2 hc hd1 hd2 hb
  rw [exec_convRequest_of_drain hc hd1 hd2 hb (drain_done 0 (Nat.le_refl 0))]
  simp [convEffect]

/-- Settles O49: the loop pads the whole budget (`drain_pads`). -/
theorem emptyQueueIsPadded : Obligations.EmptyQueueIsPadded := by
  intro n s s1 s2 t1 t2 hc hd1 hd2 hq he b
  obtain ⟨c', hdrain, hq'⟩ := drain_pads (base := s.conv.wcount) b he hq
  refine ⟨_, exec_convRequest_of_drain hc hd1 hd2 rfl hdrain, ?_, hq', rfl, rfl⟩
  simp [convEffect, padByte, b]

/-- Settles O50: the empty PDU is popped and the budget padded (`drain_of_nil_cons`). -/
theorem emptyPduPadsTheRest : Obligations.EmptyPduPadsTheRest := by
  intro n s s1 s2 t1 t2 later hc hd1 hd2 hq he b hb
  obtain ⟨m, hm⟩ := Nat.exists_eq_succ_of_ne_zero hb.ne'
  have hdrain : drain s.conv.wcount b b 0 s.conv = ⟨s.conv.popped 0 [] later, List.replicate b padByte, []⟩ := by
    rw [hm]
    exact drain_of_nil_cons m m.succ_pos he hq
  refine ⟨_, exec_convRequest_of_drain hc hd1 hd2 rfl hdrain, ?_, rfl, rfl, rfl, rfl⟩
  simp [convEffect, padByte, b]

end Sys2Proof.Machine
end

section
/-! 42_converter.md R176, R181-R193, R197: CONV.REQUEST emits PDUs back to back, and where they leave the converter. -/

namespace Sys2Proof.Machine

open Sys2Proof.Reference

/-! ### The loop as a relation -/

/-- The unit with no current PDU (42_converter.md R181). -/
def ConvState.stopped (c : ConvState) : ConvState := { c with curValid := false, cur := [], pos := 0#20 }

/-- The unit after a copy of `n` bytes of the current PDU, which is counted when they are its first (42_converter.md
R183-R185). -/
def ConvState.copied (n : Nat) (c : ConvState) : ConvState :=
  { c with pos := c.pos + BitVec.ofNat 20 n, tagCnt := if c.pos == 0#20 then c.tagCnt + 1#32 else c.tagCnt }

/-- The tag of `pdu` begun at place `produced` of a request (42_converter.md R184). -/
def tagAt (base : BitVec 64) (key : List Byte) (produced : Nat) (pdu : List Byte) : Tag where
  offset := base + BitVec.ofNat 64 produced
  key := key
  value := BitVec.ofNat 64 pdu.length

/-- At place `produced` of a request with budget `b` a pass copies `n` bytes of the current PDU: all it has left, or all
the budget has left. -/
structure Copies (b produced n : Nat) (c : ConvState) : Prop where
  lt : produced < b
  eq : n = min (b - produced) c.unread.length
  room : c.pos.toNat + n < 2 ^ 20

/-- What the loop of a request with budget `b` leaves, begun at place `produced`: its passes, one constructor for each
thing a pass can do. -/
inductive Drains (base : BitVec 64) (b : Nat) : Nat → ConvState → DrainResult → Prop where
  /-- The budget is emitted. -/
  | done {produced : Nat} {c : ConvState} (hb : b ≤ produced) : Drains base b produced c ⟨c, [], []⟩
  /-- Nothing is held: the rest is padded (42_converter.md R187). -/
  | idle {produced : Nat} {c : ConvState} (hb : produced < b) (hu : c.unread = []) (hq : c.queue = []) :
      Drains base b produced c ⟨c.stopped, List.replicate (b - produced) padByte, []⟩
  /-- An empty PDU comes next: it is popped and the rest is padded (42_converter.md R190). -/
  | emptyPdu {produced : Nat} {c : ConvState} {rest : List (List Byte)} (hb : produced < b) (hu : c.unread = [])
      (hq : c.queue = [] :: rest) :
      Drains base b produced c ⟨c.popped produced [] rest, List.replicate (b - produced) padByte, []⟩
  /-- The current PDU goes on, without a tag (42_converter.md R186). -/
  | current {produced n : Nat} {c : ConvState} {r : DrainResult} (hn : Copies b produced n c) (hpos : c.pos ≠ 0#20)
      (hr : Drains base b (produced + n) (c.copied n) r) :
      Drains base b produced c ⟨r.conv, c.unread.take n ++ r.bytes, r.tags⟩
  /-- The front PDU of C_Q is popped and begun, with its tag (42_converter.md R182, R184). -/
  | nextPdu {produced n : Nat} {c : ConvState} {pdu : List Byte} {rest : List (List Byte)} {r : DrainResult}
      (hu : c.unread = []) (hq : c.queue = pdu :: rest) (hne : pdu ≠ [])
      (hn : Copies b produced n (c.popped produced pdu rest))
      (hr : Drains base b (produced + n) ((c.popped produced pdu rest).copied n) r) :
      Drains base b produced c ⟨r.conv, pdu.take n ++ r.bytes, tagAt base c.tagName produced pdu :: r.tags⟩

/-- No byte of a current PDU is left exactly where none is current or an exhausted one is. -/
theorem ConvState.Ready.unread_eq_nil {p : Params} {c : ConvState} (h : c.Ready p) : c.unread = [] ↔ c.Exhausted := by
  rw [List.drop_eq_nil_iff]
  cases hv : c.curValid with
  | false =>
    obtain ⟨hcur, -⟩ := h.idle hv
    exact ⟨fun _ hv' => absurd (hv.symm.trans hv') nofun, fun _ => hcur ▸ Nat.zero_le _⟩
  | true =>
    obtain ⟨-, hle⟩ := h.cur hv
    exact ⟨fun hge _ => hle.antisymm hge, fun he => (he hv).ge⟩

/-- Clearing an exhausted PDU leaves no current one, and changes nothing where there was none. -/
theorem ConvState.Ready.clearExhausted_eq {p : Params} {c : ConvState} (h : c.Ready p) (he : c.Exhausted) :
    clearExhausted c = c.stopped := by
  rcases clearExhausted_cases c with ⟨-, -, hc⟩ | ⟨hne, hc⟩
  · exact hc
  · have hv : c.curValid = false := Bool.eq_false_iff.2 fun hv => hne ⟨hv, he hv⟩
    obtain ⟨hcur, hpos⟩ := h.idle hv
    rw [hc, ConvState.stopped, ← hv, ← hcur, ← hpos]

/-- The tag of a PDU just popped is at the place it was popped at (42_converter.md R184). -/
theorem tagOfCurrent_popped {produced : Nat} (hp : produced < 2 ^ 24) (base : BitVec 64) (pdu : List Byte)
    (rest : List (List Byte)) (c : ConvState) :
    tagOfCurrent base (c.popped produced pdu rest) = tagAt base c.tagName produced pdu := by
  have hoff : (BitVec.ofNat 24 produced).setWidth 64 = BitVec.ofNat 64 produced := by
    apply BitVec.eq_of_toNat_eq
    simp only [BitVec.toNat_setWidth, BitVec.toNat_ofNat]
    omega
  rw [tagOfCurrent, ConvState.popped, hoff, tagAt]

section
variable {base : BitVec 64} {b produced : Nat} {c : ConvState} (fuel : Nat)

/-- A pass that goes on with the current PDU (42_converter.md R183-R186). -/
theorem drain_of_current (hb : produced < b) (hv : c.curValid = true) (hpos : c.pos ≠ 0#20) (hu : c.unread ≠ []) :
    let n := min (b - produced) c.unread.length
    let r := drain base b fuel (produced + n) (c.copied n)
    drain base b (fuel + 1) produced c = ⟨r.conv, c.unread.take n ++ r.bytes, r.tags⟩ := by
  have hlen := List.length_pos_iff.2 hu
  have hlt : c.pos.toNat < c.cur.length := by
    rw [List.length_drop] at hlen
    omega
  have hchunk : chunkOf (b - produced) c = min (b - produced) c.unread.length := by
    rw [chunkOf, if_pos hv, List.length_drop]
  have hfirst : (c.pos == 0#20) = false := beq_eq_false_iff_ne.2 hpos
  rw [drain_copy fuel hb (pop_of_current produced hv hlt).symm (by omega), hchunk, hfirst]
  simp [ConvState.copied, hfirst]

/-- A pass that pops and begins the front PDU of C_Q (42_converter.md R182-R186). -/
theorem drain_of_cons {pdu : List Byte} {rest : List (List Byte)} (hb : produced < b) (hmax : b ≤ 2 ^ 24 - 1)
    (he : c.Exhausted) (hq : c.queue = pdu :: rest) (hne : pdu ≠ []) :
    let n := min (b - produced) pdu.length
    let r := drain base b fuel (produced + n) ((c.popped produced pdu rest).copied n)
    drain base b (fuel + 1) produced c =
      ⟨r.conv, pdu.take n ++ r.bytes, tagAt base c.tagName produced pdu :: r.tags⟩ := by
  have hlen := List.length_pos_iff.2 hne
  have hchunk : chunkOf (b - produced) (c.popped produced pdu rest) = min (b - produced) pdu.length := rfl
  rw [drain_copy fuel hb (pop_of_cons produced he hq).symm (by omega), hchunk, tagOfCurrent_popped (by omega)]
  rfl

/-- A pass on a unit with bytes left of the current PDU copies some of them and keeps the unit legal (42_converter.md
R183-R185). -/
theorem copies_of_unread {p : Params} (hp : p.pduMax < 2 ^ 20) (hb : produced < b) (h : c.Ready p)
    (hv : c.curValid = true) (hu : c.unread ≠ []) :
    let n := min (b - produced) c.unread.length
    b - (produced + n) < b - produced ∧ Copies b produced n c ∧ (c.copied n).ok p := by
  intro n
  have h0 : 0 < n := lt_min (by omega) (List.length_pos_iff.2 hu)
  have hchunk : chunkOf (b - produced) c = n := by simp only [chunkOf, if_pos hv, n, List.length_drop]
  obtain ⟨hmax, hle⟩ := h.cur hv
  have hroom : c.pos.toNat + n < 2 ^ 20 := by
    simp only [n, List.length_drop]
    omega
  refine ⟨by omega, ⟨hb, rfl, hroom⟩, ?_⟩
  rw [ConvState.copied, ← hchunk]
  exact copy_ok hp h (hchunk ▸ h0) _

end

/-- On a legal unit the loop of a request takes the passes of `Drains`. -/
theorem drains_drain {p : Params} (hp : p.pduMax < 2 ^ 20) (base : BitVec 64) {b : Nat} (hmax : b ≤ 2 ^ 24 - 1)
    (fuel produced : Nat) {c : ConvState} (h : c.ok p) (hc : c.cfg = true) (hf : b - produced ≤ fuel) :
    Drains base b produced c (drain base b fuel produced c) := by
  induction fuel generalizing produced c with
  | zero => exact .done (by omega)
  | succ fuel ih =>
    by_cases hdone : b ≤ produced
    · rw [drain_done _ hdone]
      exact .done hdone
    have hb : produced < b := Nat.not_le.1 hdone
    obtain ⟨hready, hbegun⟩ := (ConvState.ok_iff_ready hc).1 h
    by_cases hu : c.unread = []
    · have he := hready.unread_eq_nil.1 hu
      match hq : c.queue with
      | [] =>
        rw [drain_of_nil fuel hb he hq, hready.clearExhausted_eq he]
        exact .idle hb hu hq
      | [] :: rest =>
        rw [drain_of_nil_cons fuel hb he hq]
        exact .emptyPdu hb hu hq
      | (x :: xs) :: rest =>
        have hready' : (c.popped produced (x :: xs) rest).Ready p :=
          pop_of_cons produced he hq ▸ popPdu_ready (clearExhausted_ready hready) (by omega)
        obtain ⟨hless, hn, hok⟩ := copies_of_unread hp hb hready' rfl nofun
        rw [drain_of_cons fuel hb hmax he hq nofun]
        exact .nextPdu hu hq nofun hn (ih _ hok hc (Nat.le_of_lt_succ (hless.trans_le hf)))
    · have hcur : c.cur ≠ [] := fun h0 => hu (by rw [ConvState.unread, h0, List.drop_nil])
      have hv : c.curValid = true := by
        by_contra hv
        exact hcur (hready.idle (Bool.eq_false_iff.2 hv)).1
      have hpos : c.pos ≠ 0#20 := fun h0 => absurd (hbegun hv hcur) (h0 ▸ nofun)
      obtain ⟨hless, hn, hok⟩ := copies_of_unread hp hb hready hv hu
      rw [drain_of_current fuel hb hv hpos hu]
      exact .current hn hpos (ih _ hok hc (Nat.le_of_lt_succ (hless.trans_le hf)))

/-! ### What a copy and a pop leave held -/

theorem unpadded_eq (c : ConvState) : unpadded c = c.unread ++ (backToBack c).flatten := rfl

theorem pduContent_eq (c : ConvState) : pduContent c = c.unread ++ c.queue.flatten := rfl

theorem unread_length_le_unpadded (c : ConvState) : c.unread.length ≤ (unpadded c).length := by
  rw [unpadded_eq, List.length_append]
  exact Nat.le_add_right _ _

section
variable {b produced n : Nat} {c : ConvState} (h : Copies b produced n c)
include h

/-- A copy stays within the budget and the current PDU. -/
theorem Copies.le : produced + n ≤ b ∧ n ≤ c.unread.length := by
  have hlt := h.lt
  have hn := h.eq
  omega

/-- A copy moves C_POS on by its length. -/
theorem Copies.toNat_pos : (c.copied n).pos.toNat = c.pos.toNat + n := by
  have hroom := h.room
  simp only [ConvState.copied, BitVec.toNat_add, BitVec.toNat_ofNat]
  omega

theorem Copies.unread : (c.copied n).unread = c.unread.drop n := by
  rw [ConvState.unread, h.toNat_pos, List.drop_drop]
  rfl

theorem Copies.unpadded : unpadded (c.copied n) = (unpadded c).drop n := by
  rw [unpadded_eq, unpadded_eq, List.drop_append_of_le_length h.le.2, h.unread]
  rfl

theorem Copies.pduContent : pduContent (c.copied n) = (pduContent c).drop n := by
  rw [pduContent_eq, pduContent_eq, List.drop_append_of_le_length h.le.2, h.unread]
  rfl

/-- A copy moves on in the request by as much as it leaves less of the current PDU. -/
theorem Copies.place : produced + n + (c.copied n).unread.length = produced + c.unread.length := by
  have hle := h.le
  rw [h.unread, List.length_drop]
  omega

/-- What a request takes of the bytes before any padding is what a copy takes and then what the later passes take. -/
theorem Copies.take_unpadded (pad : List Byte) :
    (Reference.unpadded c ++ pad).take (b - produced) =
      c.unread.take n ++ (Reference.unpadded (c.copied n) ++ pad).take (b - (produced + n)) := by
  obtain ⟨hb, hn⟩ := h.le
  have hlen := hn.trans (unread_length_le_unpadded c)
  have htake : c.unread.take n = (Reference.unpadded c ++ pad).take n := by
    rw [List.take_append_of_le_length hlen, unpadded_eq, List.take_append_of_le_length hn]
  rw [htake, h.unpadded, ← List.drop_append_of_le_length hlen, ← List.take_add]
  congr 1
  omega

/-- What a request leaves of the bytes held is what the later passes leave of those left by a copy. -/
theorem Copies.drop_pduContent :
    (Reference.pduContent (c.copied n)).drop (min (b - (produced + n)) (Reference.unpadded (c.copied n)).length) =
      (Reference.pduContent c).drop (min (b - produced) (Reference.unpadded c).length) := by
  obtain ⟨hb, hn⟩ := h.le
  have hlen := hn.trans (unread_length_le_unpadded c)
  rw [h.pduContent, h.unpadded, List.drop_drop, List.length_drop]
  congr 1
  omega

end

section
variable {c : ConvState} {produced : Nat} {pdu : List Byte} {rest : List (List Byte)}

theorem backToBack_of_nil_cons (hq : c.queue = [] :: rest) : backToBack c = [] := by
  simp [backToBack, hq]

theorem backToBack_of_cons (hq : c.queue = pdu :: rest) (hne : pdu ≠ []) :
    backToBack c = pdu :: backToBack (c.popped produced pdu rest) := by
  simp [backToBack, hq, hne, ConvState.popped]

/-- Popping a PDU that is not empty leaves the order of the bytes held. -/
theorem unpadded_popped (hu : c.unread = []) (hq : c.queue = pdu :: rest) (hne : pdu ≠ []) :
    unpadded (c.popped produced pdu rest) = unpadded c := by
  rw [unpadded_eq, unpadded_eq, hu, backToBack_of_cons hq hne]
  rfl

theorem pduContent_popped (hu : c.unread = []) (hq : c.queue = pdu :: rest) :
    pduContent (c.popped produced pdu rest) = pduContent c := by
  rw [pduContent_eq, pduContent_eq, hu, hq]
  rfl

end

/-! ### What the passes emit (42_converter.md R184-R187, R197) -/

/-- A PDU that begins past the budget has no tag. -/
theorem tagsFrom_of_le {base : BitVec 64} {key : List Byte} {b start : Nat} (h : b ≤ start) (pdus : List (List Byte)) :
    tagsFrom base key b start pdus = [] := by
  cases pdus with
  | nil => rfl
  | cons pdu rest => exact if_neg (Nat.not_lt.2 h)

section
variable {base : BitVec 64} {b produced : Nat} {c : ConvState} {r : DrainResult} (h : Drains base b produced c r)
include h

/-- The bytes emitted: the PDU bytes before any padding, then padding. -/
theorem Drains.bytes_eq : r.bytes = (unpadded c ++ List.replicate b padByte).take (b - produced) := by
  induction h with
  | done hb => simp [Nat.sub_eq_zero_of_le hb]
  | idle hb hu hq => simp [unpadded_eq, backToBack, hu, hq]
  | emptyPdu hb hu hq => simp [unpadded_eq, backToBack_of_nil_cons hq, hu]
  | current hn hpos hr ih => rw [ih, hn.take_unpadded]
  | nextPdu hu hq hne hn hr ih =>
    rw [ih, ← unpadded_popped hu hq hne, hn.take_unpadded]
    rfl

/-- The PDU bytes held and not emitted stay held, in order. -/
theorem Drains.pduContent_eq : pduContent r.conv = (pduContent c).drop (min (b - produced) (unpadded c).length) := by
  induction h with
  | done hb => simp [Nat.sub_eq_zero_of_le hb]
  | idle hb hu hq => simp [Machine.pduContent_eq, ConvState.stopped, hu, hq]
  | emptyPdu hb hu hq => simp [Machine.pduContent_eq, unpadded_eq, backToBack_of_nil_cons hq, ConvState.popped, hu, hq]
  | current hn hpos hr ih => rw [ih, hn.drop_pduContent]
  | nextPdu hu hq hne hn hr ih => rw [ih, hn.drop_pduContent, unpadded_popped hu hq hne, pduContent_popped hu hq]

/-- The tags emitted: one for each PDU begun. -/
theorem Drains.tags_eq : r.tags = tagsFrom base c.tagName b (produced + c.unread.length) (backToBack c) := by
  induction h with
  | done hb => rw [tagsFrom_of_le (by omega)]
  | idle hb hu hq => simp [backToBack, hq, tagsFrom]
  | emptyPdu hb hu hq => rw [backToBack_of_nil_cons hq, tagsFrom]
  | current hn hpos hr ih =>
    rw [ih, hn.place]
    rfl
  | @nextPdu produced n c pdu rest r hu hq hne hn hr ih =>
    rw [ih, hn.place, hu, backToBack_of_cons (produced := produced) hq hne]
    exact (if_pos hn.lt).symm

/-- C_TAGCNT counts the tags emitted (42_converter.md R185). -/
theorem Drains.tagCnt_eq : r.conv.tagCnt = c.tagCnt + BitVec.ofNat 32 r.tags.length := by
  induction h with
  | done | idle | emptyPdu => exact (BitVec.add_zero _).symm
  | current hn hpos hr ih => simp [ih, ConvState.copied, hpos]
  | nextPdu hu hq hne hn hr ih =>
    simp [ih, ConvState.copied, ConvState.popped, BitVec.ofNat_add, BitVec.add_assoc, BitVec.add_comm 1#32]

end

/-! ### Where the passes leave the converter (42_converter.md R181-R183, R190, R193) -/

/-- No PDU is current in `c'`. -/
structure ConvState.Stopped (c' : ConvState) : Prop where
  curValid : c'.curValid = false
  cur : c'.cur = []
  pos : c'.pos = 0#20

/-- Clause (3) of `CursorAfter`: the last PDU popped is `pdu`, begun at place `start`. -/
structure LastPopped (b start : Nat) (pdu : List Byte) (c' : ConvState) : Prop where
  tagOff : c'.tagOff.toNat = start
  stays : pdu = [] ∨ b ≤ start + pdu.length →
    c'.curValid = true ∧ c'.cur = pdu ∧ c'.pos.toNat = min pdu.length (b - start)
  ends : pdu ≠ [] → start + pdu.length < b → c'.Stopped

/-- `CursorAfter` for the passes of a request from place `produced` on; what the current PDU has left ends at place
`start`. -/
structure CursorFrom (b produced start : Nat) (c c' : ConvState) : Prop where
  queue : c'.queue = c.queue.drop (pdusBegun b start c.queue)
  within : b ≤ start →
    c'.curValid = c.curValid ∧ c'.cur = c.cur ∧ c'.pos.toNat = c.pos.toNat + (b - produced) ∧ c'.tagOff = c.tagOff
  past : start < b → pdusBegun b start c.queue = 0 → c'.Stopped ∧ c'.tagOff = c.tagOff
  popped : ∀ (j : Nat) (pdu : List Byte), pdusBegun b start c.queue = j + 1 → c.queue[j]? = some pdu →
    LastPopped b (start + (c.queue.take j).flatten.length) pdu c'

theorem pdusBegun_of_le {b start : Nat} (h : b ≤ start) (pdus : List (List Byte)) : pdusBegun b start pdus = 0 := by
  cases pdus with
  | nil => rfl
  | cons pdu rest => exact if_neg (Nat.not_lt.2 h)

theorem pdusBegun_of_nil_cons {b start : Nat} (h : start < b) (rest : List (List Byte)) :
    pdusBegun b start ([] :: rest) = 1 := by
  simp [pdusBegun, h]

theorem pdusBegun_of_cons {b start : Nat} {pdu : List Byte} (h : start < b) (hne : pdu ≠ []) (rest : List (List Byte)) :
    pdusBegun b start (pdu :: rest) = pdusBegun b (start + pdu.length) rest + 1 := by
  simp [pdusBegun, h, hne, Nat.add_comm]

/-- Nothing is left to emit: the unit stays as it is. -/
theorem CursorFrom.of_done {b produced start : Nat} (hb : b ≤ produced) (hs : produced ≤ start) (c : ConvState) :
    CursorFrom b produced start c c := by
  have hk := pdusBegun_of_le (hb.trans hs) c.queue
  exact {
    queue := by rw [hk, List.drop_zero]
    within := fun _ => ⟨rfl, rfl, by rw [Nat.sub_eq_zero_of_le hb, Nat.add_zero], rfl⟩
    past := fun hlt => absurd (hb.trans hs) (Nat.not_le.2 hlt)
    popped := fun _ _ hj => absurd (hk.symm.trans hj) nofun }

/-- Nothing is held: no PDU is current. -/
theorem CursorFrom.of_idle {b produced : Nat} {c : ConvState} (hb : produced < b) (hq : c.queue = []) :
    CursorFrom b produced produced c c.stopped where
  queue := by
    rw [hq, List.drop_nil]
    exact hq
  within hle := absurd hb (Nat.not_lt.2 hle)
  past _ _ := ⟨⟨rfl, rfl, rfl⟩, rfl⟩
  popped _ _ _ hj := absurd (hq ▸ hj) nofun

/-- A copy from the current PDU, and the passes after it. -/
theorem CursorFrom.of_copied {b produced start n : Nat} {c c' : ConvState} (hn : Copies b produced n c)
    (h : CursorFrom b (produced + n) start (c.copied n) c') : CursorFrom b produced start c c' := by
  refine ⟨h.queue, fun hb => ?_, h.past, h.popped⟩
  obtain ⟨hv, hc, hp, ht⟩ := h.within hb
  have hle := hn.le
  rw [hn.toNat_pos] at hp
  exact ⟨hv, hc, by omega, ht⟩

section
variable {b produced : Nat} {c c' : ConvState} {rest : List (List Byte)} (hmax : b ≤ 2 ^ 24 - 1) (hb : produced < b)
include hmax hb

/-- A PDU begun within a budget of 24 bits keeps its place in C_TAGOFF (42_converter.md R182; 10_state.md R46). -/
theorem toNat_tagOff_popped (pdu : List Byte) : (c.popped produced pdu rest).tagOff.toNat = produced := by
  simp only [ConvState.popped, BitVec.toNat_ofNat]
  omega

/-- An empty PDU comes next: it is popped and stays current. -/
theorem CursorFrom.of_emptyPdu (hq : c.queue = [] :: rest) :
    CursorFrom b produced produced c (c.popped produced [] rest) := by
  have hk : pdusBegun b produced c.queue = 1 := hq ▸ pdusBegun_of_nil_cons hb rest
  refine {
    queue := ?_
    within := fun hle => absurd hb (Nat.not_lt.2 hle)
    past := fun _ h0 => absurd (hk.symm.trans h0) nofun
    popped := fun j pdu hj hpdu => ?_ }
  · rw [hk, hq]
    rfl
  · obtain rfl : 0 = j := Nat.succ.inj (hk.symm.trans hj)
    rw [hq] at hpdu
    obtain rfl : [] = pdu := Option.some.inj hpdu
    exact {
      tagOff := toNat_tagOff_popped hmax hb []
      stays := fun _ => ⟨rfl, rfl, (Nat.zero_min _).symm⟩
      ends := fun hne => absurd rfl hne }

/-- The front PDU is popped and begun, and the passes after it pop no other. -/
theorem LastPopped.of_begun {n : Nat} {pdu : List Byte} (hne : pdu ≠ [])
    (hn : Copies b produced n (c.popped produced pdu rest))
    (h : CursorFrom b (produced + n) (produced + pdu.length) ((c.popped produced pdu rest).copied n) c')
    (h0 : pdusBegun b (produced + pdu.length) rest = 0) : LastPopped b produced pdu c' := by
  have hoff := toNat_tagOff_popped (c := c) (rest := rest) hmax hb pdu
  refine { tagOff := ?_, stays := fun hstay => ?_, ends := fun _ hlt => (h.past hlt h0).1 }
  · rcases Nat.lt_or_ge (produced + pdu.length) b with hlt | hge
    · rw [(h.past hlt h0).2]
      exact hoff
    · obtain ⟨-, -, -, ht⟩ := h.within hge
      rw [ht]
      exact hoff
  · have hle := hstay.resolve_left hne
    obtain ⟨hv, hc, hp, -⟩ := h.within hle
    have hcopy : n = min (b - produced) pdu.length := hn.eq
    have hzero : (c.popped produced pdu rest).pos.toNat = 0 := rfl
    rw [hn.toNat_pos, hzero] at hp
    exact ⟨hv, hc, by omega⟩

/-- The front PDU is popped and begun: it is the last one popped, unless the passes after it pop another. -/
theorem CursorFrom.of_popped {n : Nat} {pdu : List Byte} (hq : c.queue = pdu :: rest) (hne : pdu ≠ [])
    (hn : Copies b produced n (c.popped produced pdu rest))
    (h : CursorFrom b (produced + n) (produced + pdu.length) ((c.popped produced pdu rest).copied n) c') :
    CursorFrom b produced produced c c' := by
  have hk : pdusBegun b produced c.queue = pdusBegun b (produced + pdu.length) rest + 1 :=
    hq ▸ pdusBegun_of_cons hb hne rest
  refine {
    queue := ?_
    within := fun hle => absurd hb (Nat.not_lt.2 hle)
    past := fun _ h0 => absurd (hk.symm.trans h0) nofun
    popped := fun j pdu' hj hpdu => ?_ }
  · rw [hk, hq, List.drop_succ_cons]
    exact h.queue
  · have hj' := Nat.succ.inj (hk.symm.trans hj)
    rw [hq] at hpdu ⊢
    cases j with
    | zero =>
      obtain rfl : pdu = pdu' := Option.some.inj hpdu
      exact .of_begun hmax hb hne hn h hj'
    | succ j =>
      rw [List.take_succ_cons, List.flatten_cons, List.length_append, ← Nat.add_assoc]
      exact h.popped j pdu' hj' hpdu

end

/-- The passes leave the converter where `CursorFrom` says. -/
theorem Drains.cursor {base : BitVec 64} {b produced : Nat} {c : ConvState} {r : DrainResult} (hmax : b ≤ 2 ^ 24 - 1)
    (h : Drains base b produced c r) : CursorFrom b produced (produced + c.unread.length) c r.conv := by
  induction h with
  | done hb => exact .of_done hb (Nat.le_add_right _ _) _
  | idle hb hu hq =>
    rw [hu]
    exact .of_idle hb hq
  | emptyPdu hb hu hq =>
    rw [hu]
    exact .of_emptyPdu hmax hb hq
  | current hn hpos hr ih =>
    rw [hn.place] at ih
    exact .of_copied hn ih
  | nextPdu hu hq hne hn hr ih =>
    rw [hn.place] at ih
    rw [hu]
    exact .of_popped hmax hn.lt hq hne hn ih

/-- From the first place of a request on, `CursorFrom` is `CursorAfter`. -/
theorem CursorFrom.cursorAfter {b : Nat} {c c' : ConvState} (h : CursorFrom b 0 c.unread.length c c') :
    CursorAfter b c c' := by
  refine ⟨h.queue, h.within, fun hlt h0 => ?_, fun j pdu hj hpdu => ?_⟩
  · obtain ⟨⟨hv, hc, hp⟩, ht⟩ := h.past hlt h0
    exact ⟨hv, hc, hp, ht⟩
  · obtain ⟨ht, hstays, hends⟩ := h.popped j pdu hj hpdu
    refine ⟨ht, hstays, fun hne hlt => ?_⟩
    obtain ⟨hv, hc, hp⟩ := hends hne hlt
    exact ⟨hv, hc, hp⟩

/-! ### The whole request -/

/-- Settles O51: the loop takes the passes of `Drains` (`drains_drain`), whose bytes, tags and cursor are those of the
reference, and leaves the rest of the unit alone (`drain_sameBase`). -/
theorem requestEmitsPdusBackToBack : Obligations.RequestEmitsPdusBackToBack := by
  intro n s s1 s2 t1 t2 hp hok hc hd1 hd2 b tags
  have hmax : b ≤ 2 ^ 24 - 1 := (budget_eq_budgetOf s.params s.conv t1 n).symm.trans_le (budget_le _ _ _ _)
  obtain ⟨-, hpdu, -⟩ := Params.legal_bounds hp
  have hdrains := drains_drain (by omega) s.conv.wcount hmax b 0 hok hc (Nat.sub_le b 0)
  have hbase := drain_sameBase s.conv.wcount b b 0 s.conv
  have hexec := exec_convRequest_of_drain hc hd1 hd2 (b := b) rfl rfl
  generalize drain s.conv.wcount b b 0 s.conv = r at hdrains hbase hexec
  have htags : r.tags = tags := by rw [hdrains.tags_eq, Nat.zero_add]
  have hcursor := hdrains.cursor hmax
  rw [Nat.zero_add] at hcursor
  refine ⟨_, hexec, ?_, hdrains.pduContent_eq, hcursor.cursorAfter, ?_⟩
  · rw [← htags, hdrains.bytes_eq]
    rfl
  · rw [hbase]
    simp [convEffect, hdrains.tagCnt_eq, htags]

end Sys2Proof.Machine
end

section
/-! 43_control.md R200, R202, R203, R206: NOP, RESET and ERR.CLEAR complete in every state. -/

namespace Sys2Proof.Machine

/-! ### What the three commands leave -/

theorem exec_nop (ignored : BitVec 24) (s : State) : exec (.nop ignored) s = .next s := rfl

/-- RESET with its reserved bits clear passes its one check. -/
theorem exec_reset_zero (s : State) : exec (.reset 0#24) s = .next (softReset s) := by
  simp [exec, execReset]

/-- ERR.CLEAR with its reserved bits clear passes its one check. -/
theorem exec_errClear_zero (s : State) : exec (.errClear 0#24) s = .next (clearErrors s) := by
  simp [exec, execErrClear]

/-- Ending the error condition writes the four error elements (60_exceptions.md R228). -/
theorem clearErrors_eq (s : State) :
    clearErrors s = { s with err := { err := false, cause := 0x00#8, info := 0x00000000#32, count := 0#32 } } := rfl

/-! ### The statements -/

/-- Settles O13: NOP has no check, on its ignored bits or on the state. -/
theorem nopChangesNothing : Obligations.NopChangesNothing := exec_nop

/-- Settles O15: RESET leaves `softReset`, element by element. -/
theorem resetCommandRestoresResetState : Obligations.ResetCommandRestoresResetState := fun s =>
  ⟨softReset s, exec_reset_zero s, softReset_err s, softReset_tSnapHi s, softReset_mod s, softReset_conv s,
    softReset_time s, softReset_out s, softReset_cmd s, softReset_msg s, softReset_params s, softReset_env s⟩

/-- Settles O22: ERR.CLEAR leaves `clearErrors`. -/
theorem errClearEndsTheErrorCondition : Obligations.ErrClearEndsTheErrorCondition := fun s =>
  (exec_errClear_zero s).trans (congrArg _ (clearErrors_eq s))

end Sys2Proof.Machine
end

section
/-! 60_exceptions.md R220-R225: which errors each command raises, and what a command that raises one leaves. -/

namespace Sys2Proof.Machine

open Sys2Proof.Reference

/-! ### What each command does to the error state -/

/-- The state that error `e` is recorded in: a code that rejects a configuration has cleared its unit first, and no
other code has changed anything (60_exceptions.md R223). -/
def clearedFor (e : ErrorCode) (s : State) : State :=
  match e with
  | .badSps | .badAlpha => modClear s
  | .badRate | .tagnameTooLong => convClear s
  | _ => s

@[simp] theorem clearedFor_err (e : ErrorCode) (s : State) : (clearedFor e s).err = s.err := by
  cases e <;> rfl

/-- `ErrorEffect i s o`: what command `i`, run in state `s` with outcome `o`, does to the error state, with the rows of
60_exceptions.md R222. An outcome does not tell which code was raised where ERR was 1 before, so this is shown of the
commands, not of their outcomes. -/
inductive ErrorEffect (i : Instr) (s : State) : Host.Outcome State Fault Refusal → Prop
  | refused (r : Refusal) : ErrorEffect i s (.refused r)
  | kept {t : State} (ht : t.err = s.err) : ErrorEffect i s (.next t)
  | cleared {t : State} (hi : i = .reset 0#24 ∨ i = .errClear 0#24) (ht : t.err = ErrState.initial) :
      ErrorEffect i s (.next t)
  | raised (e : ErrorCode) (he : (errorsOf i.opcode).contains e.code = true) :
      ErrorEffect i s (.next (raiseIn e i (clearedFor e s)))

theorem execReset_errorEffect (reserved : BitVec 24) (s : State) :
    ErrorEffect (.reset reserved) s (execReset reserved s) := by
  unfold execReset
  split_ifs with hr
  · exact .raised .reservedNonzero rfl
  · exact .cleared (.inl (congrArg _ (not_not.1 hr))) rfl

theorem execCsrRead_errorEffect (reserved : BitVec 16) (idx : BitVec 8) (s : State) :
    ErrorEffect (.csrRead reserved idx) s (execCsrRead reserved idx s) := by
  unfold execCsrRead
  split_ifs
  · exact .raised .reservedNonzero rfl
  · split
    next hd =>
      rw [drawTime_frame hd]
      exact .kept rfl
    next => exact .refused _
  · split
    · exact .kept rfl
    · exact .raised .badCsr rfl

theorem execErrClear_errorEffect (reserved : BitVec 24) (s : State) :
    ErrorEffect (.errClear reserved) s (execErrClear reserved s) := by
  unfold execErrClear
  split_ifs with hr
  · exact .raised .reservedNonzero rfl
  · exact .cleared (.inr (congrArg _ (not_not.1 hr))) rfl

theorem execModConfig_errorEffect (dbg : Bool) (reserved : BitVec 7) (sps : BitVec 16) (alpha : Word) (s : State) :
    ErrorEffect (.modConfig dbg reserved sps alpha) s (execModConfig dbg reserved sps alpha s) := by
  unfold execModConfig
  split_ifs
  · exact .raised .reservedNonzero rfl
  · exact .raised .badSps rfl
  · exact .raised .badAlpha rfl
  · cases tapSet s.params.tapRound sps.toNat alpha with
    | none => exact .raised .badAlpha rfl
    | some taps => exact .kept rfl

theorem execModFeed_errorEffect (reserved : BitVec 16) (byte : Byte) (s : State) :
    ErrorEffect (.modFeed reserved byte) s (execModFeed reserved byte s) := by
  unfold execModFeed
  split_ifs
  · exact .raised .reservedNonzero rfl
  · exact .raised .notConfigured rfl
  · exact .raised .inFifoFull rfl
  · exact .kept rfl

theorem execModRequest_errorEffect (n : BitVec 24) (s : State) :
    ErrorEffect (.modRequest n) s (execModRequest n s) := by
  unfold execModRequest
  split_ifs
  · exact .raised .notConfigured rfl
  · exact .kept rfl

theorem execTapRead_errorEffect (reserved : BitVec 8) (i : BitVec 16) (s : State) :
    ErrorEffect (.tapRead reserved i) s (execTapRead reserved i s) := by
  unfold execTapRead
  split_ifs
  · exact .raised .reservedNonzero rfl
  · exact .raised .notConfigured rfl
  · exact .raised .badTapIndex rfl
  · exact .kept rfl

theorem execConvConfig_errorEffect (dbg : Bool) (reserved : BitVec 15) (len : BitVec 8) (lo hi : Word)
    (name : List Word) (s : State) :
    ErrorEffect (.convConfig dbg reserved len lo hi name) s (execConvConfig dbg reserved len lo hi name s) := by
  unfold execConvConfig
  split_ifs
  · exact .raised .reservedNonzero rfl
  · exact .raised .badRate rfl
  · exact .raised .tagnameTooLong rfl
  · split
    next hd =>
      rw [drawTime_frame hd]
      exact .kept rfl
    next => exact .refused _

theorem execMsgDeliver_errorEffect (kind : BitVec 4) (len : BitVec 20) (payload : List Word) (s : State) :
    ErrorEffect (.msgDeliver kind len payload) s (execMsgDeliver kind len payload s) := by
  unfold execMsgDeliver
  split_ifs
  · exact .raised .notConfigured rfl
  · exact .kept rfl

theorem execConvRequest_errorEffect (n : BitVec 24) (s : State) :
    ErrorEffect (.convRequest n) s (execConvRequest n s) := by
  unfold execConvRequest
  split_ifs
  · exact .raised .notConfigured rfl
  · split
    next => exact .refused _
    next hd1 =>
      dsimp only
      split
      next => exact .refused _
      next hd2 =>
        rw [drawTime_frame hd2, drawTime_frame hd1]
        exact .kept rfl

/-- Every command treats the error state as its row of 60_exceptions.md R222 says. -/
theorem exec_errorEffect (i : Instr) (s : State) : ErrorEffect i s (exec i s) := by
  cases i with
  | nop ignored => exact .kept rfl
  | reset reserved => exact execReset_errorEffect reserved s
  | csrRead reserved idx => exact execCsrRead_errorEffect reserved idx s
  | errClear reserved => exact execErrClear_errorEffect reserved s
  | modConfig dbg reserved sps alpha => exact execModConfig_errorEffect dbg reserved sps alpha s
  | modFeed reserved byte => exact execModFeed_errorEffect reserved byte s
  | modRequest n => exact execModRequest_errorEffect n s
  | tapRead reserved i => exact execTapRead_errorEffect reserved i s
  | convConfig dbg reserved len lo hi name => exact execConvConfig_errorEffect dbg reserved len lo hi name s
  | msgDeliver kind len payload => exact execMsgDeliver_errorEffect kind len payload s
  | convRequest n => exact execConvRequest_errorEffect n s

/-- What an error writes to the error state does not depend on the units it leaves cleared. -/
theorem raiseIn_clearedFor_err (e : ErrorCode) (i : Instr) (s : State) :
    (raiseIn e i (clearedFor e s)).err = (raised e.code i.header 0 s).err := by
  rw [raiseIn_err, clearedFor_err, ← raiseError_eq_raised]
  rfl

/-- Settles O25: the commands' rows (`exec_errorEffect`). -/
theorem commandsRaiseOnlyTheirErrors : Obligations.CommandsRaiseOnlyTheirErrors := by
  intro i s t h
  have heffect := exec_errorEffect i s
  rw [h] at heffect
  cases heffect with
  | kept ht => exact .inl ht
  | cleared hi ht => exact .inr (.inl ⟨hi, ht⟩)
  | raised e he => exact .inr (.inr ⟨e.code, List.contains_iff_mem.1 he, raiseIn_clearedFor_err e i s⟩)

/-! ### A command that fails -/

/-- Only MOD.CONFIG rejects a configuration of the modulator. -/
theorem opcode_of_rejects_mod {op : Opcode} {code : BitVec 8} (h : code ∈ errorsOf op)
    (hcode : code = 0x04#8 ∨ code = 0x05#8) : op = .modConfig := by
  cases op with
  | modConfig => rfl
  | _ => obtain rfl | rfl := hcode <;> exact absurd h (by decide)

/-- Only CONV.CONFIG rejects a configuration of the converter. -/
theorem opcode_of_rejects_conv {op : Opcode} {code : BitVec 8} (h : code ∈ errorsOf op)
    (hcode : code = 0x06#8 ∨ code = 0x07#8) : op = .convConfig := by
  cases op with
  | convConfig => rfl
  | _ => obtain rfl | rfl := hcode <;> exact absurd h (by decide)

/-- ERR_COUNT moves where an error is counted. -/
theorem count_ne_succ (n : BitVec 32) : n ≠ n + 1#32 := by bv_omega

/-- Settles O26: ERR is 1 and the count has moved, so the command neither left the error state alone nor cleared it; its
row then gives the code, and the code the unit cleared (`clearedFor`). -/
theorem failedCommandsHaveNoOtherEffect : Obligations.FailedCommandsHaveNoOtherEffect := by
  intro i s t h herr hcount
  have heffect := exec_errorEffect i s
  rw [h] at heffect
  cases heffect with
  | kept ht => exact absurd (ht ▸ hcount) (count_ne_succ _)
  | cleared hi ht => exact absurd ((congrArg ErrState.err ht).symm.trans herr) Bool.false_ne_true
  | raised e he =>
    have hrow := List.contains_iff_mem.1 he
    refine ⟨e.code, hrow, ?_⟩
    rw [raiseIn_eq_raised e rfl, rspWords_eq]
    cases e with
    | badSps | badAlpha =>
      have hop := opcode_of_rejects_mod hrow (by decide)
      rw [hop]
      exact .inr (.inl ⟨by decide, rfl, rfl⟩)
    | badRate | tagnameTooLong =>
      have hop := opcode_of_rejects_conv hrow (by decide)
      rw [hop]
      exact .inr (.inr ⟨by decide, rfl, rfl⟩)
    | _ => exact .inl ⟨by decide, rfl⟩

/-! ### Commands of a unit that is not configured -/

/-- A command that raises an error, and clears no unit for it, has the effect that 60_exceptions.md R223 writes. -/
theorem exec_eq_raised (e : ErrorCode) {i : Instr} {hdr : Word} {s : State} (he : exec i s = .next (raiseIn e i s))
    (hh : i.header = hdr) : exec i s = .next (raised e.code hdr (responseWords i.opcode) s) := by
  rw [he, raiseIn_eq_raised e hh, rspWords_eq]

/-- Settles O24: each of the five commands looks at its unit first, once its reserved bits, where it has any, are
clear. -/
theorem unconfiguredUnitsRaiseNotConfigured : Obligations.UnconfiguredUnitsRaiseNotConfigured := by
  refine fun s => ⟨fun hm => ⟨fun b => ?_, fun n => ?_, fun i => ?_⟩,
    fun hc => ⟨fun kind len payload => ?_, fun n => ?_⟩⟩
  · exact exec_eq_raised .notConfigured (if_pos hm) (modFeed_header b)
  · exact exec_eq_raised .notConfigured (if_pos hm) rfl
  · exact exec_eq_raised .notConfigured (if_pos hm) (tapRead_header i)
  · exact exec_eq_raised .notConfigured (if_pos hc) (BitVec.append_assoc' ..)
  · exact exec_eq_raised .notConfigured (if_pos hc) rfl

end Sys2Proof.Machine
end

section
/-! 20_memory.md R72: what a canonical tap memory reads determines what it lists (log 5). Its first entry stands at the
least index that reads other than the default, so the reads determine that entry, and then the rest. -/

namespace Sys2Proof.Machine

theorem tapRead_cons_self (i : Nat) (w : Word) (m : TapMemory) : tapRead ((i, w) :: m) i = w := if_pos rfl

theorem tapRead_cons_of_ne {i k : Nat} (h : k ≠ i) (w : Word) (m : TapMemory) :
    tapRead ((i, w) :: m) k = tapRead m k := if_neg h

/-- A canonical memory reads the default below its first index. -/
theorem tapRead_cons_of_lt {i k : Nat} {w : Word} {m : TapMemory} (h : TapMemory.wf ((i, w) :: m) = true) (hk : k < i) :
    tapRead ((i, w) :: m) k = tapDefault := by
  obtain ⟨-, hlt, -⟩ := TapMemory.wf_cons_iff.1 h
  refine tapRead_of_lt fun c hc => ?_
  obtain rfl | hc := List.mem_cons.1 hc
  · exact hk
  · exact hk.trans (hlt c hc)

/-- The first word of a canonical memory is not the default. -/
theorem tapRead_first_ne {i : Nat} {w : Word} {m : TapMemory} (h : TapMemory.wf ((i, w) :: m) = true) :
    tapRead ((i, w) :: m) i ≠ tapDefault := by
  rw [tapRead_cons_self]
  exact (TapMemory.wf_cons_iff.1 h).1

/-- The first index of a canonical memory is the least that reads other than the default. -/
theorem first_le_of_tapRead_ne {i k : Nat} {w : Word} {m : TapMemory} (h : TapMemory.wf ((i, w) :: m) = true)
    (hk : tapRead ((i, w) :: m) k ≠ tapDefault) : i ≤ k :=
  Nat.le_of_not_lt fun hlt => hk (tapRead_cons_of_lt h hlt)

/-- The rest of a canonical memory reads as the whole, but for the default at the first index. -/
theorem tapRead_tail {i : Nat} {w : Word} {m : TapMemory} (h : TapMemory.wf ((i, w) :: m) = true) (k : Nat) :
    tapRead m k = if k = i then tapDefault else tapRead ((i, w) :: m) k := by
  obtain ⟨-, hlt, -⟩ := TapMemory.wf_cons_iff.1 h
  split_ifs with hk
  · exact tapRead_of_lt (hk ▸ hlt)
  · exact (tapRead_cons_of_ne hk w m).symm

/-- A canonical memory that reads the default everywhere lists nothing. -/
theorem eq_nil_of_tapRead_default {m : TapMemory} (h : TapMemory.wf m = true) (hread : ∀ i, tapRead m i = tapDefault) :
    m = [] := by
  cases m with
  | nil => rfl
  | cons c m => exact absurd (hread c.1) (tapRead_first_ne h)

/-- Canonical memories that read alike start at the same index: each first index reads other than the default in the
other memory too. -/
theorem first_eq_of_tapRead_eq {i j : Nat} {w v : Word} {m m' : TapMemory} (h : TapMemory.wf ((i, w) :: m) = true)
    (h' : TapMemory.wf ((j, v) :: m') = true) (hread : ∀ k, tapRead ((i, w) :: m) k = tapRead ((j, v) :: m') k) :
    i = j :=
  Nat.le_antisymm (first_le_of_tapRead_ne h (hread j ▸ tapRead_first_ne h'))
    (first_le_of_tapRead_ne h' (hread i ▸ tapRead_first_ne h))

/-- Settles O58, by induction on the entries: the reads determine the first index and its word, and what is left of the
two memories still reads alike. -/
theorem tapMemoryIsCanonical : Obligations.TapMemoryIsCanonical := by
  intro m
  induction m with
  | nil => exact fun m' _ h' hread => (eq_nil_of_tapRead_default h' fun i => (hread i).symm).symm
  | cons c m ih =>
    obtain ⟨i, w⟩ := c
    intro m' h h' hread
    cases m' with
    | nil => exact eq_nil_of_tapRead_default h hread
    | cons c' m' =>
      obtain ⟨j, v⟩ := c'
      obtain rfl : i = j := first_eq_of_tapRead_eq h h' hread
      have hword : w = v := by simpa only [tapRead_cons_self] using hread i
      have htail : m = m' := by
        obtain ⟨-, -, hm⟩ := TapMemory.wf_cons_iff.1 h
        obtain ⟨-, -, hm'⟩ := TapMemory.wf_cons_iff.1 h'
        refine ih m' hm hm' fun k => ?_
        rw [tapRead_tail h, tapRead_tail h', hread]
      rw [hword, htail]

end Sys2Proof.Machine
end
